-- ==== Sys2Proof/Word.lean ====
section
/-! DEFINITION. The word types of the block. -/

namespace Sys2Proof

/-- A transaction word (30_encoding.md R90). -/
abbrev Word := BitVec 32

/-- What a register port moves (20_memory.md R67). -/
abbrev Byte := BitVec 8

/-- A register-bus address (20_memory.md R60). -/
abbrev BusAddr := BitVec 16

/-- A 32-bit pixel, R in the top byte and A in the lowest (42_color_table.md R190). -/
abbrev Pixel := BitVec 32

/-- A colour-table entry (10_state.md R34). -/
abbrev Colour := BitVec 15

/-- The opaque black of 10_state.md R42 and 44_compositor.md R262: (R, G, B, A) = (0, 0, 0, 255). -/
abbrev opaqueBlack : Pixel := 0x000000FF#32

end Sys2Proof
end

