-- ==== Sys2Proof/Config.lean ====
section
/-! DEFINITION. What is fixed at construction: the video-standard descriptor (00_scope.md R7) and the parameters
(00_scope.md R8), and the values the spec leaves open without a default. -/

namespace Sys2Proof

/-- `REMAP_FORMULA` of 00_scope.md R8, 41_video_memory.md R160. -/
inductive RemapFormula where
  | rotate
  | asWritten
  deriving DecidableEq, Repr

/-- `VRAM_A15` of 00_scope.md R8, 20_memory.md R62. -/
inductive VramA15 where
  | mirror
  | fault
  deriving DecidableEq, Repr

/-- A background index, 1 to 4 (10_state.md R30). -/
inductive BgIdx where
  | bg1
  | bg2
  | bg3
  | bg4
  deriving DecidableEq, Repr

/-- The video-standard descriptor (00_scope.md R7), the fields in the order of its table. -/
structure Descriptor where
  tpd    : Nat
  fad    : Nat
  aw     : Nat
  hbw    : Nat
  fal    : Nat
  ah     : Nat
  vbh    : Nat
  region : Bool
  deriving DecidableEq, Repr

/-- The validity conditions of 00_scope.md R7: one a field of the table (REGION is one bit, so it has none that can
fail), then the two on the totals. -/
inductive DescriptorCondition where
  | tpdAtLeast1
  | fadAtLeast1
  | awIs256
  | hbwAtLeast1
  | falAtLeast1
  | ahIs224
  | vbhAtLeast1
  | hTotalAtMost512
  | vTotalAtMost512
  deriving DecidableEq, Repr

/-- Everything fixed from construction to teardown (10_state.md R39), less the DMA-hook draws, which the environment
supplies call by call (State.draws). `logUnmapped` says whether the optional `Unmapped` event of 00_scope.md R12 is
logged. -/
structure Config where
  desc         : Descriptor
  remapFormula : RemapFormula
  vramA15      : VramA15
  layers       : List BgIdx
  openBus      : Byte
  ppu1Version  : BitVec 4
  ppu2Version  : BitVec 4
  logUnmapped  : Bool
  deriving DecidableEq, Repr

/-- `OPEN_BUS`, which 00_scope.md R8 leaves open: no value is known of it. Log 5. -/
opaque Config.openBusValue : Byte

/-- `PPU1_VERSION`, which 00_scope.md R8 leaves open. Log 5. -/
opaque Config.ppu1VersionValue : BitVec 4

/-- `PPU2_VERSION`, which 00_scope.md R8 leaves open. Log 5. -/
opaque Config.ppu2VersionValue : BitVec 4

/-- The example descriptor NTSC_EX of 00_scope.md R9. -/
def Descriptor.ntscEx : Descriptor :=
  { tpd := 4, fad := 22, aw := 256, hbw := 63, fal := 1, ah := 224, vbh := 37, region := false }

/-- The example descriptor PAL_EX of 00_scope.md R9. -/
def Descriptor.palEx : Descriptor := { Descriptor.ntscEx with vbh := 87, region := true }

/-- The configuration of State.reset: R8's defaults, the open parameters opaque, and NTSC_EX.
DESIGN CHOICE, unsafe for a claim that uses the descriptor's numbers: log 4. No `Unmapped` event is logged: log 11. -/
def Config.standard : Config :=
  { desc := Descriptor.ntscEx, remapFormula := .rotate, vramA15 := .mirror, layers := [.bg1],
    openBus := Config.openBusValue, ppu1Version := Config.ppu1VersionValue, ppu2Version := Config.ppu2VersionValue,
    logUnmapped := false }

end Sys2Proof
end

