-- ==== Sys2Proof/Syntax.lean ====
section
/-! DEFINITION. The instructions: one constructor for each row of spec/opcode_table.json, and the ports the register
bus decodes. -/

namespace Sys2Proof

/-- The write ports of 10_state.md R22, in address order. -/
inductive WPort where
  | inidisp
  | bgmode
  | bg1sc
  | bg2sc
  | bg3sc
  | bg4sc
  | bg12nba
  | bg34nba
  | bg1hofs
  | bg1vofs
  | bg2hofs
  | bg2vofs
  | bg3hofs
  | bg3vofs
  | bg4hofs
  | bg4vofs
  | vmain
  | vmaddl
  | vmaddh
  | vmdatal
  | vmdatah
  | cgadd
  | cgdata
  | tm
  deriving DecidableEq, Repr

/-- The read ports of 10_state.md R22, in address order. -/
inductive RPort where
  | slhv
  | rdvraml
  | rdvramh
  | rdcgram
  | ophct
  | opvct
  | stat77
  | stat78
  deriving DecidableEq, Repr

/-- Why a word spells no operation (30_encoding.md R98, R99). -/
inductive WordError where
  /-- The kind is 0x0 or 0x8 to 0xF (R98). -/
  | reservedKind
  /-- A reserved field of a defined kind is not zero (R99). -/
  | reservedField
  /-- A DREAD word with `y >= 224` (R99). -/
  | dreadRow
  /-- A word of a kind other than BUSW inside a DMA-hook draw (R99). -/
  | hookKind
  deriving DecidableEq, Repr

/-- The operations on the block (30_encoding.md R90, R101): the BUSW rows, the BUSR rows, and the other kinds. -/
inductive Instr where
  | wInidisp (data : Byte)
  | wBgmode (data : Byte)
  | wBg1sc (data : Byte)
  | wBg2sc (data : Byte)
  | wBg3sc (data : Byte)
  | wBg4sc (data : Byte)
  | wBg12nba (data : Byte)
  | wBg34nba (data : Byte)
  | wBg1hofs (data : Byte)
  | wBg1vofs (data : Byte)
  | wBg2hofs (data : Byte)
  | wBg2vofs (data : Byte)
  | wBg3hofs (data : Byte)
  | wBg3vofs (data : Byte)
  | wBg4hofs (data : Byte)
  | wBg4vofs (data : Byte)
  | wVmain (data : Byte)
  | wVmaddl (data : Byte)
  | wVmaddh (data : Byte)
  | wVmdatal (data : Byte)
  | wVmdatah (data : Byte)
  | wCgadd (data : Byte)
  | wCgdata (data : Byte)
  | wTm (data : Byte)
  | wNop (addr : BusAddr) (data : Byte)
  | rSlhv
  | rRdvraml
  | rRdvramh
  | rRdcgram
  | rOphct
  | rOpvct
  | rStat77
  | rStat78
  | rOpen (addr : BusAddr)
  | adv (n : BitVec 28)
  | rst
  | setirq (nmiArmed : Bool) (irqMode : BitVec 2) (vTarget hTarget : BitVec 9)
  | setobj (timeOver rangeOver : Bool)
  | dread (x y : BitVec 8)
  deriving DecidableEq, Repr

end Sys2Proof
end

