-- ==== Sys2Proof/Machine/Ports.lean ====
section
/-! DEFINITION. The register map of 10_state.md R22: the write table and the read table, two separate lists
(43_register_decode.md R210). -/

namespace Sys2Proof

/-- The bus address of a write port (10_state.md R22). -/
def WPort.addr : WPort → BusAddr
  | .inidisp => 0x2100#16
  | .bgmode => 0x2105#16
  | .bg1sc => 0x2107#16
  | .bg2sc => 0x2108#16
  | .bg3sc => 0x2109#16
  | .bg4sc => 0x210A#16
  | .bg12nba => 0x210B#16
  | .bg34nba => 0x210C#16
  | .bg1hofs => 0x210D#16
  | .bg1vofs => 0x210E#16
  | .bg2hofs => 0x210F#16
  | .bg2vofs => 0x2110#16
  | .bg3hofs => 0x2111#16
  | .bg3vofs => 0x2112#16
  | .bg4hofs => 0x2113#16
  | .bg4vofs => 0x2114#16
  | .vmain => 0x2115#16
  | .vmaddl => 0x2116#16
  | .vmaddh => 0x2117#16
  | .vmdatal => 0x2118#16
  | .vmdatah => 0x2119#16
  | .cgadd => 0x2121#16
  | .cgdata => 0x2122#16
  | .tm => 0x212C#16

/-- The write table's rows. -/
def WPort.all : List WPort :=
  [.inidisp, .bgmode, .bg1sc, .bg2sc, .bg3sc, .bg4sc, .bg12nba, .bg34nba,
   .bg1hofs, .bg1vofs, .bg2hofs, .bg2vofs, .bg3hofs, .bg3vofs, .bg4hofs, .bg4vofs,
   .vmain, .vmaddl, .vmaddh, .vmdatal, .vmdatah, .cgadd, .cgdata, .tm]

/-- The write row an address selects, if one does (30_encoding.md R100). -/
def WPort.ofAddr (a : BusAddr) : Option WPort := WPort.all.find? (fun p => p.addr == a)

/-- The bus address of a read port (10_state.md R22). -/
def RPort.addr : RPort → BusAddr
  | .slhv => 0x2137#16
  | .rdvraml => 0x2139#16
  | .rdvramh => 0x213A#16
  | .rdcgram => 0x213B#16
  | .ophct => 0x213C#16
  | .opvct => 0x213D#16
  | .stat77 => 0x213E#16
  | .stat78 => 0x213F#16

/-- The read table's rows. -/
def RPort.all : List RPort :=
  [.slhv, .rdvraml, .rdvramh, .rdcgram, .ophct, .opvct, .stat77, .stat78]

/-- The read row an address selects, if one does (30_encoding.md R100). -/
def RPort.ofAddr (a : BusAddr) : Option RPort := RPort.all.find? (fun p => p.addr == a)

/-- The instruction of a write row. -/
def WPort.instr (p : WPort) (d : Byte) : Instr :=
  match p with
  | .inidisp => .wInidisp d
  | .bgmode => .wBgmode d
  | .bg1sc => .wBg1sc d
  | .bg2sc => .wBg2sc d
  | .bg3sc => .wBg3sc d
  | .bg4sc => .wBg4sc d
  | .bg12nba => .wBg12nba d
  | .bg34nba => .wBg34nba d
  | .bg1hofs => .wBg1hofs d
  | .bg1vofs => .wBg1vofs d
  | .bg2hofs => .wBg2hofs d
  | .bg2vofs => .wBg2vofs d
  | .bg3hofs => .wBg3hofs d
  | .bg3vofs => .wBg3vofs d
  | .bg4hofs => .wBg4hofs d
  | .bg4vofs => .wBg4vofs d
  | .vmain => .wVmain d
  | .vmaddl => .wVmaddl d
  | .vmaddh => .wVmaddh d
  | .vmdatal => .wVmdatal d
  | .vmdatah => .wVmdatah d
  | .cgadd => .wCgadd d
  | .cgdata => .wCgdata d
  | .tm => .wTm d

/-- The instruction of a read row. -/
def RPort.instr : RPort → Instr
  | .slhv => .rSlhv
  | .rdvraml => .rRdvraml
  | .rdvramh => .rRdvramh
  | .rdcgram => .rRdcgram
  | .ophct => .rOphct
  | .opvct => .rOpvct
  | .stat77 => .rStat77
  | .stat78 => .rStat78

end Sys2Proof
end

