-- ==== Sys2Proof/WellFormed.lean ====
section
/-! DEFINITION. Which terms of Instr spell an operation. -/

namespace Sys2Proof

/-- An instruction spells an operation when its word decodes to it. The catch-all rows take only the addresses without
a row of their own (30_encoding.md R100), and a DREAD row lies below 224 (30_encoding.md R97). Every other operand may
take every value of its field. -/
def Instr.wf : Instr → Bool
  | .wInidisp _ => true
  | .wBgmode _ => true
  | .wBg1sc _ => true
  | .wBg2sc _ => true
  | .wBg3sc _ => true
  | .wBg4sc _ => true
  | .wBg12nba _ => true
  | .wBg34nba _ => true
  | .wBg1hofs _ => true
  | .wBg1vofs _ => true
  | .wBg2hofs _ => true
  | .wBg2vofs _ => true
  | .wBg3hofs _ => true
  | .wBg3vofs _ => true
  | .wBg4hofs _ => true
  | .wBg4vofs _ => true
  | .wVmain _ => true
  | .wVmaddl _ => true
  | .wVmaddh _ => true
  | .wVmdatal _ => true
  | .wVmdatah _ => true
  | .wCgadd _ => true
  | .wCgdata _ => true
  | .wTm _ => true
  | .wNop a _ => (WPort.ofAddr a).isNone
  | .rSlhv => true
  | .rRdvraml => true
  | .rRdvramh => true
  | .rRdcgram => true
  | .rOphct => true
  | .rOpvct => true
  | .rStat77 => true
  | .rStat78 => true
  | .rOpen a => (RPort.ofAddr a).isNone
  | .adv _ => true
  | .rst => true
  | .setirq _ _ _ _ => true
  | .setobj _ _ => true
  | .dread _ y => decide (y.toNat < 224)

end Sys2Proof
end

