-- ==== Sys2Proof/Decode.lean ====
section
/-! DEFINITION. From a transaction word to an instruction, and back (30_encoding.md §1 to §3). -/

namespace Sys2Proof

/-- `T[hi:lo]` for the field of `n` bits whose lowest is `lo` (00_scope.md R10). -/
def field (w : Word) (lo n : Nat) : BitVec n := w.extractLsb' lo n

/-- A BUSW's row (30_encoding.md R100): the port row of its address if there is one, else the catch-all. -/
def decodeWrite (a : BusAddr) (d : Byte) : Instr :=
  match WPort.ofAddr a with
  | some p => p.instr d
  | none => .wNop a d

/-- A BUSR's row (30_encoding.md R100). -/
def decodeRead (a : BusAddr) : Instr :=
  match RPort.ofAddr a with
  | some p => p.instr
  | none => .rOpen a

/-- BUSW (30_encoding.md R91). -/
def decodeBusw (w : Word) : Except WordError Instr :=
  if field w 24 4 = 0 then .ok (decodeWrite (field w 8 16) (field w 0 8)) else .error .reservedField

/-- BUSR (30_encoding.md R92). -/
def decodeBusr (w : Word) : Except WordError Instr :=
  if field w 24 4 = 0 ∧ field w 0 8 = 0 then .ok (decodeRead (field w 8 16)) else .error .reservedField

/-- RST (30_encoding.md R94). -/
def decodeRst (w : Word) : Except WordError Instr :=
  if field w 0 28 = 0 then .ok .rst else .error .reservedField

/-- SETIRQ (30_encoding.md R95). -/
def decodeSetirq (w : Word) : Except WordError Instr :=
  if field w 9 7 = 0 then .ok (.setirq (w.getLsbD 27) (field w 25 2) (field w 16 9) (field w 0 9))
  else .error .reservedField

/-- SETOBJ (30_encoding.md R96). -/
def decodeSetobj (w : Word) : Except WordError Instr :=
  if field w 2 26 = 0 then .ok (.setobj (w.getLsbD 1) (w.getLsbD 0)) else .error .reservedField

/-- DREAD (30_encoding.md R97, R99). -/
def decodeDread (w : Word) : Except WordError Instr :=
  if field w 16 12 = 0 then
    if (field w 8 8).toNat < 224 then .ok (.dread (field w 0 8) (field w 8 8)) else .error .dreadRow
  else .error .reservedField

/-- The decoder: total, by the kind `T[31:28]` (30_encoding.md R90, R98, R104). -/
def decode (w : Word) : Except WordError Instr :=
  match (field w 28 4).toNat with
  | 1 => decodeBusw w
  | 2 => decodeBusr w
  | 3 => .ok (.adv (field w 0 28))
  | 4 => decodeRst w
  | 5 => decodeSetirq w
  | 6 => decodeSetobj w
  | 7 => decodeDread w
  | _ => .error .reservedKind

/-- The words of a DMA-hook draw as the (address, data) pairs of 40_timing.md R127. Only a BUSW word may stand in a
draw: another operation is refused (30_encoding.md R99), and so is a word that spells none. -/
def decodeDraw : List Word → Except WordError (List (BusAddr × Byte))
  | [] => .ok []
  | w :: ws =>
    match decode w with
    | .error e => .error e
    | .ok _ =>
      if field w 28 4 = 1 then
        match decodeDraw ws with
        | .error e => .error e
        | .ok ps => .ok ((field w 8 16, field w 0 8) :: ps)
      else .error .hookKind

/-- The instruction of a row of spec/opcode_table.json, its bits numbered as the table numbers them: a transaction word
is one 32-bit number (30_encoding.md R104), so bit i of `w` is `T[i]`. Log 17. -/
def decodeTableWord (nbits w : Nat) : Option Instr :=
  if nbits ≤ 32 ∧ w < 2 ^ 32 then
    match decode (BitVec.ofNat 32 w) with
    | .ok i => some i
    | .error _ => none
  else none

/-- A BUSW word (30_encoding.md R91). -/
def encodeBusw (a : BusAddr) (d : Byte) : Word := 1#4 ++ 0#4 ++ a ++ d

/-- A BUSR word (30_encoding.md R92). -/
def encodeBusr (a : BusAddr) : Word := 2#4 ++ 0#4 ++ a ++ 0#8

/-- The word of an instruction (30_encoding.md R90 to R97, R101). -/
def encode : Instr → Word
  | .wInidisp d => encodeBusw WPort.inidisp.addr d
  | .wBgmode d => encodeBusw WPort.bgmode.addr d
  | .wBg1sc d => encodeBusw WPort.bg1sc.addr d
  | .wBg2sc d => encodeBusw WPort.bg2sc.addr d
  | .wBg3sc d => encodeBusw WPort.bg3sc.addr d
  | .wBg4sc d => encodeBusw WPort.bg4sc.addr d
  | .wBg12nba d => encodeBusw WPort.bg12nba.addr d
  | .wBg34nba d => encodeBusw WPort.bg34nba.addr d
  | .wBg1hofs d => encodeBusw WPort.bg1hofs.addr d
  | .wBg1vofs d => encodeBusw WPort.bg1vofs.addr d
  | .wBg2hofs d => encodeBusw WPort.bg2hofs.addr d
  | .wBg2vofs d => encodeBusw WPort.bg2vofs.addr d
  | .wBg3hofs d => encodeBusw WPort.bg3hofs.addr d
  | .wBg3vofs d => encodeBusw WPort.bg3vofs.addr d
  | .wBg4hofs d => encodeBusw WPort.bg4hofs.addr d
  | .wBg4vofs d => encodeBusw WPort.bg4vofs.addr d
  | .wVmain d => encodeBusw WPort.vmain.addr d
  | .wVmaddl d => encodeBusw WPort.vmaddl.addr d
  | .wVmaddh d => encodeBusw WPort.vmaddh.addr d
  | .wVmdatal d => encodeBusw WPort.vmdatal.addr d
  | .wVmdatah d => encodeBusw WPort.vmdatah.addr d
  | .wCgadd d => encodeBusw WPort.cgadd.addr d
  | .wCgdata d => encodeBusw WPort.cgdata.addr d
  | .wTm d => encodeBusw WPort.tm.addr d
  | .wNop a d => encodeBusw a d
  | .rSlhv => encodeBusr RPort.slhv.addr
  | .rRdvraml => encodeBusr RPort.rdvraml.addr
  | .rRdvramh => encodeBusr RPort.rdvramh.addr
  | .rRdcgram => encodeBusr RPort.rdcgram.addr
  | .rOphct => encodeBusr RPort.ophct.addr
  | .rOpvct => encodeBusr RPort.opvct.addr
  | .rStat77 => encodeBusr RPort.stat77.addr
  | .rStat78 => encodeBusr RPort.stat78.addr
  | .rOpen a => encodeBusr a
  | .adv n => 3#4 ++ n
  | .rst => 4#4 ++ 0#28
  | .setirq nmi mode v h => 5#4 ++ BitVec.ofBool nmi ++ mode ++ v ++ 0#7 ++ h
  | .setobj t r => 6#4 ++ 0#26 ++ BitVec.ofBool t ++ BitVec.ofBool r
  | .dread x y => 7#4 ++ 0#12 ++ y ++ x

end Sys2Proof
end

