-- ==== Sys2Proof/Machine/Descriptor.lean ====
section
/-! DEFINITION. What follows from the video-standard descriptor (00_scope.md R7): the totals, the validity conditions,
the visible lines and active dots. -/

namespace Sys2Proof

/-- `H_TOTAL` (00_scope.md R7). -/
def Descriptor.hTotal (d : Descriptor) : Nat := d.fad + d.aw + d.hbw

/-- `V_TOTAL` (00_scope.md R7). -/
def Descriptor.vTotal (d : Descriptor) : Nat := d.fal + d.ah + d.vbh

/-- The first validity condition of 00_scope.md R7 that fails, in the order its table lists them
(60_exceptions.md R310); the two on the totals come after the table. -/
def Descriptor.firstFailure (d : Descriptor) : Option DescriptorCondition :=
  if d.tpd < 1 then some .tpdAtLeast1
  else if d.fad < 1 then some .fadAtLeast1
  else if d.aw ≠ 256 then some .awIs256
  else if d.hbw < 1 then some .hbwAtLeast1
  else if d.fal < 1 then some .falAtLeast1
  else if d.ah ≠ 224 then some .ahIs224
  else if d.vbh < 1 then some .vbhAtLeast1
  else if 512 < d.hTotal then some .hTotalAtMost512
  else if 512 < d.vTotal then some .vTotalAtMost512
  else none

/-- Every condition of 00_scope.md R7 holds. -/
def Descriptor.valid (d : Descriptor) : Bool := d.firstFailure.isNone

/-- `FAL <= line < FAL + AH` (40_timing.md R126). -/
def Descriptor.lineVisible (d : Descriptor) (line : Nat) : Bool := decide (d.fal ≤ line ∧ line < d.fal + d.ah)

/-- `FAD <= dot < FAD + AW` (40_timing.md R141). -/
def Descriptor.dotActive (d : Descriptor) (dot : Nat) : Bool := decide (d.fad ≤ dot ∧ dot < d.fad + d.aw)

end Sys2Proof
end

