-- ==== Sys2Proof/Machine/Registers.lean ====
section
/-! DEFINITION. The registers of 10_state.md, in the groups of its sections, and each group's reset value (R42). -/

namespace Sys2Proof.Machine

/-- The timing state (10_state.md R23, R25). The counters are numbers the block compares before they wrap
(40_timing.md R129); their range is an invariant (Safety.lean). Log 12. -/
structure Timing where
  hCounter   : Nat
  vCounter   : Nat
  acc        : Nat
  inHBlank   : Bool
  inVBlank   : Bool
  frameReady : Bool
  deriving DecidableEq, Repr

/-- 10_state.md R42: both blank flags are 1 after reset. -/
def Timing.atReset : Timing :=
  { hCounter := 0, vCounter := 0, acc := 0, inHBlank := true, inVBlank := true, frameReady := false }

/-- The latched copies of the counters and their read-back phases (10_state.md R26). -/
structure Latch where
  latchedH   : BitVec 9
  latchedV   : BitVec 9
  latchFlag  : Bool
  ophctPhase : Bool
  opvctPhase : Bool
  deriving DecidableEq, Repr

/-- 10_state.md R42. -/
def Latch.atReset : Latch :=
  { latchedH := 0, latchedV := 0, latchFlag := false, ophctPhase := false, opvctPhase := false }

/-- The interrupt-configuration inputs (10_state.md R27). -/
structure IrqInputs where
  nmiArmed : Bool
  irqMode  : BitVec 2
  hTarget  : BitVec 9
  vTarget  : BitVec 9
  deriving DecidableEq, Repr

/-- 10_state.md R42. -/
def IrqInputs.atReset : IrqInputs := { nmiArmed := false, irqMode := 0, hTarget := 0, vTarget := 0 }

/-- The sprite-status inputs (10_state.md R28). -/
structure ObjInputs where
  timeOver  : Bool
  rangeOver : Bool
  deriving DecidableEq, Repr

/-- 10_state.md R42. -/
def ObjInputs.atReset : ObjInputs := { timeOver := false, rangeOver := false }

/-- The display-control fields (10_state.md R29). -/
structure DisplayControl where
  forceBlank    : Bool
  brightness    : BitVec 4
  bgMode        : BitVec 3
  bg3Priority   : Bool
  objMainEnable : Bool
  deriving DecidableEq, Repr

/-- 10_state.md R42. -/
def DisplayControl.atReset : DisplayControl :=
  { forceBlank := false, brightness := 0, bgMode := 0, bg3Priority := false, objMainEnable := false }

/-- One background record (10_state.md R30). -/
structure Background where
  tilemapBase : BitVec 16
  charBase    : BitVec 16
  hScroll     : BitVec 13
  vScroll     : BitVec 13
  enable      : Bool
  shadow      : Byte
  deriving DecidableEq, Repr

/-- 10_state.md R42. -/
def Background.atReset : Background :=
  { tilemapBase := 0, charBase := 0, hScroll := 0, vScroll := 0, enable := false, shadow := 0 }

/-- The four background records (10_state.md R30). -/
structure Backgrounds where
  bg1 : Background
  bg2 : Background
  bg3 : Background
  bg4 : Background
  deriving DecidableEq, Repr

/-- 10_state.md R42. -/
def Backgrounds.atReset : Backgrounds :=
  { bg1 := Background.atReset, bg2 := Background.atReset, bg3 := Background.atReset, bg4 := Background.atReset }

/-- `S.bg[n]`. -/
def Backgrounds.get (b : Backgrounds) : BgIdx → Background
  | .bg1 => b.bg1
  | .bg2 => b.bg2
  | .bg3 => b.bg3
  | .bg4 => b.bg4

/-- Replace `S.bg[n]`. -/
def Backgrounds.set (b : Backgrounds) (n : BgIdx) (r : Background) : Backgrounds :=
  match n with
  | .bg1 => { b with bg1 := r }
  | .bg2 => { b with bg2 := r }
  | .bg3 => { b with bg3 := r }
  | .bg4 => { b with bg4 := r }

/-- The video-memory cursor (10_state.md R31). -/
structure VramCursor where
  addr        : BitVec 16
  incCode     : BitVec 2
  remap       : BitVec 2
  triggerHigh : Bool
  deriving DecidableEq, Repr

/-- 10_state.md R42. -/
def VramCursor.atReset : VramCursor := { addr := 0, incCode := 0, remap := 0, triggerHigh := false }

/-- The colour-table cursor (10_state.md R33). -/
structure PaletteCursor where
  addr  : Byte
  phase : Bool
  latch : Byte
  deriving DecidableEq, Repr

/-- 10_state.md R42. -/
def PaletteCursor.atReset : PaletteCursor := { addr := 0, phase := false, latch := 0 }

end Sys2Proof.Machine
end

