-- ==== Sys2Proof/Machine/Sparse.lean ====
section
/-! DEFINITION. The one form in which the block's arrays are held: the entries that differ from the value an unlisted
key reads as, by strictly rising key. -/

namespace Sys2Proof.Machine

/-- Entries by rising key; an unlisted key reads as a value `d` that each use names. -/
abbrev Sparse (α : Type) := List (Nat × α)

/-- The value at key `k`. -/
def Sparse.read {α : Type} (d : α) : Sparse α → Nat → α
  | [], _ => d
  | (a, u) :: m, k => if a = k then u else Sparse.read d m k

/-- Store `v` at key `k`. Storing `d` removes the entry. -/
def Sparse.write {α : Type} [DecidableEq α] (d : α) : Sparse α → Nat → α → Sparse α
  | [], k, v => if v = d then [] else [(k, v)]
  | (a, u) :: m, k, v =>
    if k < a then (if v = d then (a, u) :: m else (k, v) :: (a, u) :: m)
    else if k = a then (if v = d then m else (k, v) :: m)
    else (a, u) :: Sparse.write d m k v

/-- From key `lo` on, keys rise strictly and stay below `bound`, and no entry equals `d`. -/
def Sparse.wfFrom {α : Type} [DecidableEq α] (d : α) (bound : Nat) : Nat → Sparse α → Bool
  | _, [] => true
  | lo, (a, u) :: m => decide (lo ≤ a) && decide (a < bound) && decide (u ≠ d) && Sparse.wfFrom d bound (a + 1) m

/-- The canonical form: equal contents are equal lists. -/
def Sparse.wf {α : Type} [DecidableEq α] (d : α) (bound : Nat) (m : Sparse α) : Bool := Sparse.wfFrom d bound 0 m

/-- Byte memory: video memory's form (10_state.md R32). -/
abbrev Memory := List Host.Cell

/-- What a byte that is not listed reads as: VRAM's reset value (10_state.md R42). Log 14. -/
def Memory.unlisted : Byte := 0#8

/-- One byte. -/
def Memory.read (m : Memory) (i : Nat) : Byte := Sparse.read Memory.unlisted m i

/-- Store one byte. -/
def Memory.write (m : Memory) (i : Nat) (v : Byte) : Memory := Sparse.write Memory.unlisted m i v

/-- The canonical form over the 65,536 bytes of 10_state.md R32. -/
def Memory.wf (m : Memory) : Bool := Sparse.wf Memory.unlisted 65536 m

/-- The colour table's form: 256 entries (10_state.md R34), 0 where unlisted (10_state.md R42). -/
abbrev Palette := Sparse Colour

/-- One colour-table entry. -/
def Palette.read (m : Palette) (i : Nat) : Colour := Sparse.read 0#15 m i

/-- Store one colour-table entry. -/
def Palette.write (m : Palette) (i : Nat) (c : Colour) : Palette := Sparse.write 0#15 m i c

/-- The canonical form of the colour table. -/
def Palette.wf (m : Palette) : Bool := Sparse.wf 0#15 256 m

/-- One row of a frame buffer: pixels by column, opaque black where unlisted (10_state.md R42). -/
abbrev PixelRow := Sparse Pixel

/-- A frame buffer: rows by number, opaque black where unlisted (10_state.md R35, R42). -/
abbrev Frame := Sparse PixelRow

/-- The pixel at row `y`, column `x`. -/
def Frame.read (f : Frame) (y x : Nat) : Pixel := Sparse.read opaqueBlack (Sparse.read [] f y) x

/-- Store the pixel at row `y`, column `x`. -/
def Frame.write (f : Frame) (y x : Nat) (p : Pixel) : Frame :=
  Sparse.write [] f y (Sparse.write opaqueBlack (Sparse.read [] f y) x p)

/-- The canonical form of a 224 × 256 grid (10_state.md R35): that of the list of rows, and of each row. -/
def Frame.wf (f : Frame) : Bool :=
  Sparse.wf [] 224 f && f.all (fun r => Sparse.wf opaqueBlack 256 r.2)

end Sys2Proof.Machine
end

