-- ==== Sys2Proof/Machine/State.lean ====
section
/-! DEFINITION. The state of the block (10_state.md), the reasons a step can stop, construction and reset. -/

namespace Sys2Proof.Machine

/-- The direction of an unmapped access (00_scope.md R12). -/
inductive BusDir where
  | write
  | read
  deriving DecidableEq, Repr

/-- The events of 00_scope.md R12. -/
inductive Event where
  | dmaHook (line : Nat)
  | lineRendered (line : Nat)
  | frameReady
  | swapped (n : Nat)
  | nmiRequest
  | irqRequest (h v : Nat)
  | unmapped (dir : BusDir) (addr : BusAddr)
  deriving DecidableEq, Repr

/-- The conditions of 60_exceptions.md R314. -/
inductive FaultCode where
  | configurationError
  | addressingInvariantViolation
  | unmappedRegister
  deriving DecidableEq, Repr

/-- The info of 60_exceptions.md R314, by condition. -/
inductive FaultInfo where
  | descriptor (c : DescriptorCondition)
  | vramWord (r : Nat)
  | unmapped (dir : BusDir) (addr : BusAddr)
  deriving DecidableEq, Repr

/-- `S.fault`'s record (10_state.md R37). -/
structure FaultRecord where
  code : FaultCode
  info : FaultInfo
  deriving DecidableEq, Repr

/-- What a read returns: BUSR's byte to the producer (30_encoding.md R92), DREAD's pair to the consumer
(45_frame_exchange.md R293). -/
inductive Reply where
  | byte (v : Byte)
  | pixel (p : Pixel) (swapCount : Nat)
  deriving DecidableEq, Repr

/-- One DREAD of the consumer made between two ticks: a column and a row of the grid. -/
structure ConsumerRead where
  x : Fin 256
  y : Fin 224
  deriving DecidableEq, Repr

/-- The block. `cfg` is the construction parameters, which nothing writes (10_state.md R39; log 3). The last four fields
are the environment's side: the words still to come (log 1), the DMA-hook draws still to come, one for each call
(log 7), the consumer's reads before each coming tick (log 8), and the values returned so far, oldest first (log 2). -/
structure State where
  cfg       : Config
  timing    : Timing
  latch     : Latch
  irq       : IrqInputs
  obj       : ObjInputs
  disp      : DisplayControl
  bg        : Backgrounds
  vm        : VramCursor
  vram      : Memory
  cgc       : PaletteCursor
  cg        : Palette
  work      : Frame
  display   : Frame
  swapCount : Nat
  fault     : Option FaultRecord
  history   : List Event
  input     : List Word
  draws     : List (List (BusAddr × Byte))
  consumer  : List (List ConsumerRead)
  replies   : List Reply
  deriving DecidableEq, Repr

/-- Why there is no state to go on from. -/
inductive Fault where
  /-- ConfigurationError (60_exceptions.md R310), raised by `State.construct` alone; no step raises it. Safe: no block
  exists. (An AddressingInvariantViolation is no `Fault`: it is recorded in `State.fault` and the block halts there,
  60_exceptions.md R313. Log 9.) -/
  | configurationError (c : DescriptorCondition)
  deriving DecidableEq, Repr

/-- Why a transaction has no step. -/
inductive Refusal where
  /-- Raised by an arm of `exec` whose instruction has no meaning yet: none is left. Safe. -/
  | notModelled (mnemonic : String)
  /-- The word is outside the interface (30_encoding.md R98, R99; 60_exceptions.md R315). Raised by `step` on a word
  that does not decode, by `execDread` on a row outside the grid, and by `State.offerDraw` on a draw with a word that
  is no BUSW. Safe: log 10. -/
  | word (e : WordError)
  deriving DecidableEq, Repr

/-- What a transaction answers. -/
abbrev Answer := Host.Outcome State Fault Refusal

/-- Every field at its reset value (10_state.md R42), `S.fault = none`, an empty history, and nothing from the
environment yet. -/
def State.initial (c : Config) : State :=
  { cfg := c
    timing := Timing.atReset
    latch := Latch.atReset
    irq := IrqInputs.atReset
    obj := ObjInputs.atReset
    disp := DisplayControl.atReset
    bg := Backgrounds.atReset
    vm := VramCursor.atReset
    vram := []
    cgc := PaletteCursor.atReset
    cg := []
    work := []
    display := []
    swapCount := 0
    fault := none
    history := []
    input := []
    draws := []
    consumer := []
    replies := [] }

/-- Construction (70_reset_and_hazards.md R340): an invalid descriptor is a ConfigurationError and no block exists
(60_exceptions.md R310). -/
def State.construct (c : Config) : Answer :=
  match c.desc.firstFailure with
  | some e => .fault (.configurationError e)
  | none => .next (State.initial c)

/-- The block right after construction with the standard configuration. Log 4, log 5, log 6. -/
def State.reset : State := State.initial Config.standard

end Sys2Proof.Machine
end

