-- ==== Sys2Proof/Machine/Operands.lean ====
section
/-! DEFINITION. The values the rules assemble from bytes, codes and addresses (30_encoding.md R102), as functions of
plain values. -/

namespace Sys2Proof.Machine

/-- `{d[7:2], 10 zeros}`: a tilemap base (43_register_decode.md R213). -/
def tilemapBaseOf (d : Byte) : BitVec 16 := d.extractLsb' 2 6 ++ 0#10

/-- `nibble << 12`: a character base (43_register_decode.md R217). -/
def charBaseOf (nibble : BitVec 4) : BitVec 16 := nibble ++ 0#12

/-- The low nibble of a byte. -/
def lowNibble (d : Byte) : BitVec 4 := d.extractLsb' 0 4

/-- The high nibble of a byte. -/
def highNibble (d : Byte) : BitVec 4 := d.extractLsb' 4 4

/-- `((d << 8) | shadow) & 0x1FFF` (43_register_decode.md R219). -/
def scrollOf (d shadow : Byte) : BitVec 13 := (d ++ shadow).extractLsb' 0 13

/-- `{d[6:0], latch}`: a colour-table entry (42_color_table.md R193). -/
def colourOf (d latch : Byte) : Colour := d.extractLsb' 0 7 ++ latch

/-- A colour-table entry's low byte (42_color_table.md R194). -/
def colourLow (c : Colour) : Byte := c.extractLsb' 0 8

/-- A colour-table entry's high byte, bit 7 reading 0 (42_color_table.md R194). -/
def colourHigh (c : Colour) : Byte := 0#1 ++ c.extractLsb' 8 7

/-- `{a[15:8], d}` (41_video_memory.md R166). -/
def withLowByte (a : BitVec 16) (d : Byte) : BitVec 16 := a.extractLsb' 8 8 ++ d

/-- `{d, a[7:0]}` (41_video_memory.md R167). -/
def withHighByte (a : BitVec 16) (d : Byte) : BitVec 16 := d ++ a.extractLsb' 0 8

/-- `Inc(c)` (41_video_memory.md R163): codes 2 and 3 both give 128. -/
def incOf (c : BitVec 2) : BitVec 16 :=
  match c.toNat with
  | 0 => 1
  | 1 => 32
  | _ => 128

/-- `Remap(a, m)` (41_video_memory.md R160), on unbounded naturals (00_scope.md R10). -/
def remap (f : RemapFormula) (a : Nat) (m : BitVec 2) : Nat :=
  match m.toNat, f with
  | 0, _ => a
  | 1, .rotate => (a &&& 0xFF00) ||| ((a &&& 0x001F) <<< 3) ||| ((a &&& 0x00E0) >>> 5)
  | 1, .asWritten => (a &&& 0xFF00) ||| ((a &&& 0x001F) <<< 3) ||| ((a &&& 0x00E0) <<< 5)
  | 2, .rotate => (a &&& 0xFE00) ||| ((a &&& 0x003F) <<< 3) ||| ((a &&& 0x01C0) >>> 6)
  | 2, .asWritten => (a &&& 0xFE00) ||| ((a &&& 0x003F) <<< 3) ||| ((a &&& 0x01C0) <<< 6)
  | _, .rotate => (a &&& 0xFC00) ||| ((a &&& 0x007F) <<< 3) ||| ((a &&& 0x0380) >>> 7)
  | _, .asWritten => (a &&& 0xFC00) ||| ((a &&& 0x007F) <<< 3) ||| ((a &&& 0x0380) <<< 7)

/-- `WordIndex(r)` (20_memory.md R62): `none` where it raises AddressingInvariantViolation with info
`("vram-word", r)`. -/
def wordIndex (a15 : VramA15) (r : Nat) : Option Nat :=
  if 0xFFFF < r then none
  else
    match a15 with
    | .mirror => some (r &&& 0x7FFF)
    | .fault => if 0x8000 ≤ r then none else some r

/-- The two halves of a VRAM word (20_memory.md R61, 41_video_memory.md R164). -/
inductive Half where
  | low
  | high
  deriving DecidableEq, Repr

/-- Byte `2*w` is the low half of word `w`, byte `2*w + 1` its high half (20_memory.md R61). -/
def Half.byteIndex (h : Half) (w : Nat) : Nat :=
  match h with
  | .low => 2 * w
  | .high => 2 * w + 1

/-- The half that `vmTriggerHigh` names (10_state.md R31). -/
def triggerHalf (triggerHigh : Bool) : Half := if triggerHigh then .high else .low

/-- `e(v) = (v << 3) | (v >> 2)` (42_color_table.md R190). -/
def expandChannel (v : BitVec 5) : Byte := (v.setWidth 8 <<< 3) ||| (v.setWidth 8 >>> 2)

/-- `Expand(c)` (42_color_table.md R190): red `[4:0]`, green `[9:5]`, blue `[14:10]` (R191), alpha 255. -/
def expand (c : Colour) : Pixel :=
  expandChannel (c.extractLsb' 0 5) ++ expandChannel (c.extractLsb' 5 5) ++ expandChannel (c.extractLsb' 10 5) ++ 255#8

/-- A latched counter's byte at a read-back phase (43_register_decode.md R230): the low byte, then bit 8 alone. -/
def counterByte (c : BitVec 9) (phase : Bool) : Byte :=
  if phase then (c.extractLsb' 8 1).setWidth 8 else c.extractLsb' 0 8

end Sys2Proof.Machine
end

