-- ==== Sys2Proof/Machine/Flags.lean ====
section
/-! DEFINITION. The status flags (10_state.md R41): each change a rule makes to one, and the status bytes that show
them. -/

namespace Sys2Proof.Machine

/-- `S.inHBlank <- b` (40_timing.md R124, R125). -/
def Timing.withHBlank (t : Timing) (b : Bool) : Timing := { t with inHBlank := b }

/-- `S.inVBlank <- b` (40_timing.md R130, R131). -/
def Timing.withVBlank (t : Timing) (b : Bool) : Timing := { t with inVBlank := b }

/-- `S.frameReady <- b` (40_timing.md R131, R134). -/
def Timing.withFrameReady (t : Timing) (b : Bool) : Timing := { t with frameReady := b }

/-- Copy the counters and set `latchFlag` (43_register_decode.md R229); the phases stay. -/
def Latch.take (l : Latch) (h v : Nat) : Latch :=
  { l with latchedH := BitVec.ofNat 9 h, latchedV := BitVec.ofNat 9 v, latchFlag := true }

/-- Clear `latchFlag` and both phases (43_register_decode.md R233). -/
def Latch.acknowledge (l : Latch) : Latch := { l with latchFlag := false, ophctPhase := false, opvctPhase := false }

/-- Toggle `ophctPhase` (43_register_decode.md R230). -/
def Latch.toggleH (l : Latch) : Latch := { l with ophctPhase := !l.ophctPhase }

/-- Toggle `opvctPhase` (43_register_decode.md R231). -/
def Latch.toggleV (l : Latch) : Latch := { l with opvctPhase := !l.opvctPhase }

/-- The second access of a pair: the address advances mod 256 and the phase returns to 0
(42_color_table.md R193, R194). -/
def PaletteCursor.secondAccess (c : PaletteCursor) : PaletteCursor := { c with addr := c.addr + 1, phase := false }

/-- STAT77's byte (43_register_decode.md R232). Bits 5 and 4 read 0: log 19. -/
def stat77Byte (o : ObjInputs) (version : BitVec 4) : Byte :=
  BitVec.ofBool o.timeOver ++ BitVec.ofBool o.rangeOver ++ 0#2 ++ version

/-- STAT78's byte (43_register_decode.md R233). Bits 7 and 5 read 0: log 19. -/
def stat78Byte (latchFlag region : Bool) (version : BitVec 4) : Byte :=
  0#1 ++ BitVec.ofBool latchFlag ++ 0#1 ++ BitVec.ofBool region ++ version

end Sys2Proof.Machine
end

