-- ==== Sys2Proof/Machine/Ops.lean ====
section
/-! DEFINITION. The named operations over the state: the primitives of 00_scope.md R11, raising a fault and the halt
it leaves (60_exceptions.md R313), and the environment's side. -/

namespace Sys2Proof.Machine

/-- Do `f` unless the block is halted (60_exceptions.md R313, point 3): after a raise nothing more happens. Every
transaction starts with this, and it stands between any two parts of one where the first may raise. -/
def State.live (s : State) (f : State → State) : State :=
  match s.fault with
  | none => f s
  | some _ => s

/-- A transaction that always has a step: `f`, or nothing on a halted block. -/
def State.perform (s : State) (f : State → State) : Answer := .next (s.live f)

/-- `raise AddressingInvariantViolation(("vram-word", r))` (60_exceptions.md R311, R313): the record is set and what
was done before stays. The block has no vector, no saved state and no return from it (R319, R320). -/
def State.raise (s : State) (r : Nat) : State :=
  { s with fault := some { code := .addressingInvariantViolation, info := .vramWord r } }

/-- The numbers of 60_exceptions.md R314. -/
def FaultCode.number : FaultCode → Nat
  | .configurationError => 1
  | .addressingInvariantViolation => 2
  | .unmappedRegister => 3

/-- `emit E` (00_scope.md R11). -/
def State.emit (s : State) (e : Event) : State := { s with history := s.history ++ [e] }

/-- Return a value to the agent that asked. Log 2. -/
def State.reply (s : State) (r : Reply) : State := { s with replies := s.replies ++ [r] }

/-- `emit Unmapped(dir, a)` where the event is logged (00_scope.md R12). Log 11. -/
def State.logUnmapped (s : State) (dir : BusDir) (a : BusAddr) : State :=
  if s.cfg.logUnmapped then s.emit (.unmapped dir a) else s

/-- `VramRead8(i)` (00_scope.md R11). -/
def State.vramRead8 (s : State) (i : Nat) : Byte := s.vram.read i

/-- `VramWrite8(i, v)` (00_scope.md R11). -/
def State.vramWrite8 (s : State) (i : Nat) (v : Byte) : State := { s with vram := s.vram.write i v }

/-- Word `w` of video memory, little-endian (20_memory.md R61). -/
def State.vramWord (s : State) (w : Nat) : BitVec 16 := s.vramRead8 (2 * w + 1) ++ s.vramRead8 (2 * w)

/-- `CgRead(i)` (00_scope.md R11). -/
def State.cgRead (s : State) (i : Nat) : Colour := s.cg.read i

/-- `CgWrite(i, c)` (00_scope.md R11). -/
def State.cgWrite (s : State) (i : Nat) (c : Colour) : State := { s with cg := s.cg.write i c }

/-- `FbWrite(row, col, p)`: the work buffer (00_scope.md R11). -/
def State.fbWrite (s : State) (row col : Nat) (p : Pixel) : State := { s with work := s.work.write row col p }

/-- `FbRead(row, col)`: the display buffer (00_scope.md R11). -/
def State.fbRead (s : State) (row col : Nat) : Pixel := s.display.read row col

/-- Change `S.bg[n]`. -/
def State.setBg (s : State) (n : BgIdx) (r : Background) : State := { s with bg := s.bg.set n r }

/-- The word address the cursor's data ports reach (20_memory.md R63). -/
def State.cursorWord (s : State) : Nat := remap s.cfg.remapFormula s.vm.addr.toNat s.vm.remap

/-- `CursorAdvance()` after an access of half `h`, if `h` is the trigger half (41_video_memory.md R164). The address
wraps at 2^16. -/
def State.advanceAfter (s : State) (h : Half) : State :=
  if h = triggerHalf s.vm.triggerHigh then { s with vm := { s.vm with addr := s.vm.addr + incOf s.vm.incCode } } else s

/-- Append to the draws to come one that is made of these words. A word other than a BUSW is refused
(30_encoding.md R99, 60_exceptions.md R315). Log 7. -/
def State.offerDraw (s : State) (ws : List Word) : Answer :=
  match decodeDraw ws with
  | .ok d => .next { s with draws := s.draws ++ [d] }
  | .error e => .refused (.word e)

end Sys2Proof.Machine
end

