-- ==== Sys2Proof/Machine/LogicalReset.lean ====
section
/-! DEFINITION. The logical reset (70_reset_and_hazards.md R341). -/

namespace Sys2Proof.Machine

/-- Every field of 10_state.md R42 other than the fault to its reset value, the history emptied. The parameters and
the environment's side stay (70_reset_and_hazards.md R343). Log 16. -/
def logicalReset (s : State) : State :=
  { State.initial s.cfg with
    fault := s.fault
    input := s.input
    draws := s.draws
    consumer := s.consumer
    replies := s.replies }

/-- RST: 70_reset_and_hazards.md R341. It emits no event and does not clear a fault. -/
def execRst (s : State) : Answer := s.perform logicalReset

end Sys2Proof.Machine
end

