-- ==== Sys2Proof/Machine/StatusReads.lean ====
section
/-! DEFINITION. The counter latch, the status reads, the sprite-status input and the unmapped read
(43_register_decode.md §6, §7). -/

namespace Sys2Proof.Machine

/-- R_SLHV (43_register_decode.md R229). -/
def readSlhv (s : State) : State :=
  { s.reply (.byte s.cfg.openBus) with latch := s.latch.take s.timing.hCounter s.timing.vCounter }

/-- R_OPHCT (43_register_decode.md R230). -/
def readOphct (s : State) : State :=
  { s.reply (.byte (counterByte s.latch.latchedH s.latch.ophctPhase)) with latch := s.latch.toggleH }

/-- R_OPVCT (43_register_decode.md R231). -/
def readOpvct (s : State) : State :=
  { s.reply (.byte (counterByte s.latch.latchedV s.latch.opvctPhase)) with latch := s.latch.toggleV }

/-- R_STAT77 (43_register_decode.md R232). -/
def readStat77 (s : State) : State := s.reply (.byte (stat77Byte s.obj s.cfg.ppu1Version))

/-- R_STAT78 (43_register_decode.md R233): bit 6 is the flag before the clear. -/
def readStat78 (s : State) : State :=
  { s.reply (.byte (stat78Byte s.latch.latchFlag s.cfg.desc.region s.cfg.ppu2Version)) with
    latch := s.latch.acknowledge }

/-- R_OPEN (43_register_decode.md R236). -/
def readUnmapped (a : BusAddr) (s : State) : State := (s.reply (.byte s.cfg.openBus)).logUnmapped .read a

/-- SETOBJ (43_register_decode.md R234). -/
def loadObjInputs (timeOver rangeOver : Bool) (s : State) : State :=
  { s with obj := { timeOver := timeOver, rangeOver := rangeOver } }

/-- R_SLHV: 43_register_decode.md R229. -/
def execRSlhv (s : State) : Answer := s.perform readSlhv

/-- R_OPHCT: 43_register_decode.md R230. -/
def execROphct (s : State) : Answer := s.perform readOphct

/-- R_OPVCT: 43_register_decode.md R231. -/
def execROpvct (s : State) : Answer := s.perform readOpvct

/-- R_STAT77: 43_register_decode.md R232. -/
def execRStat77 (s : State) : Answer := s.perform readStat77

/-- R_STAT78: 43_register_decode.md R233. -/
def execRStat78 (s : State) : Answer := s.perform readStat78

/-- R_OPEN: 43_register_decode.md R236. -/
def execROpen (a : BusAddr) (s : State) : Answer := s.perform (readUnmapped a)

/-- SETOBJ: 43_register_decode.md R234. -/
def execSetobj (timeOver rangeOver : Bool) (s : State) : Answer := s.perform (loadObjInputs timeOver rangeOver)

end Sys2Proof.Machine
end

