-- ==== Sys2Proof/Machine/ColorTable.lean ====
section
/-! DEFINITION. The colour-table ports (42_color_table.md). -/

namespace Sys2Proof.Machine

/-- W_CGADD (42_color_table.md R192): a half-written pair is abandoned, its byte staying in the latch. -/
def writeCgadd (d : Byte) (s : State) : State := { s with cgc := { s.cgc with addr := d, phase := false } }

/-- W_CGDATA (42_color_table.md R193). -/
def writeCgdata (d : Byte) (s : State) : State :=
  if s.cgc.phase then
    let s' := s.cgWrite s.cgc.addr.toNat (colourOf d s.cgc.latch)
    { s' with cgc := s.cgc.secondAccess }
  else { s with cgc := { s.cgc with latch := d, phase := true } }

/-- R_RDCGRAM (42_color_table.md R194). -/
def readRdcgram (s : State) : State :=
  let c := s.cgRead s.cgc.addr.toNat
  if s.cgc.phase then
    let s' := s.reply (.byte (colourHigh c))
    { s' with cgc := s.cgc.secondAccess }
  else
    let s' := s.reply (.byte (colourLow c))
    { s' with cgc := { s.cgc with phase := true } }

/-- W_CGADD: 42_color_table.md R192. -/
def execWCgadd (d : Byte) (s : State) : Answer := s.perform (writeCgadd d)

/-- W_CGDATA: 42_color_table.md R193. -/
def execWCgdata (d : Byte) (s : State) : Answer := s.perform (writeCgdata d)

/-- R_RDCGRAM: 42_color_table.md R194. -/
def execRRdcgram (s : State) : Answer := s.perform readRdcgram

end Sys2Proof.Machine
end

