-- ==== Sys2Proof/Machine/Display.lean ====
section
/-! DEFINITION. The display, mode, base, scroll and layer-enable ports (43_register_decode.md §2 to §5), and the
unmapped write. `write<Port>` is the port's write rule, which a BUSW and a DMA-hook draw both run
(40_timing.md R127); `execW<Port>` is the transaction. -/

namespace Sys2Proof.Machine

/-- W_INIDISP (43_register_decode.md R211). -/
def writeInidisp (d : Byte) (s : State) : State :=
  { s with disp := { s.disp with forceBlank := d.getLsbD 7, brightness := lowNibble d } }

/-- W_BGMODE (43_register_decode.md R212). -/
def writeBgmode (d : Byte) (s : State) : State :=
  { s with disp := { s.disp with bgMode := d.extractLsb' 0 3, bg3Priority := d.getLsbD 3 } }

/-- `S.bg[n].tilemapBase <- d[7:2] << 10` (43_register_decode.md R213 to R216). -/
def writeTilemapBase (n : BgIdx) (d : Byte) (s : State) : State :=
  s.setBg n { s.bg.get n with tilemapBase := tilemapBaseOf d }

/-- `S.bg[n].charBase <- nibble << 12` (43_register_decode.md R217, R218). -/
def writeCharBase (n : BgIdx) (nibble : BitVec 4) (s : State) : State :=
  s.setBg n { s.bg.get n with charBase := charBaseOf nibble }

/-- The two scroll axes of 43_register_decode.md R219. -/
inductive Axis where
  | h
  | v
  deriving DecidableEq, Repr

/-- `ScrollWrite(n, axis, d)` (43_register_decode.md R219). -/
def scrollWrite (n : BgIdx) (axis : Axis) (d : Byte) (s : State) : State :=
  let b := s.bg.get n
  match axis with
  | .h => s.setBg n { b with hScroll := scrollOf d b.shadow, shadow := d }
  | .v => s.setBg n { b with vScroll := scrollOf d b.shadow, shadow := d }

/-- W_TM (43_register_decode.md R228). -/
def writeTm (d : Byte) (s : State) : State :=
  { s with
    bg :=
      { bg1 := { s.bg.bg1 with enable := d.getLsbD 0 }
        bg2 := { s.bg.bg2 with enable := d.getLsbD 1 }
        bg3 := { s.bg.bg3 with enable := d.getLsbD 2 }
        bg4 := { s.bg.bg4 with enable := d.getLsbD 3 } }
    disp := { s.disp with objMainEnable := d.getLsbD 4 } }

/-- W_NOP (43_register_decode.md R235): no state changes, but for the optional event. -/
def writeUnmapped (a : BusAddr) (s : State) : State := s.logUnmapped .write a

/-- W_INIDISP: 43_register_decode.md R211. -/
def execWInidisp (d : Byte) (s : State) : Answer := s.perform (writeInidisp d)

/-- W_BGMODE: 43_register_decode.md R212. -/
def execWBgmode (d : Byte) (s : State) : Answer := s.perform (writeBgmode d)

/-- W_BG1SC: 43_register_decode.md R213. -/
def execWBg1sc (d : Byte) (s : State) : Answer := s.perform (writeTilemapBase .bg1 d)

/-- W_BG2SC: 43_register_decode.md R214. -/
def execWBg2sc (d : Byte) (s : State) : Answer := s.perform (writeTilemapBase .bg2 d)

/-- W_BG3SC: 43_register_decode.md R215. -/
def execWBg3sc (d : Byte) (s : State) : Answer := s.perform (writeTilemapBase .bg3 d)

/-- W_BG4SC: 43_register_decode.md R216. -/
def execWBg4sc (d : Byte) (s : State) : Answer := s.perform (writeTilemapBase .bg4 d)

/-- The write rule of W_BG12NBA (43_register_decode.md R217). -/
def writeBg12nba (d : Byte) (s : State) : State := writeCharBase .bg2 (highNibble d) (writeCharBase .bg1 (lowNibble d) s)

/-- The write rule of W_BG34NBA (43_register_decode.md R218). -/
def writeBg34nba (d : Byte) (s : State) : State := writeCharBase .bg4 (highNibble d) (writeCharBase .bg3 (lowNibble d) s)

/-- W_BG12NBA: 43_register_decode.md R217. -/
def execWBg12nba (d : Byte) (s : State) : Answer := s.perform (writeBg12nba d)

/-- W_BG34NBA: 43_register_decode.md R218. -/
def execWBg34nba (d : Byte) (s : State) : Answer := s.perform (writeBg34nba d)

/-- W_BG1HOFS: 43_register_decode.md R220. -/
def execWBg1hofs (d : Byte) (s : State) : Answer := s.perform (scrollWrite .bg1 .h d)

/-- W_BG1VOFS: 43_register_decode.md R221. -/
def execWBg1vofs (d : Byte) (s : State) : Answer := s.perform (scrollWrite .bg1 .v d)

/-- W_BG2HOFS: 43_register_decode.md R222. -/
def execWBg2hofs (d : Byte) (s : State) : Answer := s.perform (scrollWrite .bg2 .h d)

/-- W_BG2VOFS: 43_register_decode.md R223. -/
def execWBg2vofs (d : Byte) (s : State) : Answer := s.perform (scrollWrite .bg2 .v d)

/-- W_BG3HOFS: 43_register_decode.md R224. -/
def execWBg3hofs (d : Byte) (s : State) : Answer := s.perform (scrollWrite .bg3 .h d)

/-- W_BG3VOFS: 43_register_decode.md R225. -/
def execWBg3vofs (d : Byte) (s : State) : Answer := s.perform (scrollWrite .bg3 .v d)

/-- W_BG4HOFS: 43_register_decode.md R226. -/
def execWBg4hofs (d : Byte) (s : State) : Answer := s.perform (scrollWrite .bg4 .h d)

/-- W_BG4VOFS: 43_register_decode.md R227. -/
def execWBg4vofs (d : Byte) (s : State) : Answer := s.perform (scrollWrite .bg4 .v d)

/-- W_TM: 43_register_decode.md R228. -/
def execWTm (d : Byte) (s : State) : Answer := s.perform (writeTm d)

/-- W_NOP: 43_register_decode.md R235. The data byte is dropped. -/
def execWNop (a : BusAddr) (_d : Byte) (s : State) : Answer := s.perform (writeUnmapped a)

end Sys2Proof.Machine
end

