-- ==== Sys2Proof/Machine/VideoMemory.lean ====
section
/-! DEFINITION. The video-memory ports (41_video_memory.md). No read is buffered or prefetched (R172). -/

namespace Sys2Proof.Machine

/-- W_VMAIN (41_video_memory.md R165). -/
def writeVmain (d : Byte) (s : State) : State :=
  { s with vm := { s.vm with incCode := d.extractLsb' 0 2, remap := d.extractLsb' 2 2, triggerHigh := d.getLsbD 7 } }

/-- W_VMADDL (41_video_memory.md R166). -/
def writeVmaddl (d : Byte) (s : State) : State := { s with vm := { s.vm with addr := withLowByte s.vm.addr d } }

/-- W_VMADDH (41_video_memory.md R167). -/
def writeVmaddh (d : Byte) (s : State) : State := { s with vm := { s.vm with addr := withHighByte s.vm.addr d } }

/-- A data write to half `h` of the remapped word (41_video_memory.md R168, R169). On the fault neither the write nor
the advance happens. -/
def writeVmdata (h : Half) (d : Byte) (s : State) : State :=
  match wordIndex s.cfg.vramA15 s.cursorWord with
  | none => s.raise s.cursorWord
  | some w => (s.vramWrite8 (h.byteIndex w) d).advanceAfter h

/-- A data read of half `h` of the remapped word (41_video_memory.md R170, R171). On the fault no value is returned and
nothing advances. -/
def readVmdata (h : Half) (s : State) : State :=
  match wordIndex s.cfg.vramA15 s.cursorWord with
  | none => s.raise s.cursorWord
  | some w => (s.reply (.byte (s.vramRead8 (h.byteIndex w)))).advanceAfter h

/-- W_VMAIN: 41_video_memory.md R165. -/
def execWVmain (d : Byte) (s : State) : Answer := s.perform (writeVmain d)

/-- W_VMADDL: 41_video_memory.md R166. -/
def execWVmaddl (d : Byte) (s : State) : Answer := s.perform (writeVmaddl d)

/-- W_VMADDH: 41_video_memory.md R167. -/
def execWVmaddh (d : Byte) (s : State) : Answer := s.perform (writeVmaddh d)

/-- W_VMDATAL: 41_video_memory.md R168. -/
def execWVmdatal (d : Byte) (s : State) : Answer := s.perform (writeVmdata .low d)

/-- W_VMDATAH: 41_video_memory.md R169. -/
def execWVmdatah (d : Byte) (s : State) : Answer := s.perform (writeVmdata .high d)

/-- R_RDVRAML: 41_video_memory.md R170. -/
def execRRdvraml (s : State) : Answer := s.perform (readVmdata .low)

/-- R_RDVRAMH: 41_video_memory.md R171. -/
def execRRdvramh (s : State) : Answer := s.perform (readVmdata .high)

end Sys2Proof.Machine
end

