-- ==== Sys2Proof/Machine/BusWrite.lean ====
section
/-! DEFINITION. The write table run by address: `BusWrite(a, d)` of 40_timing.md R135, which a DMA-hook draw performs. -/

namespace Sys2Proof.Machine

/-- The write rule of a port (43_register_decode.md R210). -/
def WPort.run (p : WPort) (d : Byte) (s : State) : State :=
  match p with
  | .inidisp => writeInidisp d s
  | .bgmode => writeBgmode d s
  | .bg1sc => writeTilemapBase .bg1 d s
  | .bg2sc => writeTilemapBase .bg2 d s
  | .bg3sc => writeTilemapBase .bg3 d s
  | .bg4sc => writeTilemapBase .bg4 d s
  | .bg12nba => writeBg12nba d s
  | .bg34nba => writeBg34nba d s
  | .bg1hofs => scrollWrite .bg1 .h d s
  | .bg1vofs => scrollWrite .bg1 .v d s
  | .bg2hofs => scrollWrite .bg2 .h d s
  | .bg2vofs => scrollWrite .bg2 .v d s
  | .bg3hofs => scrollWrite .bg3 .h d s
  | .bg3vofs => scrollWrite .bg3 .v d s
  | .bg4hofs => scrollWrite .bg4 .h d s
  | .bg4vofs => scrollWrite .bg4 .v d s
  | .vmain => writeVmain d s
  | .vmaddl => writeVmaddl d s
  | .vmaddh => writeVmaddh d s
  | .vmdatal => writeVmdata .low d s
  | .vmdatah => writeVmdata .high d s
  | .cgadd => writeCgadd d s
  | .cgdata => writeCgdata d s
  | .tm => writeTm d s

/-- `BusWrite(a, d)` (40_timing.md R127, R135): the BUSW transaction of the pair, with every rule of files 41 to 43. -/
def busWrite (a : BusAddr) (d : Byte) (s : State) : State :=
  match WPort.ofAddr a with
  | some p => WPort.run p d s
  | none => writeUnmapped a s

end Sys2Proof.Machine
end

