-- ==== Sys2Proof/Machine/Compositor.lean ====
section
/-! DEFINITION. The scanline compositor (44_compositor.md): the internal step `Compose(line)`. Brightness, the mode
fields and a tile's priority bit change no pixel (R273, R274), and there is no debug fallback (R275). -/

namespace Sys2Proof.Machine

/-- What a layer gives one pixel: a fetch that raises at word address `r`, a transparent pixel, or an opaque one. -/
inductive LayerPixel where
  | raises (r : Nat)
  | transparent
  | drawn (p : Pixel)
  deriving DecidableEq, Repr

/-- The word address of the tilemap entry for map coordinates `X`, `Y` (44_compositor.md R265). -/
def tilemapAddr (b : Background) (X Y : Nat) : Nat := b.tilemapBase.toNat + (Y >>> 3) * 32 + (X >>> 3)

/-- A coordinate inside the tile, after the flip (44_compositor.md R267). -/
def flipped (flip : Bool) (p : Nat) : Nat := if flip then 7 - p else p

/-- The word address of planes 0 and 1 of a tile's row `fy` (44_compositor.md R268). Planes 2 and 3 are 8 words on. -/
def tileRowAddr (b : Background) (entry : BitVec 16) (fy : Nat) : Nat :=
  b.charBase.toNat + (entry.extractLsb' 0 10).toNat * 16 + fy

/-- `ci` (44_compositor.md R269): bit `b` of each plane byte, plane `k` with weight 2^k. -/
def colourIndex (planes01 planes23 : BitVec 16) (b : Nat) : Nat :=
  (planes01.getLsbD b).toNat + 2 * (planes01.getLsbD (8 + b)).toNat
    + 4 * (planes23.getLsbD b).toNat + 8 * (planes23.getLsbD (8 + b)).toNat

/-- What layer `n` gives column `x` of row `row` (44_compositor.md R264 to R270), the fetches in the order of R268. -/
def layerPixel (s : State) (n : BgIdx) (row x : Nat) : LayerPixel :=
  let b := s.bg.get n
  let X := (x + b.hScroll.toNat) % 256
  let Y := (row + b.vScroll.toNat) % 256
  match wordIndex s.cfg.vramA15 (tilemapAddr b X Y) with
  | none => .raises (tilemapAddr b X Y)
  | some wi =>
    let entry := s.vramWord wi
    let fx := flipped (entry.getLsbD 14) (X &&& 7)
    let cw := tileRowAddr b entry (flipped (entry.getLsbD 15) (Y &&& 7))
    match wordIndex s.cfg.vramA15 cw with
    | none => .raises cw
    | some w1 =>
      match wordIndex s.cfg.vramA15 (cw + 8) with
      | none => .raises (cw + 8)
      | some w2 =>
        let ci := colourIndex (s.vramWord w1) (s.vramWord w2) (7 - fx)
        if ci = 0 then .transparent
        else .drawn (expand (s.cgRead ((entry.extractLsb' 10 3).toNat * 16 + ci)))

/-- Draw layer `n` at one column (44_compositor.md R270 to R272). -/
def composePixel (n : BgIdx) (row x : Nat) (s : State) : State :=
  match layerPixel s n row x with
  | .raises r => s.raise r
  | .transparent => s
  | .drawn p => s.fbWrite row x p

/-- Draw layer `n` at the columns listed, in order, up to a raise. -/
def composeColumns (n : BgIdx) (row : Nat) : List Nat → State → State
  | [], s => s
  | x :: xs, s => composeColumns n row xs (s.live (composePixel n row x))

/-- Draw the layers listed, in order, each if it is enabled (44_compositor.md R260). -/
def composeLayers (row : Nat) : List BgIdx → State → State
  | [], s => s
  | n :: ns, s =>
    composeLayers row ns
      (s.live (fun s => if (s.bg.get n).enable then composeColumns n row (List.range 256) s else s))

/-- Write one pixel to the columns listed of row `row`. -/
def fillColumns (row : Nat) (p : Pixel) : List Nat → State → State
  | [], s => s
  | x :: xs, s => fillColumns row p xs (s.fbWrite row x p)

/-- `Compose(line)` (44_compositor.md R277): the row of a visible line is `line - FAL` (R261). -/
def compose (line : Nat) (s : State) : State :=
  let row := line - s.cfg.desc.fal
  if s.disp.forceBlank then fillColumns row opaqueBlack (List.range 256) s
  else composeLayers row s.cfg.layers (fillColumns row (expand (s.cgRead 0)) (List.range 256) s)

end Sys2Proof.Machine
end

