-- ==== Sys2Proof/Machine/FrameExchange.lean ====
section
/-! DEFINITION. The frame buffer exchange (45_frame_exchange.md). -/

namespace Sys2Proof.Machine

/-- `Swap()` (45_frame_exchange.md R291): a copy, not an exchange, atomic with the count; `S.work` stays (R292). -/
def swap (s : State) : State :=
  let s' := { s with display := s.work, swapCount := s.swapCount + 1 }
  s'.emit (.swapped s'.swapCount)

/-- DREAD of a cell of the grid (45_frame_exchange.md R293): both values of the pair from one step. -/
def readDisplay (x y : Nat) (s : State) : State := s.reply (.pixel (s.fbRead y x) s.swapCount)

/-- DREAD: 45_frame_exchange.md R293. A row of 224 or more is refused (30_encoding.md R99). -/
def execDread (x y : BitVec 8) (s : State) : Answer :=
  if y.toNat < 224 then s.perform (readDisplay x.toNat y.toNat) else .refused (.word .dreadRow)

end Sys2Proof.Machine
end

