-- ==== Sys2Proof/Machine/TimingMachine.lean ====
section
/-! DEFINITION. The timing state machine (40_timing.md): the tick in the order of R135, ADV and SETIRQ. -/

namespace Sys2Proof.Machine

/-- `S.hCounter <- S.hCounter + 1` (40_timing.md R123). -/
def countDot (s : State) : State := { s with timing := { s.timing with hCounter := s.timing.hCounter + 1 } }

/-- 40_timing.md R124. -/
def activeStart (s : State) : State :=
  if s.timing.hCounter = s.cfg.desc.fad then { s with timing := s.timing.withHBlank false } else s

/-- The pairs of one draw, in list order, up to a raise (40_timing.md R127). -/
def performDraw : List (BusAddr × Byte) → State → State
  | [], s => s
  | (a, d) :: ps, s => performDraw ps (s.live (busWrite a d))

/-- The DMA hook (40_timing.md R127): the event, then the environment's draw for this call, the empty one when none is
to come. Log 7. -/
def dmaHook (line : Nat) (s : State) : State :=
  let s' := s.emit (.dmaHook line)
  match s.draws with
  | [] => s'
  | d :: ds => performDraw d { s' with draws := ds }

/-- 40_timing.md R128. -/
def renderLine (line : Nat) (s : State) : State := (compose line s).live (fun s => s.emit (.lineRendered line))

/-- The line-end dot (40_timing.md R125): the flag on every line, the hook and the compositor on a visible one (R126).
DESIGN CHOICE: a write made during a line's active dots is seen by this line's own render, as 20_memory.md R76 says, and
not first by the next visible line's, as a sentence of 70_reset_and_hazards.md R346 says. Log 23. -/
def lineEnd (s : State) : State :=
  if s.timing.hCounter = s.cfg.desc.fad + s.cfg.desc.aw then
    let s' := { s with timing := s.timing.withHBlank true }
    let line := s.timing.vCounter
    if s.cfg.desc.lineVisible line then (dmaHook line s').live (renderLine line) else s'
  else s

/-- 40_timing.md R130. -/
def visibleStart (s : State) : State :=
  if s.timing.vCounter = s.cfg.desc.fal then { s with timing := s.timing.withVBlank false } else s

/-- The frame-ready part of 40_timing.md R131, guarded by `S.frameReady`, with the swap (R132). -/
def raiseFrameReady (s : State) : State :=
  if s.timing.frameReady then s
  else
    let s' := { s with timing := s.timing.withFrameReady true }
    swap (s'.emit .frameReady)

/-- 40_timing.md R133. -/
def requestNmi (s : State) : State := if s.irq.nmiArmed then s.emit .nmiRequest else s

/-- The frame-ready line (40_timing.md R131 to R133). -/
def visibleEnd (s : State) : State :=
  if s.timing.vCounter = s.cfg.desc.fal + s.cfg.desc.ah then
    requestNmi (raiseFrameReady { s with timing := s.timing.withVBlank true })
  else s

/-- 40_timing.md R134. -/
def frameWrap (s : State) : State :=
  if s.timing.vCounter = s.cfg.desc.vTotal then
    { s with timing := { s.timing with vCounter := 0, frameReady := false } }
  else s

/-- The line-wrap dot (40_timing.md R129), with the vertical comparisons on the incremented line number. -/
def lineWrap (s : State) : State :=
  if s.timing.hCounter = s.cfg.desc.hTotal then
    frameWrap (visibleEnd (visibleStart
      { s with timing := { s.timing with hCounter := 0, vCounter := s.timing.vCounter + 1 } }))
  else s

/-- The position matches the armed target (40_timing.md R136). A vertical-only target matches at dot 0 of its line. -/
def irqMatch (i : IrqInputs) (h v : Nat) : Bool :=
  match i.irqMode.toNat with
  | 0 => false
  | 1 => decide (h = i.hTarget.toNat)
  | 2 => decide (v = i.vTarget.toNat ∧ h = 0)
  | _ => decide (h = i.hTarget.toNat ∧ v = i.vTarget.toNat)

/-- `IrqCheck()` (40_timing.md R136). -/
def irqCheck (s : State) : State :=
  if irqMatch s.irq s.timing.hCounter s.timing.vCounter then
    s.emit (.irqRequest s.timing.hCounter s.timing.vCounter)
  else s

/-- `Tick()` (40_timing.md R135). Only the line end can raise; after a raise no later part happens. -/
def tick (s : State) : State := (lineEnd (activeStart (countDot s))).live (fun s => irqCheck (lineWrap s))

/-- The consumer's reads listed, in order. -/
def readDisplays : List ConsumerRead → State → State
  | [], s => s
  | r :: rs, s => readDisplays rs (readDisplay r.x.val r.y.val s)

/-- The DREADs the consumer makes before the tick about to come (20_memory.md R68, R73). Log 8. -/
def consumerTurn (s : State) : State :=
  match s.consumer with
  | [] => s
  | rs :: rest => readDisplays rs { s with consumer := rest }

/-- One round of the advance loop (40_timing.md R122): the consumer's turn between ticks, then the tick. -/
def advanceOnce (s : State) : State :=
  let s' := consumerTurn s
  tick { s' with timing := { s'.timing with acc := s'.timing.acc - s'.cfg.desc.tpd } }

/-- The loop's test (40_timing.md R122): a round runs while nothing has raised and the accumulator holds a dot. -/
def advanceRound (s : State) : State :=
  s.live (fun s => if s.cfg.desc.tpd ≤ s.timing.acc then advanceOnce s else s)

/-- The loop of 40_timing.md R122, for so many rounds; a round past the loop's end changes nothing. -/
def advanceLoop : Nat → State → State
  | 0, s => s
  | k + 1, s => advanceLoop k (advanceRound s)

/-- `Advance(n)` (40_timing.md R122). The accumulator holds `acc / TPD` dots, so that many rounds are the whole loop
(70_reset_and_hazards.md R354). Log 13. -/
def advance (n : Nat) (s : State) : State :=
  let total := s.timing.acc + n
  advanceLoop (total / s.cfg.desc.tpd) { s with timing := { s.timing with acc := total } }

/-- SETIRQ (40_timing.md R140): the new values take effect from the next tick. -/
def loadIrqInputs (nmiArmed : Bool) (irqMode : BitVec 2) (vTarget hTarget : BitVec 9) (s : State) : State :=
  { s with irq := { nmiArmed := nmiArmed, irqMode := irqMode, hTarget := hTarget, vTarget := vTarget } }

/-- ADV: 40_timing.md R121. -/
def execAdv (n : BitVec 28) (s : State) : Answer := s.perform (advance n.toNat)

/-- SETIRQ: 40_timing.md R140. -/
def execSetirq (nmiArmed : Bool) (irqMode : BitVec 2) (vTarget hTarget : BitVec 9) (s : State) : Answer :=
  s.perform (loadIrqInputs nmiArmed irqMode vTarget hTarget)

end Sys2Proof.Machine
end

