-- ==== Sys2Proof/Machine/Dispatch.lean ====
section
/-! DEFINITION. One arm for each row of spec/opcode_table.json. -/

namespace Sys2Proof.Machine

def exec (i : Instr) (s : State) : Host.Outcome State Fault Refusal :=
  match i with
  | .wInidisp d => Sys2Proof.Machine.execWInidisp d s
  | .wBgmode d => Sys2Proof.Machine.execWBgmode d s
  | .wBg1sc d => Sys2Proof.Machine.execWBg1sc d s
  | .wBg2sc d => Sys2Proof.Machine.execWBg2sc d s
  | .wBg3sc d => Sys2Proof.Machine.execWBg3sc d s
  | .wBg4sc d => Sys2Proof.Machine.execWBg4sc d s
  | .wBg12nba d => Sys2Proof.Machine.execWBg12nba d s
  | .wBg34nba d => Sys2Proof.Machine.execWBg34nba d s
  | .wBg1hofs d => Sys2Proof.Machine.execWBg1hofs d s
  | .wBg1vofs d => Sys2Proof.Machine.execWBg1vofs d s
  | .wBg2hofs d => Sys2Proof.Machine.execWBg2hofs d s
  | .wBg2vofs d => Sys2Proof.Machine.execWBg2vofs d s
  | .wBg3hofs d => Sys2Proof.Machine.execWBg3hofs d s
  | .wBg3vofs d => Sys2Proof.Machine.execWBg3vofs d s
  | .wBg4hofs d => Sys2Proof.Machine.execWBg4hofs d s
  | .wBg4vofs d => Sys2Proof.Machine.execWBg4vofs d s
  | .wVmain d => Sys2Proof.Machine.execWVmain d s
  | .wVmaddl d => Sys2Proof.Machine.execWVmaddl d s
  | .wVmaddh d => Sys2Proof.Machine.execWVmaddh d s
  | .wVmdatal d => Sys2Proof.Machine.execWVmdatal d s
  | .wVmdatah d => Sys2Proof.Machine.execWVmdatah d s
  | .wCgadd d => Sys2Proof.Machine.execWCgadd d s
  | .wCgdata d => Sys2Proof.Machine.execWCgdata d s
  | .wTm d => Sys2Proof.Machine.execWTm d s
  | .wNop a d => Sys2Proof.Machine.execWNop a d s
  | .rSlhv => Sys2Proof.Machine.execRSlhv s
  | .rRdvraml => Sys2Proof.Machine.execRRdvraml s
  | .rRdvramh => Sys2Proof.Machine.execRRdvramh s
  | .rRdcgram => Sys2Proof.Machine.execRRdcgram s
  | .rOphct => Sys2Proof.Machine.execROphct s
  | .rOpvct => Sys2Proof.Machine.execROpvct s
  | .rStat77 => Sys2Proof.Machine.execRStat77 s
  | .rStat78 => Sys2Proof.Machine.execRStat78 s
  | .rOpen a => Sys2Proof.Machine.execROpen a s
  | .adv n => Sys2Proof.Machine.execAdv n s
  | .rst => Sys2Proof.Machine.execRst s
  | .setirq nmi mode v h => Sys2Proof.Machine.execSetirq nmi mode v h s
  | .setobj t r => Sys2Proof.Machine.execSetobj t r s
  | .dread x y => Sys2Proof.Machine.execDread x y s

end Sys2Proof.Machine
end

