-- ==== Sys2Proof/Machine/Step.lean ====
section
/-! DEFINITION. One step: the next transaction of the run (70_reset_and_hazards.md R354). The block has no program
counter and fetches nothing from memory (10_state.md R21); its instructions are the words its environment issues. -/

namespace Sys2Proof.Machine

/-- Take the next word from the environment and run what it spells. A word that spells nothing has no step
(60_exceptions.md R315; log 10). With no word to come the block is idle and its state holds (60_exceptions.md R326;
log 15). -/
def step (s : State) : Host.Outcome State Fault Refusal :=
  match s.input with
  | [] => .next s
  | w :: rest =>
    match decode w with
    | .error e => .refused (.word e)
    | .ok i => exec i { s with input := rest }

/-- `s` with the word as the next one the environment issues. Log 1, log 17. -/
def State.withFetchWord (s : State) (_nbits w : Nat) : State := { s with input := BitVec.ofNat 32 w :: s.input }

end Sys2Proof.Machine
end

