-- ==== Sys2Proof/Machine/Pseudo.lean ====
section
/-! DEFINITION. The pseudo-instructions of 30_encoding.md R106, each the list of the instructions it expands to. -/

namespace Sys2Proof.Machine

/-- The low byte of a 16-bit value. -/
def lowByte (v : BitVec 16) : Byte := v.extractLsb' 0 8

/-- The high byte of a 16-bit value. -/
def highByte (v : BitVec 16) : Byte := v.extractLsb' 8 8

/-- The scroll port of a layer and an axis (10_state.md R22). -/
def scrollPort (n : BgIdx) (axis : Axis) : WPort :=
  match n, axis with
  | .bg1, .h => .bg1hofs
  | .bg1, .v => .bg1vofs
  | .bg2, .h => .bg2hofs
  | .bg2, .v => .bg2vofs
  | .bg3, .h => .bg3hofs
  | .bg3, .v => .bg3vofs
  | .bg4, .h => .bg4hofs
  | .bg4, .v => .bg4vofs

/-- `vaddr V`. -/
def pseudoVaddr (v : BitVec 16) : List Instr := [.wVmaddl (lowByte v), .wVmaddh (highByte v)]

/-- `vword V`. -/
def pseudoVword (v : BitVec 16) : List Instr := [.wVmdatal (lowByte v), .wVmdatah (highByte v)]

/-- `vmain inc=I, remap=M, high=H`. -/
def pseudoVmain (inc remapCode : BitVec 2) (high : Bool) : List Instr :=
  [.wVmain (BitVec.ofBool high ++ 0#3 ++ remapCode ++ inc)]

/-- `cgaddr I`. -/
def pseudoCgaddr (i : Byte) : List Instr := [.wCgadd i]

/-- `cgword C`. -/
def pseudoCgword (c : Colour) : List Instr := [.wCgdata (lowByte (c.setWidth 16)), .wCgdata (highByte (c.setWidth 16))]

/-- `rgb C, R, G, B`. -/
def pseudoRgb (i : Byte) (r g b : BitVec 5) : List Instr := pseudoCgaddr i ++ pseudoCgword (b ++ g ++ r)

/-- `scroll NAME, V`. -/
def pseudoScroll (n : BgIdx) (axis : Axis) (v : BitVec 13) : List Instr :=
  [(scrollPort n axis).instr (lowByte (v.setWidth 16)), (scrollPort n axis).instr (highByte (v.setWidth 16))]

/-- `advdots K`, for a block whose dot lasts `tpd` cycles, where `K*TPD < 2^28`. -/
def pseudoAdvdots (tpd k : Nat) : List Instr := [.adv (BitVec.ofNat 28 (k * tpd))]

end Sys2Proof.Machine
end

