-- ==== Sys2Proof/Safety.lean ====
section
/-! DEFINITION. The terms the statements use: running several instructions, how a run ends, the invariant of the
reachable states, and the spec's arithmetic written on plain numbers. -/

namespace Sys2Proof.Machine

/-- The transaction word `w` is instruction `i` (30_encoding.md). -/
def spells (w : Nat) (i : Instr) : Prop := decode (BitVec.ofNat 32 w) = .ok i

/-- Run instructions one after another, up to the first that has no step. -/
def execAll : List Instr → State → Answer
  | [], s => .next s
  | i :: is, s =>
    match exec i s with
    | .next t => execAll is t
    | .fault e => .fault e
    | .refused e => .refused e

/-- The ways a run ends (70_reset_and_hazards.md R354). -/
inductive RunEnd where
  | completed
  | faulted (f : FaultRecord)
  | refused (e : Refusal)
  deriving DecidableEq, Repr

/-- A construction error as a fault record (60_exceptions.md R314). -/
def Fault.record : Fault → FaultRecord
  | .configurationError c => { code := .configurationError, info := .descriptor c }

/-- How a run of these words from `s` ends (70_reset_and_hazards.md R354): faulted if the block's fault is set, else
refused if one of the words is, else completed. -/
def runEnd : List Word → State → RunEnd
  | [], s =>
    match s.fault with
    | some f => .faulted f
    | none => .completed
  | w :: ws, s =>
    match step { s with input := [w] } with
    | .next t => runEnd ws t
    | .fault e => .faulted e.record
    | .refused e =>
      match s.fault with
      | some f => .faulted f
      | none => .refused e

/-- The dots since line 0, dot 0 of the frame (40_timing.md R138). -/
def State.position (s : State) : Nat := s.timing.vCounter * s.cfg.desc.hTotal + s.timing.hCounter

/-- The ticks an `ADV n` runs (40_timing.md R137). -/
def State.ticksOf (s : State) (n : Nat) : Nat := (s.timing.acc + n) / s.cfg.desc.tpd

/-- A raise's record for word address `r` (60_exceptions.md R311). -/
def vramWordFault (r : Nat) : FaultRecord := { code := .addressingInvariantViolation, info := .vramWord r }

/-- `WordIndex` raises for `r` (20_memory.md R62). -/
def outOfRange (a15 : VramA15) (r : Nat) : Prop := 0xFFFF < r ∨ (a15 = .fault ∧ 0x8000 ≤ r)

/-- What every reachable state keeps: a valid descriptor (00_scope.md R7), distinct layers (R8), counters in range
(10_state.md R23), an accumulator below a dot unless the block is halted (R23, 60_exceptions.md R313), blank flags and
guard that follow the counters (40_timing.md R139, R141), arrays in canonical form within their bounds (10_state.md R32,
R34, R35), aligned bases (10_state.md R30), and a fault that `WordIndex` raised (60_exceptions.md R311). -/
structure State.Inv (s : State) : Prop where
  descValid      : s.cfg.desc.valid = true
  layersDistinct : s.cfg.layers.Nodup
  hRange         : s.timing.hCounter < s.cfg.desc.hTotal
  vRange         : s.timing.vCounter < s.cfg.desc.vTotal
  accRange       : s.fault = none → s.timing.acc < s.cfg.desc.tpd
  hBlank         : s.timing.inHBlank = !s.cfg.desc.dotActive s.timing.hCounter
  vBlank         : s.timing.inVBlank = !s.cfg.desc.lineVisible s.timing.vCounter
  guard          : s.timing.frameReady = decide (s.cfg.desc.fal + s.cfg.desc.ah ≤ s.timing.vCounter)
  vramWf         : s.vram.wf = true
  cgWf           : s.cg.wf = true
  workWf         : s.work.wf = true
  displayWf      : s.display.wf = true
  tilemapAligned : ∀ n, (s.bg.get n).tilemapBase.toNat % 0x400 = 0
  charAligned    : ∀ n, (s.bg.get n).charBase.toNat % 0x1000 = 0
  faultRaised    : ∀ f, s.fault = some f → ∃ r, f = vramWordFault r ∧ outOfRange s.cfg.vramA15 r

/-- The invariant but for the accumulator's range: what holds before and after every tick, since all ticks of an ADV but
the last leave a dot or more in the accumulator (40_timing.md R122). A state of the invariant meets it. -/
def State.TickInv (s : State) : Prop := State.Inv { s with timing := { s.timing with acc := 0 } }

/-- Word `r` of video memory as a number, `0` where `WordIndex` raises. -/
def State.wordNat (s : State) (r : Nat) : Nat :=
  match wordIndex s.cfg.vramA15 r with
  | some w => (s.vramRead8 (2 * w)).toNat + 256 * (s.vramRead8 (2 * w + 1)).toNat
  | none => 0

/-- `e(v)` of 42_color_table.md R190 on numbers. -/
def channelNat (v : Nat) : Nat := v * 8 + v / 4

/-- A tilemap entry's word address (44_compositor.md R264, R265) on numbers. -/
def State.mapAddrNat (s : State) (n : BgIdx) (row x : Nat) : Nat :=
  let b := s.bg.get n
  b.tilemapBase.toNat + (row + b.vScroll.toNat) % 256 / 8 * 32 + (x + b.hScroll.toNat) % 256 / 8

/-- The pixel's place in its tile after the flip (44_compositor.md R264, R267): `c` the coordinate, `flip` 0 or 1. -/
def inTileNat (c flip : Nat) : Nat := if flip = 1 then 7 - c % 8 else c % 8

/-- The word address of a pixel's planes 0 and 1 (44_compositor.md R266 to R268) on numbers. -/
def State.rowAddrNat (s : State) (n : BgIdx) (row x : Nat) : Nat :=
  let b := s.bg.get n
  let entry := s.wordNat (s.mapAddrNat n row x)
  b.charBase.toNat + entry % 1024 * 16 + inTileNat (row + b.vScroll.toNat) (entry / 32768)

/-- The colour index of a pixel (44_compositor.md R269) on numbers. -/
def State.colourIndexNat (s : State) (n : BgIdx) (row x : Nat) : Nat :=
  let b := s.bg.get n
  let entry := s.wordNat (s.mapAddrNat n row x)
  let bit := 7 - inTileNat (x + b.hScroll.toNat) (entry / 16384 % 2)
  let low := s.wordNat (s.rowAddrNat n row x)
  let high := s.wordNat (s.rowAddrNat n row x + 8)
  low / 2 ^ bit % 2 + low / 2 ^ (8 + bit) % 2 * 2 + high / 2 ^ bit % 2 * 4 + high / 2 ^ (8 + bit) % 2 * 8

/-- The pixel after layer `n` (44_compositor.md R270): `below` where the layer is transparent. -/
def State.pixelOver (s : State) (row x : Nat) (below : Pixel) (n : BgIdx) : Pixel :=
  let ci := s.colourIndexNat n row x
  if ci = 0 then below else expand (s.cgRead (s.wordNat (s.mapAddrNat n row x) / 1024 % 8 * 16 + ci))

/-- The layers drawn (44_compositor.md R260): those of `LAYERS` that are enabled, in its order. -/
def State.drawnLayers (s : State) : List BgIdx := s.cfg.layers.filter (fun n => (s.bg.get n).enable)

/-- No fetch of layer `n` at a column of row `row` raises (44_compositor.md R272). -/
def State.fetchesInRange (s : State) (row : Nat) (n : BgIdx) (x : Nat) : Prop :=
  ¬ outOfRange s.cfg.vramA15 (s.mapAddrNat n row x) ∧ ¬ outOfRange s.cfg.vramA15 (s.rowAddrNat n row x) ∧
    ¬ outOfRange s.cfg.vramA15 (s.rowAddrNat n row x + 8)

/-- The pixels Compose visits (44_compositor.md R260, R277): layer by layer, each from the left. -/
def State.visited (s : State) : List (BgIdx × Nat) :=
  s.drawnLayers.flatMap (fun n => (List.range 256).map (fun x => (n, x)))

/-- The word addresses fetched for a pixel of row `row`, in the order of 44_compositor.md R277. -/
def State.fetchAddrs (s : State) (row : Nat) (p : BgIdx × Nat) : List Nat :=
  [s.mapAddrNat p.1 row p.2, s.rowAddrNat p.1 row p.2, s.rowAddrNat p.1 row p.2 + 8]

/-- The pixels visited before a fetch raises, all of them where none does (60_exceptions.md R313). -/
def State.visitedBeforeRaise (s : State) (row : Nat) : List (BgIdx × Nat) :=
  s.visited.takeWhile (fun p => (s.fetchAddrs row p).all (fun r => (wordIndex s.cfg.vramA15 r).isSome))

/-- The armed target matches the position (40_timing.md R136), mode by mode. -/
def State.irqAt (s : State) (h v : Nat) : Prop :=
  (s.irq.irqMode = 1 ∧ h = s.irq.hTarget.toNat) ∨ (s.irq.irqMode = 2 ∧ v = s.irq.vTarget.toNat ∧ h = 0) ∨
    (s.irq.irqMode = 3 ∧ h = s.irq.hTarget.toNat ∧ v = s.irq.vTarget.toNat)

/-- The write transactions of a draw (40_timing.md R127). -/
def drawInstrs (d : List (BusAddr × Byte)) : List Instr := d.map (fun p => decodeWrite p.1 p.2)

end Sys2Proof.Machine
end

