-- ==== Sys2Proof/Certificates/Slice0/Obligations.lean ====
section
/-! DEFINITION. The statements about the model. Each docstring names the rule it formalises. A conclusion
`{ t with f := s.f } = s` says that the next state `t` agrees with `s` in every field but `f`: that is the frame. -/

open Sys2Proof Sys2Proof.Machine

/-! ## Encoding and decoding -/

/-- 30_encoding.md R90 to R97: no bit of an operand is lost on the way to the word and back. -/
def Obligations.DecodeOfEncodeIsTheInstruction : Prop :=
  ∀ i : Instr, i.wf = true → decode (encode i) = .ok i

/-- 30_encoding.md R90 to R97, the other way: a word that decodes is the word of what it decodes to. -/
def Obligations.EncodeOfDecodeIsTheWord : Prop :=
  ∀ (w : Word) (i : Instr), decode w = .ok i → i.wf = true ∧ encode i = w

/-- 30_encoding.md R98: no instruction, no step (the words come from State.input, log 1), and the run is refused. -/
def Obligations.ReservedKindsAreRefused : Prop :=
  ∀ w : Word,
    (decode w = .error .reservedKind ↔ (w.toNat / 2 ^ 28 = 0 ∨ 8 ≤ w.toNat / 2 ^ 28)) ∧
    ((w.toNat / 2 ^ 28 = 0 ∨ 8 ≤ w.toNat / 2 ^ 28) →
      ∀ (s : State) (rest : List Word), step { s with input := w :: rest } = .refused (.word .reservedKind) ∧
        (s.fault = none → runEnd (w :: rest) s = .refused (.word .reservedKind)))

/-- 30_encoding.md R99: the three kinds of word refused beside R98's, the third wherever it stands in a draw; where the
words before it are BUSW words, it is the one named. -/
def Obligations.ReservedFieldsRowsAndDrawKindsAreRefused : Prop :=
  ∀ w : Word,
    (decode w = .error .reservedField ↔
      ((w.toNat / 2 ^ 28 = 1 ∧ w.toNat / 2 ^ 24 % 16 ≠ 0) ∨
       (w.toNat / 2 ^ 28 = 2 ∧ (w.toNat / 2 ^ 24 % 16 ≠ 0 ∨ w.toNat % 256 ≠ 0)) ∨
       (w.toNat / 2 ^ 28 = 4 ∧ w.toNat % 2 ^ 28 ≠ 0) ∨
       (w.toNat / 2 ^ 28 = 5 ∧ w.toNat / 2 ^ 9 % 128 ≠ 0) ∨
       (w.toNat / 2 ^ 28 = 6 ∧ w.toNat / 4 % 2 ^ 26 ≠ 0) ∨
       (w.toNat / 2 ^ 28 = 7 ∧ w.toNat / 2 ^ 16 % 2 ^ 12 ≠ 0))) ∧
    (decode w = .error .dreadRow ↔
      (w.toNat / 2 ^ 28 = 7 ∧ w.toNat / 2 ^ 16 % 2 ^ 12 = 0 ∧ 224 ≤ w.toNat / 2 ^ 8 % 256)) ∧
    (∀ e : WordError, decode w = .error e →
      ∀ (s : State) (rest : List Word), step { s with input := w :: rest } = .refused (.word e) ∧
        (s.fault = none → runEnd (w :: rest) s = .refused (.word e))) ∧
    (∀ i : Instr, decode w = .ok i → w.toNat / 2 ^ 28 ≠ 1 →
      ∀ (s : State) (before after : List Word),
        (∃ e, s.offerDraw (before ++ w :: after) = .refused (.word e)) ∧
        ((∀ v ∈ before, v.toNat / 2 ^ 24 = 0x10) → s.offerDraw (before ++ w :: after) = .refused (.word .hookKind)))

/-- 30_encoding.md R100, with the words of R91 and R92: a port's address selects its row, every other address the
catch-all, and no address has a row in both tables. -/
def Obligations.EveryBusAddressSelectsOneRow : Prop :=
  (∀ (p : WPort) (d : Byte),
    decode (BitVec.ofNat 32 (0x10000000 + p.addr.toNat * 256 + d.toNat)) = .ok (p.instr d)) ∧
  (∀ (a : BusAddr) (d : Byte), (∀ p : WPort, p.addr ≠ a) →
    decode (BitVec.ofNat 32 (0x10000000 + a.toNat * 256 + d.toNat)) = .ok (.wNop a d)) ∧
  (∀ p : RPort, decode (BitVec.ofNat 32 (0x20000000 + p.addr.toNat * 256)) = .ok p.instr) ∧
  (∀ a : BusAddr, (∀ p : RPort, p.addr ≠ a) →
    decode (BitVec.ofNat 32 (0x20000000 + a.toNat * 256)) = .ok (.rOpen a)) ∧
  (∀ (p : WPort) (q : RPort), p.addr ≠ q.addr)

/-- Words of 95_test_vectors.md §2.1 and of the rules' encoding lines. -/
def Obligations.SpecWordsDecode : Prop :=
  decode 0x10212200#32 = .ok (.wCgdata 0x00#8) ∧ decode 0x10210180#32 = .ok (.wNop 0x2101#16 0x80#8) ∧
  decode 0x20213F00#32 = .ok .rStat78 ∧ decode 0x20210000#32 = .ok (.rOpen 0x2100#16) ∧
  decode 0x3004AED4#32 = .ok (.adv 306900#28) ∧ decode 0x40000000#32 = .ok .rst ∧
  decode 0x5CE10000#32 = .ok (.setirq true 2#2 225#9 0#9) ∧ decode 0x60000002#32 = .ok (.setobj true false) ∧
  decode 0x7000DFFF#32 = .ok (.dread 255#8 223#8) ∧ decode 0x7000E000#32 = .error .dreadRow

/-- The model's step: the next word's instruction, run with that word taken (log 1); nothing when no word is to come
(log 15). -/
def Obligations.StepRunsTheDecodedInstruction : Prop :=
  (∀ (s : State) (w : Word) (rest : List Word) (i : Instr), s.input = w :: rest → decode w = .ok i →
    step s = exec i { s with input := rest }) ∧
  (∀ s : State, s.input = [] → step s = .next s)

/-! ## Faults and the halt -/

/-- 10_state.md R37 with 60_exceptions.md R313's third point: on a halted block every transaction, RST among them,
is accepted and does nothing. -/
def Obligations.HaltedBlockDoesNothing : Prop :=
  ∀ (i : Instr) (s : State) (f : FaultRecord), i.wf = true → s.fault = some f → exec i s = .next s

/-- 60_exceptions.md R311: which instructions raise, with what info, and why. -/
def Obligations.OnlyVramAccessesRaise : Prop :=
  ∀ (i : Instr) (s t : State) (f : FaultRecord), s.fault = none → exec i s = .next t → t.fault = some f →
    ((∃ d, i = .wVmdatal d) ∨ (∃ d, i = .wVmdatah d) ∨ i = .rRdvraml ∨ i = .rRdvramh ∨ (∃ n, i = .adv n)) ∧
    ∃ r, f = vramWordFault r ∧ outOfRange s.cfg.vramA15 r

/-! ## Video memory -/

/-- 41_video_memory.md R162, first part: under `rotate` each mode maps the 16-bit addresses one to one onto themselves,
mode A, B and C rotating the low 8, 9 and 10 bits left by 3. -/
def Obligations.RotateRemapRotatesLowBits : Prop :=
  (∀ a, a < 0x10000 → ∀ m : BitVec 2, remap .rotate a m < 0x10000) ∧
  (∀ a b, a < 0x10000 → b < 0x10000 → ∀ m : BitVec 2, remap .rotate a m = remap .rotate b m → a = b) ∧
  (∀ a, a < 0x10000 →
    remap .rotate a 0 = a ∧
    remap .rotate a 1 = a / 256 * 256 + (a % 256 * 8 % 256 + a % 256 / 32) ∧
    remap .rotate a 2 = a / 512 * 512 + (a % 512 * 8 % 512 + a % 512 / 64) ∧
    remap .rotate a 3 = a / 1024 * 1024 + (a % 1024 * 8 % 1024 + a % 1024 / 128))

/-- 41_video_memory.md R160 and R162, second part, for `as_written`: the formulas on numbers; modes A and B reach exactly
the 8,192 multiples of 8, so they collide; mode C leaves the 16-bit range for the addresses with bit 9 set. -/
def Obligations.AsWrittenRemapFormulas : Prop :=
  (∀ a, a < 0x10000 →
    remap .asWritten a 0 = a ∧
    remap .asWritten a 1 = a / 256 * 256 ||| a % 32 * 8 ||| a / 32 % 8 * 1024 ∧
    remap .asWritten a 2 = a / 512 * 512 ||| a % 64 * 8 ||| a / 64 % 8 * 4096 ∧
    remap .asWritten a 3 = a / 1024 * 1024 ||| a % 128 * 8 ||| a / 128 % 8 * 16384 ∧
    (0xFFFF < remap .asWritten a 3 ↔ a / 512 % 2 = 1)) ∧
  (∀ m : BitVec 2, m = 1 ∨ m = 2 →
    (∀ a, a < 0x10000 → remap .asWritten a m < 0x10000 ∧ remap .asWritten a m % 8 = 0) ∧
    (∀ r, r < 0x10000 → r % 8 = 0 → ∃ a, a < 0x10000 ∧ remap .asWritten a m = r)) ∧
  remap .asWritten 0x0020 1 = 0x0400 ∧ remap .asWritten 0x0400 1 = 0x0400 ∧ remap .asWritten 0x0200 3 = 0x10000

/-- 20_memory.md R62. -/
def Obligations.WordIndexMirrorsOrRaises : Prop :=
  ∀ r : Nat,
    (0xFFFF < r → ∀ a15, wordIndex a15 r = none) ∧
    (r ≤ 0xFFFF → wordIndex .mirror r = some (r % 0x8000)) ∧
    (r < 0x8000 → wordIndex .fault r = some r) ∧
    (0x8000 ≤ r → wordIndex .fault r = none)

/-- 41_video_memory.md R165, R166, R167: the cursor's control writes, and nothing else changes. -/
def Obligations.CursorControlWrites : Prop :=
  ∀ (s : State) (d : Byte), s.fault = none →
    spells (0x10211500 + d.toNat) (.wVmain d) ∧ spells (0x10211600 + d.toNat) (.wVmaddl d) ∧
    spells (0x10211700 + d.toNat) (.wVmaddh d) ∧
    exec (.wVmain d) s = .next { s with vm := { s.vm with
      incCode := BitVec.ofNat 2 d.toNat, remap := BitVec.ofNat 2 (d.toNat / 4), triggerHigh := decide (128 ≤ d.toNat) } } ∧
    exec (.wVmaddl d) s = .next { s with vm := { s.vm with
      addr := BitVec.ofNat 16 (s.vm.addr.toNat / 256 * 256 + d.toNat) } } ∧
    exec (.wVmaddh d) s = .next { s with vm := { s.vm with
      addr := BitVec.ofNat 16 (d.toNat * 256 + s.vm.addr.toNat % 256) } }

/-- 41_video_memory.md R168, R169: the one byte stored, every other byte as before, the advance of R163 and R164 on the
trigger half alone, and nothing else changed; where `WordIndex` raises (20_memory.md R62), the fault is recorded
(60_exceptions.md R313) and nothing is stored or advanced. -/
def Obligations.VramDataWrites : Prop :=
  ∀ (s : State) (d : Byte), s.fault = none →
    spells (0x10211800 + d.toNat) (.wVmdatal d) ∧ spells (0x10211900 + d.toNat) (.wVmdatah d) ∧
    (s.vram.wf = true → ∀ w, wordIndex s.cfg.vramA15 (remap s.cfg.remapFormula s.vm.addr.toNat s.vm.remap) = some w →
      (∃ t, exec (.wVmdatal d) s = .next t ∧
        (∀ i, t.vram.read i = if i = 2 * w then d else s.vram.read i) ∧
        t.vm.addr.toNat = (s.vm.addr.toNat +
          (if s.vm.triggerHigh then 0 else [1, 32, 128, 128].getD s.vm.incCode.toNat 0)) % 0x10000 ∧
        { t with vram := s.vram, vm := { t.vm with addr := s.vm.addr } } = s) ∧
      (∃ t, exec (.wVmdatah d) s = .next t ∧
        (∀ i, t.vram.read i = if i = 2 * w + 1 then d else s.vram.read i) ∧
        t.vm.addr.toNat = (s.vm.addr.toNat +
          (if s.vm.triggerHigh then [1, 32, 128, 128].getD s.vm.incCode.toNat 0 else 0)) % 0x10000 ∧
        { t with vram := s.vram, vm := { t.vm with addr := s.vm.addr } } = s)) ∧
    (outOfRange s.cfg.vramA15 (remap s.cfg.remapFormula s.vm.addr.toNat s.vm.remap) →
      let halted := { s with fault := some (vramWordFault (remap s.cfg.remapFormula s.vm.addr.toNat s.vm.remap)) }
      exec (.wVmdatal d) s = .next halted ∧ exec (.wVmdatah d) s = .next halted)

/-- 41_video_memory.md R170, R171: the byte as it stands (R172), the advance, and nothing else: every byte of memory reads
as before; where `WordIndex` raises, the fault is recorded, no value is returned and nothing advances. -/
def Obligations.VramDataReads : Prop :=
  ∀ s : State, s.fault = none →
    spells 0x20213900 .rRdvraml ∧ spells 0x20213A00 .rRdvramh ∧
    (∀ w, wordIndex s.cfg.vramA15 (remap s.cfg.remapFormula s.vm.addr.toNat s.vm.remap) = some w →
      (∃ t, exec .rRdvraml s = .next t ∧ t.replies = s.replies ++ [.byte (s.vram.read (2 * w))] ∧
        t.vm.addr.toNat = (s.vm.addr.toNat +
          (if s.vm.triggerHigh then 0 else [1, 32, 128, 128].getD s.vm.incCode.toNat 0)) % 0x10000 ∧
        { t with replies := s.replies, vm := { t.vm with addr := s.vm.addr } } = s) ∧
      (∃ t, exec .rRdvramh s = .next t ∧ t.replies = s.replies ++ [.byte (s.vram.read (2 * w + 1))] ∧
        t.vm.addr.toNat = (s.vm.addr.toNat +
          (if s.vm.triggerHigh then [1, 32, 128, 128].getD s.vm.incCode.toNat 0 else 0)) % 0x10000 ∧
        { t with replies := s.replies, vm := { t.vm with addr := s.vm.addr } } = s)) ∧
    (outOfRange s.cfg.vramA15 (remap s.cfg.remapFormula s.vm.addr.toNat s.vm.remap) →
      let halted := { s with fault := some (vramWordFault (remap s.cfg.remapFormula s.vm.addr.toNat s.vm.remap)) }
      exec .rRdvraml s = .next halted ∧ exec .rRdvramh s = .next halted)

/-- 41_video_memory.md R170 to R172 and the example of R170: a word written low half first with the trigger on the high
half, read back at the same address, gives the bytes written. -/
def Obligations.VramWordWrittenIsReadBack : Prop :=
  ∀ (s : State) (lo hi : Byte), s.fault = none → s.vram.wf = true → s.vm.triggerHigh = true →
    ¬ outOfRange s.cfg.vramA15 s.cursorWord →
    ∃ t, execAll ([.wVmdatal lo, .wVmdatah hi] ++ pseudoVaddr s.vm.addr ++ [.rRdvraml, .rRdvramh]) s = .next t ∧
      t.replies = s.replies ++ [.byte lo, .byte hi]

/-! ## The colour table -/

/-- 42_color_table.md R192: the address and the phase, and nothing else. -/
def Obligations.PaletteAddressWrite : Prop :=
  ∀ (s : State) (d : Byte), s.fault = none →
    spells (0x10212100 + d.toNat) (.wCgadd d) ∧
    exec (.wCgadd d) s = .next { s with cgc := { addr := d, phase := false, latch := s.cgc.latch } }

/-- 42_color_table.md R193: the first byte is latched; the second stores one entry, advances the address mod 256 and
resets the phase. -/
def Obligations.PaletteDataWrite : Prop :=
  ∀ (s : State) (d : Byte), s.fault = none → s.cg.wf = true →
    spells (0x10212200 + d.toNat) (.wCgdata d) ∧
    (s.cgc.phase = false →
      exec (.wCgdata d) s = .next { s with cgc := { addr := s.cgc.addr, phase := true, latch := d } }) ∧
    (s.cgc.phase = true →
      ∃ t, exec (.wCgdata d) s = .next t ∧
        (∀ i, t.cg.read i = if i = s.cgc.addr.toNat then BitVec.ofNat 15 (d.toNat % 128 * 256 + s.cgc.latch.toNat)
          else s.cg.read i) ∧
        t.cgc = { addr := BitVec.ofNat 8 (s.cgc.addr.toNat + 1), phase := false, latch := s.cgc.latch } ∧
        { t with cg := s.cg, cgc := s.cgc } = s)

/-- 42_color_table.md R194: the low byte, then the high byte with bit 7 zero and the advance. -/
def Obligations.PaletteDataRead : Prop :=
  ∀ s : State, s.fault = none →
    spells 0x20213B00 .rRdcgram ∧
    exec .rRdcgram s =
      if s.cgc.phase then
        .next { s with
          replies := s.replies ++ [.byte (BitVec.ofNat 8 ((s.cg.read s.cgc.addr.toNat).toNat / 256))]
          cgc := { addr := BitVec.ofNat 8 (s.cgc.addr.toNat + 1), phase := false, latch := s.cgc.latch } }
      else
        .next { s with
          replies := s.replies ++ [.byte (BitVec.ofNat 8 ((s.cg.read s.cgc.addr.toNat).toNat % 256))]
          cgc := { s.cgc with phase := true } }

/-- 42_color_table.md R195, from any state with the phase at 0: `i` is the address. -/
def Obligations.PalettePairRoundTrip : Prop :=
  ∀ (s : State) (b1 b2 : Byte), s.fault = none → s.cg.wf = true → s.cgc.phase = false →
    ∃ t u, execAll [.wCgdata b1, .wCgdata b2] s = .next t ∧ t.cgc.addr = s.cgc.addr + 1 ∧
      execAll [.wCgadd s.cgc.addr, .rRdcgram, .rRdcgram] t = .next u ∧ u.cgc.addr = s.cgc.addr + 1 ∧
      u.replies = s.replies ++ [.byte b1, .byte (b2 &&& 0x7F#8)]

/-- 42_color_table.md R190 and R191. -/
def Obligations.ExpandChannels : Prop :=
  (∀ c : Colour, (expand c).toNat =
    channelNat (c.toNat % 32) * 2 ^ 24 + channelNat (c.toNat / 32 % 32) * 2 ^ 16 +
      channelNat (c.toNat / 1024) * 2 ^ 8 + 255) ∧
  channelNat 0 = 0 ∧ channelNat 31 = 255

/-! ## Register decode -/

/-- 43_register_decode.md R211, R212. -/
def Obligations.DisplayPortWrites : Prop :=
  ∀ (s : State) (d : Byte), s.fault = none →
    spells (0x10210000 + d.toNat) (.wInidisp d) ∧ spells (0x10210500 + d.toNat) (.wBgmode d) ∧
    exec (.wInidisp d) s = .next { s with disp := { s.disp with
      forceBlank := decide (128 ≤ d.toNat), brightness := BitVec.ofNat 4 d.toNat } } ∧
    exec (.wBgmode d) s = .next { s with disp := { s.disp with
      bgMode := BitVec.ofNat 3 d.toNat, bg3Priority := decide (d.toNat / 8 % 2 = 1) } }

/-- 43_register_decode.md R213 to R218. -/
def Obligations.BackgroundBaseWrites : Prop :=
  ∀ (s : State) (d : Byte), s.fault = none →
    spells (0x10210700 + d.toNat) (.wBg1sc d) ∧ spells (0x10210800 + d.toNat) (.wBg2sc d) ∧
    spells (0x10210900 + d.toNat) (.wBg3sc d) ∧ spells (0x10210A00 + d.toNat) (.wBg4sc d) ∧
    spells (0x10210B00 + d.toNat) (.wBg12nba d) ∧ spells (0x10210C00 + d.toNat) (.wBg34nba d) ∧
    exec (.wBg1sc d) s = .next { s with bg := { s.bg with bg1 := { s.bg.bg1 with
      tilemapBase := BitVec.ofNat 16 (d.toNat / 4 * 0x400) } } } ∧
    exec (.wBg2sc d) s = .next { s with bg := { s.bg with bg2 := { s.bg.bg2 with
      tilemapBase := BitVec.ofNat 16 (d.toNat / 4 * 0x400) } } } ∧
    exec (.wBg3sc d) s = .next { s with bg := { s.bg with bg3 := { s.bg.bg3 with
      tilemapBase := BitVec.ofNat 16 (d.toNat / 4 * 0x400) } } } ∧
    exec (.wBg4sc d) s = .next { s with bg := { s.bg with bg4 := { s.bg.bg4 with
      tilemapBase := BitVec.ofNat 16 (d.toNat / 4 * 0x400) } } } ∧
    exec (.wBg12nba d) s = .next { s with bg := { s.bg with
      bg1 := { s.bg.bg1 with charBase := BitVec.ofNat 16 (d.toNat % 16 * 0x1000) }
      bg2 := { s.bg.bg2 with charBase := BitVec.ofNat 16 (d.toNat / 16 * 0x1000) } } } ∧
    exec (.wBg34nba d) s = .next { s with bg := { s.bg with
      bg3 := { s.bg.bg3 with charBase := BitVec.ofNat 16 (d.toNat % 16 * 0x1000) }
      bg4 := { s.bg.bg4 with charBase := BitVec.ofNat 16 (d.toNat / 16 * 0x1000) } } }

/-- 43_register_decode.md R219 to R227: every scroll port, and nothing else changes. -/
def Obligations.ScrollPortWrites : Prop :=
  ∀ (s : State) (d : Byte), s.fault = none →
    let value (b : Background) : BitVec 13 := BitVec.ofNat 13 (d.toNat * 256 + b.shadow.toNat)
    let h (b : Background) : Background := { b with hScroll := value b, shadow := d }
    let v (b : Background) : Background := { b with vScroll := value b, shadow := d }
    spells (0x10210D00 + d.toNat) (.wBg1hofs d) ∧ spells (0x10210E00 + d.toNat) (.wBg1vofs d) ∧
    spells (0x10210F00 + d.toNat) (.wBg2hofs d) ∧ spells (0x10211000 + d.toNat) (.wBg2vofs d) ∧
    spells (0x10211100 + d.toNat) (.wBg3hofs d) ∧ spells (0x10211200 + d.toNat) (.wBg3vofs d) ∧
    spells (0x10211300 + d.toNat) (.wBg4hofs d) ∧ spells (0x10211400 + d.toNat) (.wBg4vofs d) ∧
    exec (.wBg1hofs d) s = .next { s with bg := { s.bg with bg1 := h s.bg.bg1 } } ∧
    exec (.wBg1vofs d) s = .next { s with bg := { s.bg with bg1 := v s.bg.bg1 } } ∧
    exec (.wBg2hofs d) s = .next { s with bg := { s.bg with bg2 := h s.bg.bg2 } } ∧
    exec (.wBg2vofs d) s = .next { s with bg := { s.bg with bg2 := v s.bg.bg2 } } ∧
    exec (.wBg3hofs d) s = .next { s with bg := { s.bg with bg3 := h s.bg.bg3 } } ∧
    exec (.wBg3vofs d) s = .next { s with bg := { s.bg with bg3 := v s.bg.bg3 } } ∧
    exec (.wBg4hofs d) s = .next { s with bg := { s.bg with bg4 := h s.bg.bg4 } } ∧
    exec (.wBg4vofs d) s = .next { s with bg := { s.bg with bg4 := v s.bg.bg4 } }

/-- 43_register_decode.md R219 with 30_encoding.md R106's `scroll`: the two writes of a pair leave exactly the value,
its high byte in the shadow, and the other axis and every other layer as they were. -/
def Obligations.ScrollPairSetsTheValue : Prop :=
  ∀ (s : State) (n : BgIdx) (v : BitVec 13), s.fault = none →
    (∃ t, execAll (pseudoScroll n .h v) s = .next t ∧
      t.bg.get n = { s.bg.get n with hScroll := v, shadow := BitVec.ofNat 8 (v.toNat / 256) } ∧
      (∀ m, m ≠ n → t.bg.get m = s.bg.get m) ∧ { t with bg := s.bg } = s) ∧
    (∃ t, execAll (pseudoScroll n .v v) s = .next t ∧
      t.bg.get n = { s.bg.get n with vScroll := v, shadow := BitVec.ofNat 8 (v.toNat / 256) } ∧
      (∀ m, m ≠ n → t.bg.get m = s.bg.get m) ∧ { t with bg := s.bg } = s)

/-- 43_register_decode.md R228. -/
def Obligations.LayerEnableWrite : Prop :=
  ∀ (s : State) (d : Byte), s.fault = none →
    spells (0x10212C00 + d.toNat) (.wTm d) ∧
    exec (.wTm d) s = .next { s with
      bg := { bg1 := { s.bg.bg1 with enable := decide (d.toNat % 2 = 1) }
              bg2 := { s.bg.bg2 with enable := decide (d.toNat / 2 % 2 = 1) }
              bg3 := { s.bg.bg3 with enable := decide (d.toNat / 4 % 2 = 1) }
              bg4 := { s.bg.bg4 with enable := decide (d.toNat / 8 % 2 = 1) } }
      disp := { s.disp with objMainEnable := decide (d.toNat / 16 % 2 = 1) } }

/-- 43_register_decode.md R229: the counters' low nine bits, which are the counters wherever 10_state.md R23's range
holds; the phases stay. -/
def Obligations.CounterLatchRead : Prop :=
  ∀ s : State, s.fault = none →
    spells 0x20213700 .rSlhv ∧ ∃ t, exec .rSlhv s = .next t ∧
      t.latch.latchedH.toNat = s.timing.hCounter % 512 ∧ t.latch.latchedV.toNat = s.timing.vCounter % 512 ∧
      t.latch.latchFlag = true ∧ t.latch.ophctPhase = s.latch.ophctPhase ∧
      t.latch.opvctPhase = s.latch.opvctPhase ∧ t.replies = s.replies ++ [.byte s.cfg.openBus] ∧
      { t with latch := s.latch, replies := s.replies } = s

/-- 43_register_decode.md R230, R231. -/
def Obligations.CounterByteReads : Prop :=
  ∀ s : State, s.fault = none →
    spells 0x20213C00 .rOphct ∧ spells 0x20213D00 .rOpvct ∧
    exec .rOphct s = .next { s with
      replies := s.replies ++ [.byte (BitVec.ofNat 8
        (if s.latch.ophctPhase then s.latch.latchedH.toNat / 256 else s.latch.latchedH.toNat))]
      latch := { s.latch with ophctPhase := !s.latch.ophctPhase } } ∧
    exec .rOpvct s = .next { s with
      replies := s.replies ++ [.byte (BitVec.ofNat 8
        (if s.latch.opvctPhase then s.latch.latchedV.toNat / 256 else s.latch.latchedV.toNat))]
      latch := { s.latch with opvctPhase := !s.latch.opvctPhase } }

/-- 43_register_decode.md R232, R233: STAT77 changes nothing; STAT78 shows the flag, then clears it and both phases. -/
def Obligations.StatusByteReads : Prop :=
  ∀ s : State, s.fault = none →
    spells 0x20213E00 .rStat77 ∧ spells 0x20213F00 .rStat78 ∧
    exec .rStat77 s = .next { s with replies := s.replies ++ [.byte (BitVec.ofNat 8
      (128 * s.obj.timeOver.toNat + 64 * s.obj.rangeOver.toNat + s.cfg.ppu1Version.toNat))] } ∧
    exec .rStat78 s = .next { s with
      replies := s.replies ++ [.byte (BitVec.ofNat 8
        (64 * s.latch.latchFlag.toNat + 16 * s.cfg.desc.region.toNat + s.cfg.ppu2Version.toNat))]
      latch := { s.latch with latchFlag := false, ophctPhase := false, opvctPhase := false } }

/-- 70_reset_and_hazards.md R350's sequence on a state in range: the bytes read give back both counters. -/
def Obligations.LatchedCountersReadBack : Prop :=
  ∀ s : State, s.fault = none → s.Inv →
    ∃ (t : State) (status h0 h1 v0 v1 : Byte),
      execAll [.rSlhv, .rStat78, .rOphct, .rOphct, .rOpvct, .rOpvct] s = .next t ∧
      t.replies = s.replies ++
        [.byte s.cfg.openBus, .byte status, .byte h0, .byte h1, .byte v0, .byte v1] ∧
      h1.toNat * 256 + h0.toNat = s.timing.hCounter ∧ v1.toNat * 256 + v0.toNat = s.timing.vCounter ∧
      status.toNat / 64 % 2 = 1 ∧ t.latch.latchFlag = false

/-- 43_register_decode.md R234. -/
def Obligations.SpriteStatusInput : Prop :=
  ∀ (s : State) (time range : Bool), s.fault = none →
    spells (0x60000000 + 2 * time.toNat + range.toNat) (.setobj time range) ∧
    exec (.setobj time range) s = .next { s with obj := { timeOver := time, rangeOver := range } }

/-- 43_register_decode.md R235, R236: nothing changes but the value returned and, where it is logged, the optional
event (log 11). -/
def Obligations.UnmappedAccesses : Prop :=
  ∀ (s : State) (a : BusAddr) (d : Byte), s.fault = none →
    (s.cfg.logUnmapped = false →
      exec (.wNop a d) s = .next s ∧
      exec (.rOpen a) s = .next { s with replies := s.replies ++ [.byte s.cfg.openBus] }) ∧
    (s.cfg.logUnmapped = true →
      exec (.wNop a d) s = .next { s with history := s.history ++ [.unmapped .write a] } ∧
      exec (.rOpen a) s = .next { s with
        replies := s.replies ++ [.byte s.cfg.openBus], history := s.history ++ [.unmapped .read a] })

/-! ## Timing -/

/-- 40_timing.md R122: with less than a dot in the accumulator and the operand together, ADV only adds; otherwise it is
the consumer's turn (20_memory.md R68, R73; the reads to come before this tick, log 8: each returns the pixel and the
count as the last step left them, and nothing else changes), one tick with a dot's cycles taken, and the rest of the
loop, which a fault in the tick stops (60_exceptions.md R313). The tick keeps the premise of the statements about one tick,
so they hold of every tick of a loop. -/
def Obligations.AdvanceRunsTheTickLoop : Prop :=
  ∀ (s : State) (n : BitVec 28), s.fault = none →
    (s.timing.acc + n.toNat < s.cfg.desc.tpd →
      exec (.adv n) s = .next { s with timing := { s.timing with acc := s.timing.acc + n.toNat } }) ∧
    (1 ≤ s.cfg.desc.tpd → s.cfg.desc.tpd ≤ s.timing.acc + n.toNat →
      let t := tick { s with
        timing := { s.timing with acc := s.timing.acc + n.toNat - s.cfg.desc.tpd }
        consumer := s.consumer.drop 1
        replies := s.replies ++ (s.consumer.headD []).map (fun r =>
          .pixel (s.display.read r.y.val r.x.val) s.swapCount) }
      t.cfg = s.cfg ∧ t.timing.acc = s.timing.acc + n.toNat - s.cfg.desc.tpd ∧ (s.TickInv → t.TickInv) ∧
      exec (.adv n) s = exec (.adv 0#28) t ∧ (t.fault ≠ none → exec (.adv n) s = .next t))

/-- 40_timing.md R137, R138: an ADV that raises nothing runs `(acc + n) / TPD` ticks, leaves the rest in the
accumulator and moves the position by that many dots around the frame. -/
def Obligations.AdvanceMovesThePosition : Prop :=
  ∀ (s : State) (n : BitVec 28), s.Inv → s.fault = none →
    ∃ t, exec (.adv n) s = .next t ∧ t.cfg = s.cfg ∧
      (t.fault = none →
        t.timing.acc = (s.timing.acc + n.toNat) % s.cfg.desc.tpd ∧
        t.position = (s.position + s.ticksOf n.toNat) % (s.cfg.desc.hTotal * s.cfg.desc.vTotal))

/-- 44_compositor.md R262, R263 with 40_timing.md R127: with no draw to come, and force blank on or no listed layer
enabled, an ADV raises nothing, so every ADV runs to its end. -/
def Obligations.AdvanceWithoutFetchesCompletes : Prop :=
  ∀ (s : State) (n : BitVec 28), s.Inv → s.fault = none → s.draws = [] →
    (s.disp.forceBlank = true ∨ s.drawnLayers = []) →
    ∃ t, exec (.adv n) s = .next t ∧ t.fault = none ∧
      t.timing.acc = (s.timing.acc + n.toNat) % s.cfg.desc.tpd ∧
      t.position = (s.position + s.ticksOf n.toNat) % (s.cfg.desc.hTotal * s.cfg.desc.vTotal) ∧
      t.vram = s.vram ∧ t.cg = s.cg ∧ t.vm = s.vm ∧ t.cgc = s.cgc ∧ t.bg = s.bg ∧ t.disp = s.disp ∧
      t.latch = s.latch ∧ t.irq = s.irq ∧ t.obj = s.obj

/-- 40_timing.md R137: ADVs one after another are one ADV of the sum, for a sum that raises nothing, and that one runs
`floor((a + sum) / TPD)` ticks: it moves the position by so many dots (R138) and leaves the rest in the accumulator. -/
def Obligations.AdvancesAreOneAdvanceOfTheSum : Prop :=
  ∀ (s t : State) (n : BitVec 28) (ns : List (BitVec 28)), s.Inv → s.fault = none →
    n.toNat = (ns.map BitVec.toNat).sum → exec (.adv n) s = .next t → t.fault = none →
    execAll (ns.map Instr.adv) s = .next t ∧
    t.timing.acc = (s.timing.acc + n.toNat) % s.cfg.desc.tpd ∧
    t.position = (s.position + (s.timing.acc + n.toNat) / s.cfg.desc.tpd) % (s.cfg.desc.hTotal * s.cfg.desc.vTotal)

/-- 40_timing.md R139: the swaps an ADV makes are the frame-ready positions it passes, whatever the granularity. -/
def Obligations.SwapsAreTheFrameReadyPositionsPassed : Prop :=
  ∀ (s t : State) (n : BitVec 28), s.Inv → s.fault = none → exec (.adv n) s = .next t → t.fault = none →
    let frame := s.cfg.desc.hTotal * s.cfg.desc.vTotal
    let rest := frame - (s.cfg.desc.fal + s.cfg.desc.ah) * s.cfg.desc.hTotal
    t.swapCount + (s.position + rest) / frame = s.swapCount + (s.position + s.ticksOf n.toNat + rest) / frame

/-- 40_timing.md R136: one request, of the position, exactly when the armed target matches it. -/
def Obligations.IrqCheckRequestsOnTheArmedTarget : Prop :=
  ∀ s : State,
    (s.irqAt s.timing.hCounter s.timing.vCounter →
      irqCheck s = { s with history := s.history ++ [.irqRequest s.timing.hCounter s.timing.vCounter] }) ∧
    (¬ s.irqAt s.timing.hCounter s.timing.vCounter → irqCheck s = s)

/-- 40_timing.md R136 and R135: a tick that raises nothing makes a timed request exactly when the position it reaches
matches the armed target, one, and as its last event. -/
def Obligations.TickRequestsLastAndOnlyOnMatch : Prop :=
  ∀ s : State, s.TickInv → s.fault = none → (tick s).fault = none →
    ∃ ev : List Event, (∀ h v, Event.irqRequest h v ∉ ev) ∧
      (s.irqAt (tick s).timing.hCounter (tick s).timing.vCounter →
        (tick s).history = s.history ++ ev ++ [.irqRequest (tick s).timing.hCounter (tick s).timing.vCounter]) ∧
      (¬ s.irqAt (tick s).timing.hCounter (tick s).timing.vCounter → (tick s).history = s.history ++ ev)

/-- 40_timing.md R123, R124, R135: a tick that neither ends a line's active dots nor wraps the line moves the dot, clears
`inHBlank` at the first active dot, checks the timed target, and does nothing else. -/
def Obligations.OrdinaryTickMovesOneDot : Prop :=
  ∀ s : State, s.TickInv → s.fault = none → s.timing.hCounter + 1 ≠ s.cfg.desc.fad + s.cfg.desc.aw →
    s.timing.hCounter + 1 ≠ s.cfg.desc.hTotal →
    (s.timing.hCounter + 1 ≠ s.cfg.desc.fad →
      tick s = irqCheck { s with timing := { s.timing with hCounter := s.timing.hCounter + 1 } }) ∧
    (s.timing.hCounter + 1 = s.cfg.desc.fad →
      tick s = irqCheck { s with timing := { s.timing with hCounter := s.timing.hCounter + 1, inHBlank := false } })

/-- 40_timing.md R131 to R133, 45_frame_exchange.md R291 and 60_exceptions.md R318: the tick that reaches line
`FAL + AH`: the guard rises, the work buffer is copied, the count rises, and the events come in order, the timed
request last. -/
def Obligations.FrameReadyTickSwaps : Prop :=
  ∀ s : State, s.TickInv → s.fault = none → s.timing.hCounter + 1 = s.cfg.desc.hTotal →
    s.timing.vCounter + 1 = s.cfg.desc.fal + s.cfg.desc.ah →
    tick s = irqCheck { s with
      timing := { s.timing with
        hCounter := 0, vCounter := s.timing.vCounter + 1, inVBlank := true, frameReady := true }
      display := s.work
      swapCount := s.swapCount + 1
      history := s.history ++ [.frameReady, .swapped (s.swapCount + 1)] ++
        (if s.irq.nmiArmed then [.nmiRequest] else []) }

/-- 40_timing.md R129, R130, R134: the other ticks that wrap a line. -/
def Obligations.LineWrapTick : Prop :=
  ∀ s : State, s.TickInv → s.fault = none → s.timing.hCounter + 1 = s.cfg.desc.hTotal →
    (s.timing.vCounter + 1 = s.cfg.desc.fal →
      tick s = irqCheck { s with timing := { s.timing with
        hCounter := 0, vCounter := s.timing.vCounter + 1, inVBlank := false } }) ∧
    (s.timing.vCounter + 1 = s.cfg.desc.vTotal →
      tick s = irqCheck { s with timing := { s.timing with hCounter := 0, vCounter := 0, frameReady := false } }) ∧
    (s.timing.vCounter + 1 ≠ s.cfg.desc.fal → s.timing.vCounter + 1 ≠ s.cfg.desc.fal + s.cfg.desc.ah →
      s.timing.vCounter + 1 ≠ s.cfg.desc.vTotal →
      tick s = irqCheck { s with timing := { s.timing with hCounter := 0, vCounter := s.timing.vCounter + 1 } })

/-- 40_timing.md R125 to R128: on a visible line the line-end tick sets the flag, logs the hook, performs the pairs of
the next draw (the empty one when none is to come, log 7) as the BUSW transactions they are, then composes, then logs
the line. -/
def Obligations.LineEndTickHooksThenComposes : Prop :=
  ∀ (s t : State) (d : List (BusAddr × Byte)) (ds : List (List (BusAddr × Byte))), s.TickInv → s.fault = none →
    s.timing.hCounter + 1 = s.cfg.desc.fad + s.cfg.desc.aw →
    s.cfg.desc.lineVisible s.timing.vCounter = true →
    (s.draws = d :: ds ∨ (s.draws = [] ∧ d = [] ∧ ds = [])) →
    execAll (drawInstrs d) { s with
      timing := { s.timing with hCounter := s.timing.hCounter + 1, inHBlank := true }
      history := s.history ++ [.dmaHook s.timing.vCounter]
      draws := ds } = .next t →
    t.fault = none → (compose s.timing.vCounter t).fault = none →
    tick s = irqCheck
      { compose s.timing.vCounter t with history := t.history ++ [.lineRendered s.timing.vCounter] }

/-- 60_exceptions.md R313 inside a line-end tick: a tick that raises is a visible line's end, and it ends there, so the
line is not logged, the position stays on the line-end dot and no timed request is made. If a write of the draw raises,
the tick is the draw's writes up to it; else, if Compose raises, it is what Compose leaves. -/
def Obligations.LineEndTickStopsAtARaise : Prop :=
  (∀ s : State, s.TickInv → s.fault = none → (tick s).fault ≠ none →
    s.timing.hCounter + 1 = s.cfg.desc.fad + s.cfg.desc.aw ∧
    s.cfg.desc.lineVisible s.timing.vCounter = true ∧
    (tick s).timing = { s.timing with hCounter := s.timing.hCounter + 1, inHBlank := true } ∧
    (∀ e ∈ (tick s).history.drop s.history.length,
      e = .dmaHook s.timing.vCounter ∨ ∃ a, e = .unmapped .write a) ∧
    (tick s).display = s.display ∧ (tick s).swapCount = s.swapCount) ∧
  (∀ (s t : State) (d : List (BusAddr × Byte)) (ds : List (List (BusAddr × Byte))), s.TickInv → s.fault = none →
    s.timing.hCounter + 1 = s.cfg.desc.fad + s.cfg.desc.aw →
    s.cfg.desc.lineVisible s.timing.vCounter = true →
    (s.draws = d :: ds ∨ (s.draws = [] ∧ d = [] ∧ ds = [])) →
    execAll (drawInstrs d) { s with
      timing := { s.timing with hCounter := s.timing.hCounter + 1, inHBlank := true }
      history := s.history ++ [.dmaHook s.timing.vCounter]
      draws := ds } = .next t →
    (t.fault ≠ none → tick s = t) ∧
    (t.fault = none → (compose s.timing.vCounter t).fault ≠ none → tick s = compose s.timing.vCounter t))

/-- 40_timing.md R126: on a line that is not visible the line-end tick sets the flag, and neither the hook nor the
compositor runs. -/
def Obligations.BlankLineEndOnlySetsTheFlag : Prop :=
  ∀ s : State, s.TickInv → s.fault = none →
    s.timing.hCounter + 1 = s.cfg.desc.fad + s.cfg.desc.aw → s.cfg.desc.lineVisible s.timing.vCounter = false →
    tick s = irqCheck { s with timing := { s.timing with hCounter := s.timing.hCounter + 1, inHBlank := true } }

/-- 40_timing.md R140. -/
def Obligations.InterruptInputsLoad : Prop :=
  ∀ (s : State) (nmi : Bool) (mode : BitVec 2) (v h : BitVec 9), s.fault = none →
    spells (0x50000000 + nmi.toNat * 2 ^ 27 + mode.toNat * 2 ^ 25 + v.toNat * 2 ^ 16 + h.toNat)
      (.setirq nmi mode v h) ∧
    exec (.setirq nmi mode v h) s =
      .next { s with irq := { nmiArmed := nmi, irqMode := mode, hTarget := h, vTarget := v } }

/-- 70_reset_and_hazards.md R353: every transaction other than ADV and the reset leaves the counters, the accumulator and
the blank flags as they are. -/
def Obligations.OnlyAdvanceMovesTime : Prop :=
  ∀ (i : Instr) (s t : State), (∀ n, i ≠ .adv n) → i ≠ .rst → exec i s = .next t →
    t.timing = s.timing ∧ t.swapCount = s.swapCount ∧ t.display = s.display ∧ t.work = s.work

/-- 10_state.md R27, R28 and 60_exceptions.md R317: the inputs hold. No instruction but SETOBJ and the reset changes the
sprite-status inputs, and none but SETIRQ and the reset the interrupt configuration: no request disarms its source. -/
def Obligations.InputsHoldUntilReloaded : Prop :=
  ∀ (i : Instr) (s t : State), i ≠ .rst → exec i s = .next t →
    ((∀ time range, i ≠ .setobj time range) → t.obj = s.obj) ∧
    ((∀ nmi mode v h, i ≠ .setirq nmi mode v h) → t.irq = s.irq)

/-! ## The compositor -/

/-- 44_compositor.md R262: the row is opaque black and nothing is fetched, so nothing is raised. -/
def Obligations.ForceBlankFillsTheRowBlack : Prop :=
  ∀ (s : State) (line : Nat), s.work.wf = true → s.disp.forceBlank = true →
    (∀ x, x < 256 → (compose line s).work.read (line - s.cfg.desc.fal) x = 0x000000FF#32) ∧
    { compose line s with work := s.work } = s

/-- 44_compositor.md R271: Compose changes only its row of the work buffer, and the fault if a fetch raises. -/
def Obligations.ComposeWritesOnlyItsRow : Prop :=
  ∀ (s : State) (line : Nat), s.work.wf = true →
    { compose line s with work := s.work, fault := s.fault } = s ∧
    (∀ y x, y ≠ line - s.cfg.desc.fal → (compose line s).work.read y x = s.work.read y x) ∧
    (∀ x, 256 ≤ x → (compose line s).work.read (line - s.cfg.desc.fal) x =
      s.work.read (line - s.cfg.desc.fal) x)

/-- 44_compositor.md R260, R263 to R270: each pixel of the row is the backdrop with the drawn layers over it, in the
order of `LAYERS`. -/
def Obligations.ComposedPixelIsTheLayersOverTheBackdrop : Prop :=
  ∀ (s : State) (line x : Nat), s.fault = none → s.work.wf = true → s.disp.forceBlank = false →
    (compose line s).fault = none → x < 256 →
    (compose line s).work.read (line - s.cfg.desc.fal) x =
      s.drawnLayers.foldl (s.pixelOver (line - s.cfg.desc.fal) x) (expand (s.cgRead 0))

/-- 44_compositor.md R272 and 60_exceptions.md R313: Compose raises exactly when a fetch of a drawn layer is out of range;
the record holds the first such fetch in the order of R277; and the row holds the backdrop with what the pixels visited
before it drew. -/
def Obligations.ComposeRaisesExactlyOnAFetchOutOfRange : Prop :=
  ∀ (s : State) (line : Nat), s.fault = none →
    ((compose line s).fault = none ↔
      (s.disp.forceBlank = true ∨
        ∀ n ∈ s.drawnLayers, ∀ x, x < 256 → s.fetchesInRange (line - s.cfg.desc.fal) n x)) ∧
    (s.disp.forceBlank = false →
      (compose line s).fault =
        ((s.visited.flatMap (s.fetchAddrs (line - s.cfg.desc.fal))).find?
          (fun r => (wordIndex s.cfg.vramA15 r).isNone)).map vramWordFault ∧
      (s.work.wf = true → ∀ x, x < 256 →
        (compose line s).work.read (line - s.cfg.desc.fal) x =
          ((s.visitedBeforeRaise (line - s.cfg.desc.fal)).filter (fun p => p.2 == x)).foldl
            (fun below p => s.pixelOver (line - s.cfg.desc.fal) x below p.1) (expand (s.cgRead 0))))

/-- 44_compositor.md R273, R274: brightness, the mode fields and the object enable change no pixel and no fault. -/
def Obligations.StoredFieldsChangeNoPixel : Prop :=
  ∀ (s : State) (line : Nat) (d : DisplayControl), d.forceBlank = s.disp.forceBlank →
    (compose line { s with disp := d }).work = (compose line s).work ∧
    (compose line { s with disp := d }).fault = (compose line s).fault

/-! ## The frame exchange -/

/-- 45_frame_exchange.md R293: the pixel and the count, no state change, and a row outside the grid is refused. -/
def Obligations.DisplayReadReturnsPixelAndCount : Prop :=
  ∀ (s : State) (x y : BitVec 8), s.fault = none →
    (y.toNat < 224 → spells (0x70000000 + y.toNat * 256 + x.toNat) (.dread x y) ∧ exec (.dread x y) s =
      .next { s with replies := s.replies ++ [.pixel (s.display.read y.toNat x.toNat) s.swapCount] }) ∧
    (224 ≤ y.toNat → exec (.dread x y) s = .refused (.word .dreadRow))

/-- 45_frame_exchange.md R290, R296: without a swap or a reset no run changes the display buffer, so the consumer's
reads under one count all see one frame (R294). -/
def Obligations.DisplayHoldsBetweenSwaps : Prop :=
  ∀ (is : List Instr) (s t : State), .rst ∉ is → execAll is s = .next t →
    s.swapCount ≤ t.swapCount ∧ (t.swapCount = s.swapCount → t.display = s.display)

/-! ## Reset and the invariant -/

/-- 70_reset_and_hazards.md R341 with 10_state.md R42: every field to its reset value, the history emptied; the
parameters and the environment's side stay (R343; log 16). -/
def Obligations.ResetClearsEveryField : Prop :=
  spells 0x40000000 .rst ∧ ∀ s : State, s.fault = none →
    exec .rst s = .next { s with
      timing := { hCounter := 0, vCounter := 0, acc := 0, inHBlank := true, inVBlank := true, frameReady := false }
      latch := { latchedH := 0, latchedV := 0, latchFlag := false, ophctPhase := false, opvctPhase := false }
      irq := { nmiArmed := false, irqMode := 0, hTarget := 0, vTarget := 0 }
      obj := { timeOver := false, rangeOver := false }
      disp := { forceBlank := false, brightness := 0, bgMode := 0, bg3Priority := false, objMainEnable := false }
      bg :=
        let b : Background :=
          { tilemapBase := 0, charBase := 0, hScroll := 0, vScroll := 0, enable := false, shadow := 0 }
        { bg1 := b, bg2 := b, bg3 := b, bg4 := b }
      vm := { addr := 0, incCode := 0, remap := 0, triggerHigh := false }
      vram := []
      cgc := { addr := 0, phase := false, latch := 0 }
      cg := []
      work := []
      display := []
      swapCount := 0
      history := [] }

/-- 60_exceptions.md R310 and 70_reset_and_hazards.md R340: construction checks the conditions of 00_scope.md R7 in their
order and names the first that fails; if none fails it gives a block on which a reset changes nothing. No instruction
raises the error. That the two totals, which stand below R7's table, come after its fields, and that no other parameter
is checked, is the model's choice: log 21. -/
def Obligations.ConstructionChecksTheDescriptor : Prop :=
  (∀ c : Config,
    let checks : List (Bool × DescriptorCondition) :=
      [(decide (1 ≤ c.desc.tpd), .tpdAtLeast1), (decide (1 ≤ c.desc.fad), .fadAtLeast1),
       (decide (c.desc.aw = 256), .awIs256), (decide (1 ≤ c.desc.hbw), .hbwAtLeast1),
       (decide (1 ≤ c.desc.fal), .falAtLeast1), (decide (c.desc.ah = 224), .ahIs224),
       (decide (1 ≤ c.desc.vbh), .vbhAtLeast1),
       (decide (c.desc.fad + c.desc.aw + c.desc.hbw ≤ 512), .hTotalAtMost512),
       (decide (c.desc.fal + c.desc.ah + c.desc.vbh ≤ 512), .vTotalAtMost512)]
    (∀ e, State.construct c = .fault (.configurationError e) ↔ (checks.find? (fun p => !p.1)).map (·.2) = some e) ∧
    (checks.all (·.1) = true →
      ∃ s, State.construct c = .next s ∧ s.cfg = c ∧ s.fault = none ∧ s.history = [] ∧ exec .rst s = .next s)) ∧
  (∀ (i : Instr) (s : State) (f : Fault), exec i s ≠ .fault f)

/-- The arrays read as 10_state.md R42's table says in the state right after reset. -/
def Obligations.ResetArraysReadTheirResetValues : Prop :=
  (∀ i, State.reset.vram.read i = 0#8) ∧ (∀ i, State.reset.cg.read i = 0#15) ∧
  (∀ y x, State.reset.work.read y x = 0x000000FF#32) ∧ (∀ y x, State.reset.display.read y x = 0x000000FF#32)

/-- The invariant holds right after construction with any valid parameters, State.reset's among them. -/
def Obligations.ConstructedBlockMeetsTheInvariant : Prop :=
  (∀ c : Config, c.desc.valid = true → c.layers.Nodup → (State.initial c).Inv) ∧ State.reset.Inv

/-- Every step keeps the invariant: 00_scope.md R7, 10_state.md R23, R30, R32, R34, R35, 40_timing.md R139, R141,
60_exceptions.md R311. -/
def Obligations.EveryStepKeepsTheInvariant : Prop :=
  ∀ s t : State, s.Inv → step s = .next t → t.Inv
end

