-- ==== Sys2Proof/Laws/Bits.lean ====
section
/-! SUPPORT. Bit fields and concatenations as arithmetic on numbers. -/

namespace Sys2Proof

/-- A concatenation's number. -/
theorem toNat_append_eq {m n : Nat} (x : BitVec m) (y : BitVec n) :
    (x ++ y).toNat = x.toNat * 2 ^ n + y.toNat := by
  rw [BitVec.toNat_append, ← Nat.shiftLeft_add_eq_or_of_lt y.isLt, Nat.shiftLeft_eq]

/-- A slice's number. -/
theorem toNat_extract_eq {m : Nat} (x : BitVec m) (lo n : Nat) :
    (x.extractLsb' lo n).toNat = x.toNat / 2 ^ lo % 2 ^ n := by
  rw [BitVec.extractLsb'_toNat, Nat.shiftRight_eq_div_pow]

/-- A word field's number. -/
theorem toNat_field (w : Word) (lo n : Nat) : (field w lo n).toNat = w.toNat / 2 ^ lo % 2 ^ n :=
  toNat_extract_eq w lo n

/-- A field is the value its number names. -/
theorem field_eq (w : Word) (lo n : Nat) (v : BitVec n) (h : w.toNat / 2 ^ lo % 2 ^ n = v.toNat) :
    field w lo n = v := BitVec.eq_of_toNat_eq (by rw [toNat_field, h])

/-- A bit's number. -/
theorem getLsbD_eq {m : Nat} (x : BitVec m) (i : Nat) : x.getLsbD i = decide (x.toNat / 2 ^ i % 2 = 1) := by
  rw [← BitVec.testBit_toNat, Nat.testBit_eq_decide_div_mod_eq]

/-- A bit's number, as a number. -/
theorem toNat_getLsbD {m : Nat} (x : BitVec m) (i : Nat) : (x.getLsbD i).toNat = x.toNat / 2 ^ i % 2 := by
  rw [getLsbD_eq]
  by_cases h : x.toNat / 2 ^ i % 2 = 1 <;> simp [h]
  omega

@[simp] theorem toNat_ofBool_eq (b : Bool) : (BitVec.ofBool b).toNat = b.toNat := BitVec.toNat_ofBool b

theorem encodeBusw_toNat (a : BusAddr) (d : Byte) :
    (encodeBusw a d).toNat = 0x10000000 + a.toNat * 256 + d.toNat := by
  simp only [encodeBusw, toNat_append_eq, BitVec.toNat_ofNat]; omega

theorem encodeBusr_toNat (a : BusAddr) : (encodeBusr a).toNat = 0x20000000 + a.toNat * 256 := by
  simp only [encodeBusr, toNat_append_eq, BitVec.toNat_ofNat]; omega

end Sys2Proof
end

