-- ==== Sys2Proof/Laws/Sparse.lean ====
section
/-! SUPPORT. The arrays: reading after writing, and the canonical form. -/

namespace Sys2Proof.Machine

@[simp] theorem Sparse.read_nil {α : Type} (d : α) (k : Nat) : Sparse.read d ([] : Sparse α) k = d := rfl

theorem Sparse.read_of_lt {α : Type} [DecidableEq α] (d : α) (b : Nat) :
    ∀ (m : Sparse α) (lo k : Nat), Sparse.wfFrom d b lo m = true → k < lo → Sparse.read d m k = d := by
  intro m
  induction m with
  | nil => intros; rfl
  | cons e m ih =>
    obtain ⟨a, u⟩ := e
    intro lo k h hk
    simp only [Sparse.wfFrom, Bool.and_eq_true, decide_eq_true_eq] at h
    obtain ⟨⟨⟨hlo, _⟩, _⟩, hm⟩ := h
    have : a ≠ k := by omega
    simp only [Sparse.read, this, if_false]
    exact ih (a + 1) k hm (by omega)

theorem Sparse.wfFrom_mono {α : Type} [DecidableEq α] (d : α) (b : Nat) (m : Sparse α) (lo lo' : Nat)
    (h : Sparse.wfFrom d b lo m = true) (hl : lo' ≤ lo) : Sparse.wfFrom d b lo' m = true := by
  cases m with
  | nil => rfl
  | cons e m =>
    obtain ⟨a, u⟩ := e
    simp only [Sparse.wfFrom, Bool.and_eq_true, decide_eq_true_eq] at h ⊢
    exact ⟨⟨⟨by omega, h.1.1.2⟩, h.1.2⟩, h.2⟩

/-- A write keeps the canonical form, from the lower of the old start and the key on. -/
theorem Sparse.wfFrom_write {α : Type} [DecidableEq α] (d : α) (b k : Nat) (v : α) (hk : k < b) :
    ∀ (m : Sparse α) (lo : Nat), lo ≤ k → Sparse.wfFrom d b lo m = true →
      Sparse.wfFrom d b lo (Sparse.write d m k v) = true := by
  intro m
  induction m with
  | nil =>
    intro lo hlo _
    by_cases hv : v = d <;> simp [Sparse.write, Sparse.wfFrom, hv, hlo, hk]
  | cons e m ih =>
    obtain ⟨a, u⟩ := e
    intro lo hlo h
    have h' := h
    simp only [Sparse.wfFrom, Bool.and_eq_true, decide_eq_true_eq] at h'
    obtain ⟨⟨⟨hla, hab⟩, hud⟩, hm⟩ := h'
    simp only [Sparse.write]
    split
    · split
      · exact h
      · simp only [Sparse.wfFrom, Bool.and_eq_true, decide_eq_true_eq]
        exact ⟨⟨⟨hlo, hk⟩, ‹_›⟩, ⟨⟨by omega, hab⟩, hud⟩, hm⟩
    · split
      · split
        · exact Sparse.wfFrom_mono d b m (a + 1) lo hm (by omega)
        · subst_vars
          simp only [Sparse.wfFrom, Bool.and_eq_true, decide_eq_true_eq]
          exact ⟨⟨⟨hlo, hk⟩, ‹_›⟩, hm⟩
      · simp only [Sparse.wfFrom, Bool.and_eq_true, decide_eq_true_eq]
        exact ⟨⟨⟨hla, hab⟩, hud⟩, ih (a + 1) (by omega) hm⟩

/-- Reading after writing, at any key. Where an entry is removed the form matters: a list with a key twice would show
the second entry. -/
theorem Sparse.read_write_wfFrom {α : Type} [DecidableEq α] (d : α) (b k j : Nat) (v : α) :
    ∀ (m : Sparse α) (lo : Nat), Sparse.wfFrom d b lo m = true →
      Sparse.read d (Sparse.write d m k v) j = if j = k then v else Sparse.read d m j := by
  intro m
  induction m with
  | nil =>
    intro lo _
    by_cases hv : v = d <;> by_cases hj : j = k <;> simp [Sparse.write, Sparse.read, hv, hj]
    exact fun h => absurd h.symm hj
  | cons e m ih =>
    obtain ⟨a, u⟩ := e
    intro lo h
    simp only [Sparse.wfFrom, Bool.and_eq_true, decide_eq_true_eq] at h
    obtain ⟨⟨⟨_, _⟩, hud⟩, hm⟩ := h
    have hrest : ∀ i, i ≤ a → Sparse.read d m i = d := fun i hi =>
      Sparse.read_of_lt d b m (a + 1) i hm (by omega)
    have := ih (a + 1) hm
    simp only [Sparse.write]
    split
    · by_cases hv : v = d
      · by_cases hj : j = k
        · subst hj; subst hv
          simp [Sparse.read, show a ≠ j by omega, hrest j (by omega)]
        · simp [hv, hj]
      · by_cases hj : j = k
        · simp [Sparse.read, hv, hj]
        · simp [Sparse.read, hv, hj, Ne.symm hj]
    · split
      · subst_vars
        by_cases hv : v = d
        · by_cases hj : j = a
          · subst hj; subst hv; simp [hrest j (le_refl _)]
          · simp [Sparse.read, hv, hj, Ne.symm hj]
        · by_cases hj : j = a
          · simp [Sparse.read, hv, hj]
          · simp [Sparse.read, hv, hj, Ne.symm hj]
      · simp only [Sparse.read]
        split
        · subst_vars; simp [show a ≠ k by omega]
        · exact this

/-! ## Byte memory -/

theorem Memory.read_write {m : Memory} (h : m.wf = true) (i j : Nat) (v : Byte) :
    (m.write i v).read j = if j = i then v else m.read j :=
  Sparse.read_write_wfFrom _ _ _ _ _ m 0 h

/-- A write inside the memory keeps the canonical form. -/
theorem Memory.wf_write {m : Memory} (h : m.wf = true) (i : Nat) (v : Byte) (hi : i < 65536) :
    (m.write i v).wf = true := Sparse.wfFrom_write _ _ _ _ hi m 0 (Nat.zero_le _) h

@[simp] theorem Memory.wf_nil : Memory.wf [] = true := rfl

@[simp] theorem Memory.read_nil (i : Nat) : Memory.read [] i = 0#8 := rfl

/-! ## The colour table -/

theorem Palette.read_write {m : Palette} (h : m.wf = true) (i j : Nat) (v : Colour) :
    (m.write i v).read j = if j = i then v else m.read j :=
  Sparse.read_write_wfFrom _ _ _ _ _ m 0 h

/-- A write inside the table keeps the canonical form. -/
theorem Palette.wf_write {m : Palette} (h : m.wf = true) (i : Nat) (v : Colour) (hi : i < 256) :
    (m.write i v).wf = true := Sparse.wfFrom_write _ _ _ _ hi m 0 (Nat.zero_le _) h

@[simp] theorem Palette.wf_nil : Palette.wf [] = true := rfl

@[simp] theorem Palette.read_nil (i : Nat) : Palette.read [] i = 0#15 := rfl

/-! ## Frame buffers -/

/-- Writing another value keeps what holds of every entry, if it holds of the value written. -/
theorem Sparse.all_write {α : Type} [DecidableEq α] (d : α) (q : α → Bool) (k : Nat) (v : α) (hv : q v = true) :
    ∀ m : Sparse α, m.all (fun r => q r.2) = true → (Sparse.write d m k v).all (fun r => q r.2) = true := by
  intro m
  induction m with
  | nil => intro _; by_cases h : v = d <;> simp [Sparse.write, h]; simpa [h] using hv
  | cons e m ih =>
    obtain ⟨a, u⟩ := e
    intro h
    simp only [List.all_cons, Bool.and_eq_true] at h
    simp only [Sparse.write]
    split
    · split <;> simp [h, hv]
    · split
      · split <;> simp [h, hv]
      · simp only [List.all_cons, Bool.and_eq_true]
        exact ⟨h.1, ih h.2⟩

/-- What holds of every entry and of the default holds of what is read. -/
theorem Sparse.all_read {α : Type} (d : α) (q : α → Bool) (k : Nat) (hd : q d = true) :
    ∀ m : Sparse α, m.all (fun r => q r.2) = true → q (Sparse.read d m k) = true := by
  intro m
  induction m with
  | nil => intro _; exact hd
  | cons e m ih =>
    obtain ⟨a, u⟩ := e
    intro h
    simp only [List.all_cons, Bool.and_eq_true] at h
    simp only [Sparse.read]
    split
    · exact h.1
    · exact ih h.2

/-- The canonical form of a frame of `b` rows: `Frame.wf` is that of 224. The proofs that write a row of any number use
it. -/
def Frame.wfIn (b : Nat) (f : Frame) : Bool := Sparse.wf [] b f && f.all (fun r => Sparse.wf opaqueBlack 256 r.2)

theorem Frame.wf_eq (f : Frame) : f.wf = f.wfIn 224 := rfl

theorem Sparse.wfFrom_bound {α : Type} [DecidableEq α] (d : α) (b b' : Nat) (hb : b ≤ b') :
    ∀ (m : Sparse α) (lo : Nat), Sparse.wfFrom d b lo m = true → Sparse.wfFrom d b' lo m = true := by
  intro m
  induction m with
  | nil => intros; rfl
  | cons e m ih =>
    obtain ⟨a, u⟩ := e
    intro lo h
    simp only [Sparse.wfFrom, Bool.and_eq_true, decide_eq_true_eq] at h ⊢
    exact ⟨⟨⟨h.1.1.1, by omega⟩, h.1.2⟩, ih (a + 1) h.2⟩

theorem Frame.wfIn_bound {f : Frame} {b b' : Nat} (hb : b ≤ b') (h : f.wfIn b = true) : f.wfIn b' = true := by
  simp only [Frame.wfIn, Bool.and_eq_true] at h ⊢
  exact ⟨Sparse.wfFrom_bound _ _ _ hb _ _ h.1, h.2⟩

/-- Each row of a frame in canonical form is in canonical form. -/
theorem Frame.row_wf {f : Frame} {b : Nat} (h : f.wfIn b = true) (y : Nat) :
    Sparse.wf opaqueBlack 256 (Sparse.read [] f y) = true := by
  simp only [Frame.wfIn, Bool.and_eq_true] at h
  exact Sparse.all_read [] (Sparse.wf opaqueBlack 256) y rfl f h.2

theorem Frame.read_write {f : Frame} {b : Nat} (h : f.wfIn b = true) (y x y' x' : Nat) (p : Pixel) :
    (f.write y x p).read y' x' = if y' = y ∧ x' = x then p else f.read y' x' := by
  have hr := Frame.row_wf h y
  simp only [Frame.wfIn, Bool.and_eq_true] at h
  unfold Frame.write Frame.read
  rw [Sparse.read_write_wfFrom [] b y y' _ f 0 h.1]
  by_cases hy : y' = y
  · subst hy
    simp only [if_true, true_and]
    exact Sparse.read_write_wfFrom opaqueBlack 256 x x' p _ 0 hr
  · simp [hy]

/-- A write inside the grid keeps the canonical form. -/
theorem Frame.wfIn_write {f : Frame} {b : Nat} (h : f.wfIn b = true) (y x : Nat) (p : Pixel) (hy : y < b)
    (hx : x < 256) : (f.write y x p).wfIn b = true := by
  have hr := Frame.row_wf h y
  simp only [Frame.wfIn, Bool.and_eq_true] at h ⊢
  exact ⟨Sparse.wfFrom_write _ _ _ _ hy f 0 (Nat.zero_le _) h.1,
    Sparse.all_write [] (Sparse.wf opaqueBlack 256) y _
      (Sparse.wfFrom_write _ _ _ _ hx _ 0 (Nat.zero_le _) hr) f h.2⟩

@[simp] theorem Frame.wf_nil : Frame.wf [] = true := rfl

@[simp] theorem Frame.read_nil (y x : Nat) : Frame.read [] y x = opaqueBlack := rfl

end Sys2Proof.Machine
end

