-- ==== Sys2Proof/Laws/State.lean ====
section
/-! SUPPORT. What each update of the state leaves in each field, true by definition. -/

namespace Sys2Proof.Machine

theorem State.live_of_running {s : State} (h : s.fault = none) (f : State → State) : s.live f = f s := by
  simp [State.live, h]

theorem State.live_of_halted {s : State} {e : FaultRecord} (h : s.fault = some e) (f : State → State) :
    s.live f = s := by simp [State.live, h]

theorem State.perform_of_running {s : State} (h : s.fault = none) (f : State → State) :
    s.perform f = .next (f s) := by simp [State.perform, State.live, h]

theorem State.perform_of_halted {s : State} {e : FaultRecord} (h : s.fault = some e) (f : State → State) :
    s.perform f = .next s := by simp [State.perform, State.live, h]

/-- `live` keeps whatever `f` keeps. -/
theorem State.live_keeps {s : State} {f : State → State} {P : State → Prop} (hs : P s)
    (hf : s.fault = none → P (f s)) : P (s.live f) := by
  unfold State.live
  split
  · exact hf ‹_›
  · exact hs

@[simp] theorem State.emit_cfg (s : State) (e : Event) : (s.emit e).cfg = s.cfg := rfl
@[simp] theorem State.emit_timing (s : State) (e : Event) : (s.emit e).timing = s.timing := rfl
@[simp] theorem State.emit_latch (s : State) (e : Event) : (s.emit e).latch = s.latch := rfl
@[simp] theorem State.emit_irq (s : State) (e : Event) : (s.emit e).irq = s.irq := rfl
@[simp] theorem State.emit_obj (s : State) (e : Event) : (s.emit e).obj = s.obj := rfl
@[simp] theorem State.emit_disp (s : State) (e : Event) : (s.emit e).disp = s.disp := rfl
@[simp] theorem State.emit_bg (s : State) (e : Event) : (s.emit e).bg = s.bg := rfl
@[simp] theorem State.emit_vm (s : State) (e : Event) : (s.emit e).vm = s.vm := rfl
@[simp] theorem State.emit_vram (s : State) (e : Event) : (s.emit e).vram = s.vram := rfl
@[simp] theorem State.emit_cgc (s : State) (e : Event) : (s.emit e).cgc = s.cgc := rfl
@[simp] theorem State.emit_cg (s : State) (e : Event) : (s.emit e).cg = s.cg := rfl
@[simp] theorem State.emit_work (s : State) (e : Event) : (s.emit e).work = s.work := rfl
@[simp] theorem State.emit_display (s : State) (e : Event) : (s.emit e).display = s.display := rfl
@[simp] theorem State.emit_swapCount (s : State) (e : Event) : (s.emit e).swapCount = s.swapCount := rfl
@[simp] theorem State.emit_fault (s : State) (e : Event) : (s.emit e).fault = s.fault := rfl
@[simp] theorem State.emit_history (s : State) (e : Event) : (s.emit e).history = s.history ++ [e] := rfl
@[simp] theorem State.emit_input (s : State) (e : Event) : (s.emit e).input = s.input := rfl
@[simp] theorem State.emit_draws (s : State) (e : Event) : (s.emit e).draws = s.draws := rfl
@[simp] theorem State.emit_consumer (s : State) (e : Event) : (s.emit e).consumer = s.consumer := rfl
@[simp] theorem State.emit_replies (s : State) (e : Event) : (s.emit e).replies = s.replies := rfl

@[simp] theorem State.reply_cfg (s : State) (r : Reply) : (s.reply r).cfg = s.cfg := rfl
@[simp] theorem State.reply_timing (s : State) (r : Reply) : (s.reply r).timing = s.timing := rfl
@[simp] theorem State.reply_latch (s : State) (r : Reply) : (s.reply r).latch = s.latch := rfl
@[simp] theorem State.reply_irq (s : State) (r : Reply) : (s.reply r).irq = s.irq := rfl
@[simp] theorem State.reply_obj (s : State) (r : Reply) : (s.reply r).obj = s.obj := rfl
@[simp] theorem State.reply_disp (s : State) (r : Reply) : (s.reply r).disp = s.disp := rfl
@[simp] theorem State.reply_bg (s : State) (r : Reply) : (s.reply r).bg = s.bg := rfl
@[simp] theorem State.reply_vm (s : State) (r : Reply) : (s.reply r).vm = s.vm := rfl
@[simp] theorem State.reply_vram (s : State) (r : Reply) : (s.reply r).vram = s.vram := rfl
@[simp] theorem State.reply_cgc (s : State) (r : Reply) : (s.reply r).cgc = s.cgc := rfl
@[simp] theorem State.reply_cg (s : State) (r : Reply) : (s.reply r).cg = s.cg := rfl
@[simp] theorem State.reply_work (s : State) (r : Reply) : (s.reply r).work = s.work := rfl
@[simp] theorem State.reply_display (s : State) (r : Reply) : (s.reply r).display = s.display := rfl
@[simp] theorem State.reply_swapCount (s : State) (r : Reply) : (s.reply r).swapCount = s.swapCount := rfl
@[simp] theorem State.reply_fault (s : State) (r : Reply) : (s.reply r).fault = s.fault := rfl
@[simp] theorem State.reply_history (s : State) (r : Reply) : (s.reply r).history = s.history := rfl
@[simp] theorem State.reply_input (s : State) (r : Reply) : (s.reply r).input = s.input := rfl
@[simp] theorem State.reply_draws (s : State) (r : Reply) : (s.reply r).draws = s.draws := rfl
@[simp] theorem State.reply_consumer (s : State) (r : Reply) : (s.reply r).consumer = s.consumer := rfl
@[simp] theorem State.reply_replies (s : State) (r : Reply) : (s.reply r).replies = s.replies ++ [r] := rfl

@[simp] theorem State.raise_cfg (s : State) (r : Nat) : (s.raise r).cfg = s.cfg := rfl
@[simp] theorem State.raise_timing (s : State) (r : Nat) : (s.raise r).timing = s.timing := rfl
@[simp] theorem State.raise_latch (s : State) (r : Nat) : (s.raise r).latch = s.latch := rfl
@[simp] theorem State.raise_irq (s : State) (r : Nat) : (s.raise r).irq = s.irq := rfl
@[simp] theorem State.raise_obj (s : State) (r : Nat) : (s.raise r).obj = s.obj := rfl
@[simp] theorem State.raise_disp (s : State) (r : Nat) : (s.raise r).disp = s.disp := rfl
@[simp] theorem State.raise_bg (s : State) (r : Nat) : (s.raise r).bg = s.bg := rfl
@[simp] theorem State.raise_vm (s : State) (r : Nat) : (s.raise r).vm = s.vm := rfl
@[simp] theorem State.raise_vram (s : State) (r : Nat) : (s.raise r).vram = s.vram := rfl
@[simp] theorem State.raise_cgc (s : State) (r : Nat) : (s.raise r).cgc = s.cgc := rfl
@[simp] theorem State.raise_cg (s : State) (r : Nat) : (s.raise r).cg = s.cg := rfl
@[simp] theorem State.raise_work (s : State) (r : Nat) : (s.raise r).work = s.work := rfl
@[simp] theorem State.raise_display (s : State) (r : Nat) : (s.raise r).display = s.display := rfl
@[simp] theorem State.raise_swapCount (s : State) (r : Nat) : (s.raise r).swapCount = s.swapCount := rfl
@[simp] theorem State.raise_fault (s : State) (r : Nat) :
    (s.raise r).fault = some { code := .addressingInvariantViolation, info := .vramWord r } := rfl
@[simp] theorem State.raise_history (s : State) (r : Nat) : (s.raise r).history = s.history := rfl
@[simp] theorem State.raise_input (s : State) (r : Nat) : (s.raise r).input = s.input := rfl
@[simp] theorem State.raise_draws (s : State) (r : Nat) : (s.raise r).draws = s.draws := rfl
@[simp] theorem State.raise_consumer (s : State) (r : Nat) : (s.raise r).consumer = s.consumer := rfl
@[simp] theorem State.raise_replies (s : State) (r : Nat) : (s.raise r).replies = s.replies := rfl

@[simp] theorem State.vramWrite8_cfg (s : State) (i : Nat) (v : Byte) : (s.vramWrite8 i v).cfg = s.cfg := rfl
@[simp] theorem State.vramWrite8_timing (s : State) (i : Nat) (v : Byte) : (s.vramWrite8 i v).timing = s.timing := rfl
@[simp] theorem State.vramWrite8_latch (s : State) (i : Nat) (v : Byte) : (s.vramWrite8 i v).latch = s.latch := rfl
@[simp] theorem State.vramWrite8_irq (s : State) (i : Nat) (v : Byte) : (s.vramWrite8 i v).irq = s.irq := rfl
@[simp] theorem State.vramWrite8_obj (s : State) (i : Nat) (v : Byte) : (s.vramWrite8 i v).obj = s.obj := rfl
@[simp] theorem State.vramWrite8_disp (s : State) (i : Nat) (v : Byte) : (s.vramWrite8 i v).disp = s.disp := rfl
@[simp] theorem State.vramWrite8_bg (s : State) (i : Nat) (v : Byte) : (s.vramWrite8 i v).bg = s.bg := rfl
@[simp] theorem State.vramWrite8_vm (s : State) (i : Nat) (v : Byte) : (s.vramWrite8 i v).vm = s.vm := rfl
@[simp] theorem State.vramWrite8_vram (s : State) (i : Nat) (v : Byte) :
    (s.vramWrite8 i v).vram = s.vram.write i v := rfl
@[simp] theorem State.vramWrite8_cgc (s : State) (i : Nat) (v : Byte) : (s.vramWrite8 i v).cgc = s.cgc := rfl
@[simp] theorem State.vramWrite8_cg (s : State) (i : Nat) (v : Byte) : (s.vramWrite8 i v).cg = s.cg := rfl
@[simp] theorem State.vramWrite8_work (s : State) (i : Nat) (v : Byte) : (s.vramWrite8 i v).work = s.work := rfl
@[simp] theorem State.vramWrite8_display (s : State) (i : Nat) (v : Byte) :
    (s.vramWrite8 i v).display = s.display := rfl
@[simp] theorem State.vramWrite8_swapCount (s : State) (i : Nat) (v : Byte) :
    (s.vramWrite8 i v).swapCount = s.swapCount := rfl
@[simp] theorem State.vramWrite8_fault (s : State) (i : Nat) (v : Byte) : (s.vramWrite8 i v).fault = s.fault := rfl
@[simp] theorem State.vramWrite8_history (s : State) (i : Nat) (v : Byte) :
    (s.vramWrite8 i v).history = s.history := rfl
@[simp] theorem State.vramWrite8_input (s : State) (i : Nat) (v : Byte) : (s.vramWrite8 i v).input = s.input := rfl
@[simp] theorem State.vramWrite8_draws (s : State) (i : Nat) (v : Byte) : (s.vramWrite8 i v).draws = s.draws := rfl
@[simp] theorem State.vramWrite8_consumer (s : State) (i : Nat) (v : Byte) :
    (s.vramWrite8 i v).consumer = s.consumer := rfl
@[simp] theorem State.vramWrite8_replies (s : State) (i : Nat) (v : Byte) :
    (s.vramWrite8 i v).replies = s.replies := rfl

@[simp] theorem State.cgWrite_cfg (s : State) (i : Nat) (c : Colour) : (s.cgWrite i c).cfg = s.cfg := rfl
@[simp] theorem State.cgWrite_timing (s : State) (i : Nat) (c : Colour) : (s.cgWrite i c).timing = s.timing := rfl
@[simp] theorem State.cgWrite_latch (s : State) (i : Nat) (c : Colour) : (s.cgWrite i c).latch = s.latch := rfl
@[simp] theorem State.cgWrite_irq (s : State) (i : Nat) (c : Colour) : (s.cgWrite i c).irq = s.irq := rfl
@[simp] theorem State.cgWrite_obj (s : State) (i : Nat) (c : Colour) : (s.cgWrite i c).obj = s.obj := rfl
@[simp] theorem State.cgWrite_disp (s : State) (i : Nat) (c : Colour) : (s.cgWrite i c).disp = s.disp := rfl
@[simp] theorem State.cgWrite_bg (s : State) (i : Nat) (c : Colour) : (s.cgWrite i c).bg = s.bg := rfl
@[simp] theorem State.cgWrite_vm (s : State) (i : Nat) (c : Colour) : (s.cgWrite i c).vm = s.vm := rfl
@[simp] theorem State.cgWrite_vram (s : State) (i : Nat) (c : Colour) : (s.cgWrite i c).vram = s.vram := rfl
@[simp] theorem State.cgWrite_cgc (s : State) (i : Nat) (c : Colour) : (s.cgWrite i c).cgc = s.cgc := rfl
@[simp] theorem State.cgWrite_cg (s : State) (i : Nat) (c : Colour) : (s.cgWrite i c).cg = s.cg.write i c := rfl
@[simp] theorem State.cgWrite_work (s : State) (i : Nat) (c : Colour) : (s.cgWrite i c).work = s.work := rfl
@[simp] theorem State.cgWrite_display (s : State) (i : Nat) (c : Colour) : (s.cgWrite i c).display = s.display := rfl
@[simp] theorem State.cgWrite_swapCount (s : State) (i : Nat) (c : Colour) :
    (s.cgWrite i c).swapCount = s.swapCount := rfl
@[simp] theorem State.cgWrite_fault (s : State) (i : Nat) (c : Colour) : (s.cgWrite i c).fault = s.fault := rfl
@[simp] theorem State.cgWrite_history (s : State) (i : Nat) (c : Colour) : (s.cgWrite i c).history = s.history := rfl
@[simp] theorem State.cgWrite_input (s : State) (i : Nat) (c : Colour) : (s.cgWrite i c).input = s.input := rfl
@[simp] theorem State.cgWrite_draws (s : State) (i : Nat) (c : Colour) : (s.cgWrite i c).draws = s.draws := rfl
@[simp] theorem State.cgWrite_consumer (s : State) (i : Nat) (c : Colour) : (s.cgWrite i c).consumer = s.consumer := rfl
@[simp] theorem State.cgWrite_replies (s : State) (i : Nat) (c : Colour) : (s.cgWrite i c).replies = s.replies := rfl

@[simp] theorem State.fbWrite_cfg (s : State) (y x : Nat) (p : Pixel) : (s.fbWrite y x p).cfg = s.cfg := rfl
@[simp] theorem State.fbWrite_timing (s : State) (y x : Nat) (p : Pixel) : (s.fbWrite y x p).timing = s.timing := rfl
@[simp] theorem State.fbWrite_latch (s : State) (y x : Nat) (p : Pixel) : (s.fbWrite y x p).latch = s.latch := rfl
@[simp] theorem State.fbWrite_irq (s : State) (y x : Nat) (p : Pixel) : (s.fbWrite y x p).irq = s.irq := rfl
@[simp] theorem State.fbWrite_obj (s : State) (y x : Nat) (p : Pixel) : (s.fbWrite y x p).obj = s.obj := rfl
@[simp] theorem State.fbWrite_disp (s : State) (y x : Nat) (p : Pixel) : (s.fbWrite y x p).disp = s.disp := rfl
@[simp] theorem State.fbWrite_bg (s : State) (y x : Nat) (p : Pixel) : (s.fbWrite y x p).bg = s.bg := rfl
@[simp] theorem State.fbWrite_vm (s : State) (y x : Nat) (p : Pixel) : (s.fbWrite y x p).vm = s.vm := rfl
@[simp] theorem State.fbWrite_vram (s : State) (y x : Nat) (p : Pixel) : (s.fbWrite y x p).vram = s.vram := rfl
@[simp] theorem State.fbWrite_cgc (s : State) (y x : Nat) (p : Pixel) : (s.fbWrite y x p).cgc = s.cgc := rfl
@[simp] theorem State.fbWrite_cg (s : State) (y x : Nat) (p : Pixel) : (s.fbWrite y x p).cg = s.cg := rfl
@[simp] theorem State.fbWrite_work (s : State) (y x : Nat) (p : Pixel) :
    (s.fbWrite y x p).work = s.work.write y x p := rfl
@[simp] theorem State.fbWrite_display (s : State) (y x : Nat) (p : Pixel) : (s.fbWrite y x p).display = s.display := rfl
@[simp] theorem State.fbWrite_swapCount (s : State) (y x : Nat) (p : Pixel) :
    (s.fbWrite y x p).swapCount = s.swapCount := rfl
@[simp] theorem State.fbWrite_fault (s : State) (y x : Nat) (p : Pixel) : (s.fbWrite y x p).fault = s.fault := rfl
@[simp] theorem State.fbWrite_history (s : State) (y x : Nat) (p : Pixel) : (s.fbWrite y x p).history = s.history := rfl
@[simp] theorem State.fbWrite_input (s : State) (y x : Nat) (p : Pixel) : (s.fbWrite y x p).input = s.input := rfl
@[simp] theorem State.fbWrite_draws (s : State) (y x : Nat) (p : Pixel) : (s.fbWrite y x p).draws = s.draws := rfl
@[simp] theorem State.fbWrite_consumer (s : State) (y x : Nat) (p : Pixel) :
    (s.fbWrite y x p).consumer = s.consumer := rfl
@[simp] theorem State.fbWrite_replies (s : State) (y x : Nat) (p : Pixel) : (s.fbWrite y x p).replies = s.replies := rfl

@[simp] theorem State.setBg_cfg (s : State) (n : BgIdx) (r : Background) : (s.setBg n r).cfg = s.cfg := rfl
@[simp] theorem State.setBg_timing (s : State) (n : BgIdx) (r : Background) : (s.setBg n r).timing = s.timing := rfl
@[simp] theorem State.setBg_latch (s : State) (n : BgIdx) (r : Background) : (s.setBg n r).latch = s.latch := rfl
@[simp] theorem State.setBg_irq (s : State) (n : BgIdx) (r : Background) : (s.setBg n r).irq = s.irq := rfl
@[simp] theorem State.setBg_obj (s : State) (n : BgIdx) (r : Background) : (s.setBg n r).obj = s.obj := rfl
@[simp] theorem State.setBg_disp (s : State) (n : BgIdx) (r : Background) : (s.setBg n r).disp = s.disp := rfl
@[simp] theorem State.setBg_bg (s : State) (n : BgIdx) (r : Background) : (s.setBg n r).bg = s.bg.set n r := rfl
@[simp] theorem State.setBg_vm (s : State) (n : BgIdx) (r : Background) : (s.setBg n r).vm = s.vm := rfl
@[simp] theorem State.setBg_vram (s : State) (n : BgIdx) (r : Background) : (s.setBg n r).vram = s.vram := rfl
@[simp] theorem State.setBg_cgc (s : State) (n : BgIdx) (r : Background) : (s.setBg n r).cgc = s.cgc := rfl
@[simp] theorem State.setBg_cg (s : State) (n : BgIdx) (r : Background) : (s.setBg n r).cg = s.cg := rfl
@[simp] theorem State.setBg_work (s : State) (n : BgIdx) (r : Background) : (s.setBg n r).work = s.work := rfl
@[simp] theorem State.setBg_display (s : State) (n : BgIdx) (r : Background) : (s.setBg n r).display = s.display := rfl
@[simp] theorem State.setBg_swapCount (s : State) (n : BgIdx) (r : Background) :
    (s.setBg n r).swapCount = s.swapCount := rfl
@[simp] theorem State.setBg_fault (s : State) (n : BgIdx) (r : Background) : (s.setBg n r).fault = s.fault := rfl
@[simp] theorem State.setBg_history (s : State) (n : BgIdx) (r : Background) : (s.setBg n r).history = s.history := rfl
@[simp] theorem State.setBg_input (s : State) (n : BgIdx) (r : Background) : (s.setBg n r).input = s.input := rfl
@[simp] theorem State.setBg_draws (s : State) (n : BgIdx) (r : Background) : (s.setBg n r).draws = s.draws := rfl
@[simp] theorem State.setBg_consumer (s : State) (n : BgIdx) (r : Background) :
    (s.setBg n r).consumer = s.consumer := rfl
@[simp] theorem State.setBg_replies (s : State) (n : BgIdx) (r : Background) : (s.setBg n r).replies = s.replies := rfl

theorem State.logUnmapped_eq (s : State) (d : BusDir) (a : BusAddr) :
    s.logUnmapped d a = { s with history := s.history ++ if s.cfg.logUnmapped then [.unmapped d a] else [] } := by
  unfold State.logUnmapped
  split <;> simp [State.emit, *]

theorem State.advanceAfter_eq (s : State) (h : Half) :
    s.advanceAfter h = { s with vm := { s.vm with
      addr := if h = triggerHalf s.vm.triggerHigh then s.vm.addr + incOf s.vm.incCode else s.vm.addr } } := by
  unfold State.advanceAfter
  split <;> rfl

@[simp] theorem State.advanceAfter_cfg (s : State) (h : Half) : (s.advanceAfter h).cfg = s.cfg := by
  rw [State.advanceAfter_eq]
@[simp] theorem State.advanceAfter_timing (s : State) (h : Half) : (s.advanceAfter h).timing = s.timing := by
  rw [State.advanceAfter_eq]
@[simp] theorem State.advanceAfter_latch (s : State) (h : Half) : (s.advanceAfter h).latch = s.latch := by
  rw [State.advanceAfter_eq]
@[simp] theorem State.advanceAfter_irq (s : State) (h : Half) : (s.advanceAfter h).irq = s.irq := by
  rw [State.advanceAfter_eq]
@[simp] theorem State.advanceAfter_obj (s : State) (h : Half) : (s.advanceAfter h).obj = s.obj := by
  rw [State.advanceAfter_eq]
@[simp] theorem State.advanceAfter_disp (s : State) (h : Half) : (s.advanceAfter h).disp = s.disp := by
  rw [State.advanceAfter_eq]
@[simp] theorem State.advanceAfter_bg (s : State) (h : Half) : (s.advanceAfter h).bg = s.bg := by
  rw [State.advanceAfter_eq]
@[simp] theorem State.advanceAfter_vram (s : State) (h : Half) : (s.advanceAfter h).vram = s.vram := by
  rw [State.advanceAfter_eq]
@[simp] theorem State.advanceAfter_cgc (s : State) (h : Half) : (s.advanceAfter h).cgc = s.cgc := by
  rw [State.advanceAfter_eq]
@[simp] theorem State.advanceAfter_cg (s : State) (h : Half) : (s.advanceAfter h).cg = s.cg := by
  rw [State.advanceAfter_eq]
@[simp] theorem State.advanceAfter_work (s : State) (h : Half) : (s.advanceAfter h).work = s.work := by
  rw [State.advanceAfter_eq]
@[simp] theorem State.advanceAfter_display (s : State) (h : Half) : (s.advanceAfter h).display = s.display := by
  rw [State.advanceAfter_eq]
@[simp] theorem State.advanceAfter_swapCount (s : State) (h : Half) : (s.advanceAfter h).swapCount = s.swapCount := by
  rw [State.advanceAfter_eq]
@[simp] theorem State.advanceAfter_fault (s : State) (h : Half) : (s.advanceAfter h).fault = s.fault := by
  rw [State.advanceAfter_eq]
@[simp] theorem State.advanceAfter_history (s : State) (h : Half) : (s.advanceAfter h).history = s.history := by
  rw [State.advanceAfter_eq]
@[simp] theorem State.advanceAfter_input (s : State) (h : Half) : (s.advanceAfter h).input = s.input := by
  rw [State.advanceAfter_eq]
@[simp] theorem State.advanceAfter_draws (s : State) (h : Half) : (s.advanceAfter h).draws = s.draws := by
  rw [State.advanceAfter_eq]
@[simp] theorem State.advanceAfter_consumer (s : State) (h : Half) : (s.advanceAfter h).consumer = s.consumer := by
  rw [State.advanceAfter_eq]
@[simp] theorem State.advanceAfter_replies (s : State) (h : Half) : (s.advanceAfter h).replies = s.replies := by
  rw [State.advanceAfter_eq]

@[simp] theorem State.logUnmapped_cfg (s : State) (d : BusDir) (a : BusAddr) : (s.logUnmapped d a).cfg = s.cfg := by
  rw [State.logUnmapped_eq]
@[simp] theorem State.logUnmapped_timing (s : State) (d : BusDir) (a : BusAddr) :
    (s.logUnmapped d a).timing = s.timing := by
  rw [State.logUnmapped_eq]
@[simp] theorem State.logUnmapped_latch (s : State) (d : BusDir) (a : BusAddr) :
    (s.logUnmapped d a).latch = s.latch := by
  rw [State.logUnmapped_eq]
@[simp] theorem State.logUnmapped_irq (s : State) (d : BusDir) (a : BusAddr) : (s.logUnmapped d a).irq = s.irq := by
  rw [State.logUnmapped_eq]
@[simp] theorem State.logUnmapped_obj (s : State) (d : BusDir) (a : BusAddr) : (s.logUnmapped d a).obj = s.obj := by
  rw [State.logUnmapped_eq]
@[simp] theorem State.logUnmapped_disp (s : State) (d : BusDir) (a : BusAddr) : (s.logUnmapped d a).disp = s.disp := by
  rw [State.logUnmapped_eq]
@[simp] theorem State.logUnmapped_bg (s : State) (d : BusDir) (a : BusAddr) : (s.logUnmapped d a).bg = s.bg := by
  rw [State.logUnmapped_eq]
@[simp] theorem State.logUnmapped_vm (s : State) (d : BusDir) (a : BusAddr) : (s.logUnmapped d a).vm = s.vm := by
  rw [State.logUnmapped_eq]
@[simp] theorem State.logUnmapped_vram (s : State) (d : BusDir) (a : BusAddr) : (s.logUnmapped d a).vram = s.vram := by
  rw [State.logUnmapped_eq]
@[simp] theorem State.logUnmapped_cgc (s : State) (d : BusDir) (a : BusAddr) : (s.logUnmapped d a).cgc = s.cgc := by
  rw [State.logUnmapped_eq]
@[simp] theorem State.logUnmapped_cg (s : State) (d : BusDir) (a : BusAddr) : (s.logUnmapped d a).cg = s.cg := by
  rw [State.logUnmapped_eq]
@[simp] theorem State.logUnmapped_work (s : State) (d : BusDir) (a : BusAddr) : (s.logUnmapped d a).work = s.work := by
  rw [State.logUnmapped_eq]
@[simp] theorem State.logUnmapped_display (s : State) (d : BusDir) (a : BusAddr) :
    (s.logUnmapped d a).display = s.display := by
  rw [State.logUnmapped_eq]
@[simp] theorem State.logUnmapped_swapCount (s : State) (d : BusDir) (a : BusAddr) :
    (s.logUnmapped d a).swapCount = s.swapCount := by
  rw [State.logUnmapped_eq]
@[simp] theorem State.logUnmapped_fault (s : State) (d : BusDir) (a : BusAddr) :
    (s.logUnmapped d a).fault = s.fault := by
  rw [State.logUnmapped_eq]
@[simp] theorem State.logUnmapped_input (s : State) (d : BusDir) (a : BusAddr) :
    (s.logUnmapped d a).input = s.input := by
  rw [State.logUnmapped_eq]
@[simp] theorem State.logUnmapped_draws (s : State) (d : BusDir) (a : BusAddr) :
    (s.logUnmapped d a).draws = s.draws := by
  rw [State.logUnmapped_eq]
@[simp] theorem State.logUnmapped_consumer (s : State) (d : BusDir) (a : BusAddr) :
    (s.logUnmapped d a).consumer = s.consumer := by
  rw [State.logUnmapped_eq]
@[simp] theorem State.logUnmapped_replies (s : State) (d : BusDir) (a : BusAddr) :
    (s.logUnmapped d a).replies = s.replies := by
  rw [State.logUnmapped_eq]

@[simp] theorem Backgrounds.get_set (b : Backgrounds) (n m : BgIdx) (r : Background) :
    (b.set n r).get m = if m = n then r else b.get m := by
  cases n <;> cases m <;> simp [Backgrounds.set, Backgrounds.get]

/-- The four records name the four registers. -/
theorem Backgrounds.ext_get {a b : Backgrounds} (h : ∀ n, a.get n = b.get n) : a = b := by
  cases a; cases b
  have h1 := h .bg1
  have h2 := h .bg2
  have h3 := h .bg3
  have h4 := h .bg4
  simp_all [Backgrounds.get]

end Sys2Proof.Machine
end

