-- ==== Sys2Proof/Laws/Ops.lean ====
section
/-! SUPPORT. What each shared operation can do, said once. -/

namespace Sys2Proof

/-- What a valid descriptor is, in numbers. -/
theorem Descriptor.valid_iff (d : Descriptor) :
    d.valid = true ↔ 1 ≤ d.tpd ∧ 1 ≤ d.fad ∧ d.aw = 256 ∧ 1 ≤ d.hbw ∧ 1 ≤ d.fal ∧ d.ah = 224 ∧ 1 ≤ d.vbh ∧
      d.fad + d.aw + d.hbw ≤ 512 ∧ d.fal + d.ah + d.vbh ≤ 512 := by
  unfold Descriptor.valid Descriptor.firstFailure Descriptor.hTotal Descriptor.vTotal
  repeat' split
  all_goals simp
  all_goals omega

end Sys2Proof

namespace Sys2Proof.Machine

theorem wordIndex_none {a15 : VramA15} {r : Nat} : wordIndex a15 r = none ↔ outOfRange a15 r := by
  unfold wordIndex outOfRange
  cases a15 <;> simp
  omega

theorem wordIndex_some {a15 : VramA15} {r w : Nat} (h : wordIndex a15 r = some w) :
    ¬ outOfRange a15 r ∧ w = r % 0x8000 ∧ w < 0x8000 := by
  have hm : r &&& 0x7FFF = r % 0x8000 := Nat.and_two_pow_sub_one_eq_mod r 15
  unfold wordIndex at h
  unfold outOfRange
  cases a15 <;> simp at h ⊢
  · obtain ⟨h1, h2⟩ := h
    omega
  · obtain ⟨h1, h2, h3⟩ := h
    omega

/-- A byte of a word in range lies in video memory. -/
theorem Half.byteIndex_lt (h : Half) {w : Nat} (hw : w < 0x8000) : h.byteIndex w < 65536 := by
  cases h <;> simp only [Half.byteIndex] <;> omega

/-- A word's number, by its bytes. -/
theorem State.toNat_vramWord (s : State) (w : Nat) :
    (s.vramWord w).toNat = (s.vramRead8 (2 * w)).toNat + 256 * (s.vramRead8 (2 * w + 1)).toNat := by
  simp only [State.vramWord, toNat_append_eq]; omega

/-- What a data write does. -/
theorem writeVmdata_cases (h : Half) (d : Byte) (s : State) :
    (outOfRange s.cfg.vramA15 s.cursorWord ∧ writeVmdata h d s = s.raise s.cursorWord) ∨
    ∃ w, wordIndex s.cfg.vramA15 s.cursorWord = some w ∧ w < 0x8000 ∧
      writeVmdata h d s = (s.vramWrite8 (h.byteIndex w) d).advanceAfter h := by
  unfold writeVmdata
  split
  · exact .inl ⟨wordIndex_none.1 ‹_›, rfl⟩
  · exact .inr ⟨_, ‹_›, (wordIndex_some ‹_›).2.2, rfl⟩

/-- What a data read does. -/
theorem readVmdata_cases (h : Half) (s : State) :
    (outOfRange s.cfg.vramA15 s.cursorWord ∧ readVmdata h s = s.raise s.cursorWord) ∨
    ∃ w, wordIndex s.cfg.vramA15 s.cursorWord = some w ∧ w < 0x8000 ∧
      readVmdata h s = (s.reply (.byte (s.vramRead8 (h.byteIndex w)))).advanceAfter h := by
  unfold readVmdata
  split
  · exact .inl ⟨wordIndex_none.1 ‹_›, rfl⟩
  · exact .inr ⟨_, ‹_›, (wordIndex_some ‹_›).2.2, rfl⟩

/-- Appending one reply after another. -/
theorem State.replies_step (s : State) (r : Reply) : (s.reply r).replies = s.replies ++ [r] := rfl

theorem execAll_cons_next {i : Instr} {is : List Instr} {s t : State} (h : exec i s = .next t) :
    execAll (i :: is) s = execAll is t := by simp [execAll, h]

/-- A run of a list is the run of its parts. -/
theorem execAll_append (a b : List Instr) (s : State) :
    execAll (a ++ b) s =
      match execAll a s with
      | .next t => execAll b t
      | .fault e => .fault e
      | .refused e => .refused e := by
  induction a generalizing s with
  | nil => rfl
  | cons i is ih =>
    simp only [List.cons_append, execAll]
    cases h : exec i s with
    | next t => exact ih t
    | fault e => rfl
    | refused e => rfl

/-- The write transaction of an address is `busWrite`. -/
theorem exec_decodeWrite (a : BusAddr) (d : Byte) (s : State) :
    exec (decodeWrite a d) s = .next (s.live (busWrite a d)) := by
  unfold decodeWrite busWrite
  cases h : WPort.ofAddr a with
  | none => rfl
  | some p => cases p <;> rfl

end Sys2Proof.Machine
end

