-- ==== Sys2Proof/Laws/Compositor.lean ====
section
/-! SUPPORT. What Compose can do: only the row and the fault change; each layer's pixel is a function of what it does
not change. -/

namespace Sys2Proof.Machine

/-- `t` differs from `s` in the work buffer and the fault alone. -/
def SamePicture (s t : State) : Prop := { t with work := s.work, fault := s.fault } = s

theorem SamePicture.refl (s : State) : SamePicture s s := rfl

theorem SamePicture.trans {s t u : State} (h : SamePicture s t) (k : SamePicture t u) : SamePicture s u := by
  unfold SamePicture at *
  rw [← k] at h
  exact h

/-- What such a pair of states shares. -/
theorem SamePicture.eq {s t : State} (h : SamePicture s t) : t = { s with work := t.work, fault := t.fault } := by
  unfold SamePicture at h
  rw [← h]

theorem layerPixel_work (s : State) (w : Frame) (f : Option FaultRecord) (n : BgIdx) (row x : Nat) :
    layerPixel { s with work := w, fault := f } n row x = layerPixel s n row x := rfl

theorem SamePicture.layerPixel {s t : State} (h : SamePicture s t) (n : BgIdx) (row x : Nat) :
    layerPixel t n row x = layerPixel s n row x := by
  rw [h.eq]; rfl

theorem samePicture_live {s : State} {f : State → State} (h : ∀ u, SamePicture u (f u)) : SamePicture s (s.live f) :=
  State.live_keeps (P := fun t => SamePicture s t) (SamePicture.refl s) (fun _ => h s)

theorem samePicture_composePixel (n : BgIdx) (row x : Nat) (s : State) :
    SamePicture s (composePixel n row x s) := by
  unfold composePixel
  split <;> rfl

theorem samePicture_composeColumns (n : BgIdx) (row : Nat) (xs : List Nat) (s : State) :
    SamePicture s (composeColumns n row xs s) := by
  induction xs generalizing s with
  | nil => rfl
  | cons x xs ih => exact (samePicture_live (samePicture_composePixel n row x)).trans (ih _)

theorem samePicture_composeLayers (row : Nat) (ns : List BgIdx) (s : State) :
    SamePicture s (composeLayers row ns s) := by
  induction ns generalizing s with
  | nil => rfl
  | cons n ns ih =>
    refine (samePicture_live (fun u => ?_)).trans (ih _)
    show SamePicture u (if (u.bg.get n).enable then composeColumns n row (List.range 256) u else u)
    split
    · exact samePicture_composeColumns ..
    · rfl

theorem fillColumns_frame (row : Nat) (p : Pixel) (xs : List Nat) (s : State) :
    { fillColumns row p xs s with work := s.work } = s := by
  induction xs generalizing s with
  | nil => rfl
  | cons x xs ih =>
    have := ih (s.fbWrite row x p)
    show { fillColumns row p xs (s.fbWrite row x p) with work := s.work } = s
    conv_rhs => rw [show s = { s.fbWrite row x p with work := s.work } from rfl, ← this]

theorem fillColumns_fault (row : Nat) (p : Pixel) (xs : List Nat) (s : State) :
    (fillColumns row p xs s).fault = s.fault := by
  have h := fillColumns_frame row p xs s
  calc (fillColumns row p xs s).fault = { fillColumns row p xs s with work := s.work }.fault := rfl
    _ = s.fault := by rw [h]

theorem samePicture_fillColumns (row : Nat) (p : Pixel) (xs : List Nat) (s : State) :
    SamePicture s (fillColumns row p xs s) := by
  have h := fillColumns_frame row p xs s
  unfold SamePicture
  rw [← fillColumns_fault row p xs s]
  exact h

theorem fillColumns_wf (b row : Nat) (p : Pixel) (hr : row < b) (xs : List Nat) (hx : ∀ x ∈ xs, x < 256) (s : State)
    (h : s.work.wfIn b = true) : (fillColumns row p xs s).work.wfIn b = true := by
  induction xs generalizing s with
  | nil => exact h
  | cons x xs ih =>
    exact ih (fun y hy => hx y (List.mem_cons_of_mem _ hy)) _
      (Frame.wfIn_write h row x p hr (hx x List.mem_cons_self))

theorem fillColumns_read (b row : Nat) (p : Pixel) (hr : row < b) (xs : List Nat) (hx : ∀ x ∈ xs, x < 256)
    (s : State) (h : s.work.wfIn b = true) (y x : Nat) :
    (fillColumns row p xs s).work.read y x = if y = row ∧ x ∈ xs then p else s.work.read y x := by
  induction xs generalizing s with
  | nil => simp [fillColumns]
  | cons z xs ih =>
    simp only [fillColumns]
    rw [ih (fun y hy => hx y (List.mem_cons_of_mem _ hy)) _
      (Frame.wfIn_write h row z p hr (hx z List.mem_cons_self))]
    simp only [State.fbWrite_work, Frame.read_write h, List.mem_cons]
    split <;> split <;> simp_all

/-- What layer `n` leaves of the pixel below it. -/
def LayerPixel.over (below : Pixel) : LayerPixel → Pixel
  | .drawn p => p
  | .transparent => below
  | .raises _ => below

theorem composePixel_wf {b : Nat} (n : BgIdx) (row x : Nat) (hr : row < b) (hx : x < 256) (s : State)
    (h : s.work.wfIn b = true) : (composePixel n row x s).work.wfIn b = true := by
  unfold composePixel
  split
  · exact h
  · exact h
  · exact Frame.wfIn_write h row x _ hr hx

theorem composePixel_read {b : Nat} (n : BgIdx) (row x : Nat) (s : State) (h : s.work.wfIn b = true) (y z : Nat) :
    (composePixel n row x s).work.read y z =
      if y = row ∧ z = x then (layerPixel s n row x).over (s.work.read row x) else s.work.read y z := by
  unfold composePixel
  cases layerPixel s n row x with
  | raises r =>
    simp only [State.raise_work, LayerPixel.over]
    split
    · next h => rw [h.1, h.2]
    · rfl
  | transparent =>
    simp only [LayerPixel.over]
    split
    · next h => rw [h.1, h.2]
    · rfl
  | drawn p => simp only [State.fbWrite_work, Frame.read_write h, LayerPixel.over]

theorem composePixel_fault (n : BgIdx) (row x : Nat) (s : State) (h : s.fault = none) :
    (composePixel n row x s).fault = none ↔ ∀ r, layerPixel s n row x ≠ .raises r := by
  unfold composePixel
  cases layerPixel s n row x <;> simp [h]

/-- A layer's columns: the canonical form, the fault, and each pixel where nothing raises. -/
theorem composeColumns_wf {b : Nat} (n : BgIdx) (row : Nat) (hr : row < b) (xs : List Nat) (hx : ∀ x ∈ xs, x < 256)
    (s : State) (h : s.work.wfIn b = true) : (composeColumns n row xs s).work.wfIn b = true := by
  induction xs generalizing s with
  | nil => exact h
  | cons x xs ih =>
    refine ih (fun y hy => hx y (List.mem_cons_of_mem _ hy)) _ ?_
    exact State.live_keeps (P := fun t => t.work.wfIn b = true) h
      (fun _ => composePixel_wf n row x hr (hx x List.mem_cons_self) s h)

theorem composeColumns_halted (n : BgIdx) (row : Nat) (xs : List Nat) (s : State) {e : FaultRecord}
    (h : s.fault = some e) : composeColumns n row xs s = s := by
  induction xs with
  | nil => rfl
  | cons x xs ih => simpa only [composeColumns, State.live_of_halted h] using ih

theorem composeColumns_fault (n : BgIdx) (row : Nat) (xs : List Nat) (s : State) (h : s.fault = none) :
    (composeColumns n row xs s).fault = none ↔ ∀ x ∈ xs, ∀ r, layerPixel s n row x ≠ .raises r := by
  induction xs generalizing s with
  | nil => simpa [composeColumns] using h
  | cons x xs ih =>
    simp only [composeColumns, State.live_of_running h, List.forall_mem_cons]
    have hp := composePixel_fault n row x s h
    have same := samePicture_composePixel n row x s
    cases hf : (composePixel n row x s).fault with
    | none =>
      rw [ih _ hf]
      simp only [same.layerPixel]
      exact ⟨fun k => ⟨hp.1 hf, k⟩, fun k => k.2⟩
    | some e =>
      rw [composeColumns_halted n row xs _ hf, hf]
      constructor
      · intro k; cases k
      · intro k
        have := hp.2 k.1
        rw [hf] at this
        cases this

/-- Columns not listed, and other rows, stay. -/
theorem composeColumns_read_other {b : Nat} (n : BgIdx) (row : Nat) (hr : row < b) (xs : List Nat)
    (hx : ∀ x ∈ xs, x < 256) (s : State) (h : s.work.wfIn b = true) (y z : Nat) (hz : ¬ (y = row ∧ z ∈ xs)) :
    (composeColumns n row xs s).work.read y z = s.work.read y z := by
  induction xs generalizing s with
  | nil => rfl
  | cons x xs ih =>
    simp only [List.mem_cons] at hz
    simp only [composeColumns]
    rw [ih (fun y hy => hx y (List.mem_cons_of_mem _ hy)) _
      (State.live_keeps (P := fun t => t.work.wfIn b = true) h
        (fun _ => composePixel_wf n row x hr (hx x List.mem_cons_self) s h)) (by tauto)]
    refine State.live_keeps (P := fun t => t.work.read y z = s.work.read y z) rfl (fun _ => ?_)
    rw [composePixel_read n row x s h, if_neg (by tauto)]

/-- Each listed column, where nothing raises. -/
theorem composeColumns_read {b : Nat} (n : BgIdx) (row : Nat) (hr : row < b) (xs : List Nat) (hd : xs.Nodup)
    (hx : ∀ x ∈ xs, x < 256) (s : State) (h : s.work.wfIn b = true) (hs : s.fault = none)
    (hf : (composeColumns n row xs s).fault = none) (z : Nat) (hz : z ∈ xs) :
    (composeColumns n row xs s).work.read row z = (layerPixel s n row z).over (s.work.read row z) := by
  induction xs generalizing s with
  | nil => cases hz
  | cons x xs ih =>
    have hx' : ∀ y ∈ xs, y < 256 := fun y hy => hx y (List.mem_cons_of_mem _ hy)
    have wf' := composePixel_wf n row x hr (hx x List.mem_cons_self) s h
    have same := samePicture_composePixel n row x s
    rw [List.nodup_cons] at hd
    simp only [composeColumns, State.live_of_running hs] at hf ⊢
    by_cases hzx : z = x
    · subst hzx
      rw [composeColumns_read_other n row hr xs hx' _ wf' row z (by tauto), composePixel_read n row z s h]
      simp
    · have hz' : z ∈ xs := by simpa [hzx] using hz
      have hs' : (composePixel n row x s).fault = none := by
        cases hk : (composePixel n row x s).fault with
        | none => rfl
        | some e => rw [composeColumns_halted n row xs _ hk, hk] at hf; cases hf
      rw [ih hd.2 hx' _ wf' hs' hf hz', same.layerPixel, composePixel_read n row x s h, if_neg (by tauto)]

/-- One layer of `composeLayers`. -/
def composeLayer (row : Nat) (n : BgIdx) (s : State) : State :=
  s.live (fun s => if (s.bg.get n).enable then composeColumns n row (List.range 256) s else s)

theorem composeLayers_cons (row : Nat) (n : BgIdx) (ns : List BgIdx) (s : State) :
    composeLayers row (n :: ns) s = composeLayers row ns (composeLayer row n s) := rfl

theorem composeLayer_wf {b : Nat} (row : Nat) (n : BgIdx) (hr : row < b) (s : State) (h : s.work.wfIn b = true) :
    (composeLayer row n s).work.wfIn b = true := by
  refine State.live_keeps (P := fun t => t.work.wfIn b = true) h (fun _ => ?_)
  split
  · exact composeColumns_wf n row hr _ (by simp) s h
  · exact h

theorem samePicture_composeLayer (row : Nat) (n : BgIdx) (s : State) : SamePicture s (composeLayer row n s) :=
  samePicture_composeLayers row [n] s

theorem composeLayers_halted (row : Nat) (ns : List BgIdx) (s : State) {e : FaultRecord}
    (h : s.fault = some e) : composeLayers row ns s = s := by
  induction ns with
  | nil => rfl
  | cons n ns ih => simpa only [composeLayers_cons, composeLayer, State.live_of_halted h] using ih

theorem composeLayers_wf {b : Nat} (row : Nat) (hr : row < b) (ns : List BgIdx) (s : State)
    (h : s.work.wfIn b = true) : (composeLayers row ns s).work.wfIn b = true := by
  induction ns generalizing s with
  | nil => exact h
  | cons n ns ih => exact ih _ (composeLayer_wf row n hr s h)

theorem composeLayers_read_other {b : Nat} (row : Nat) (hr : row < b) (ns : List BgIdx) (s : State)
    (h : s.work.wfIn b = true) (y z : Nat) (hz : ¬ (y = row ∧ z < 256)) :
    (composeLayers row ns s).work.read y z = s.work.read y z := by
  induction ns generalizing s with
  | nil => rfl
  | cons n ns ih =>
    rw [composeLayers_cons, ih _ (composeLayer_wf row n hr s h)]
    refine State.live_keeps (P := fun t => t.work.read y z = s.work.read y z) rfl (fun _ => ?_)
    split
    · exact composeColumns_read_other n row hr _ (by simp) s h y z (by simpa using hz)
    · rfl

/-- One layer raises nothing exactly when it is not drawn or none of its pixels raises. -/
theorem composeLayer_fault (row : Nat) (n : BgIdx) (s : State) (h : s.fault = none) :
    (composeLayer row n s).fault = none ↔
      ((s.bg.get n).enable = true → ∀ x, x < 256 → ∀ r, layerPixel s n row x ≠ .raises r) := by
  unfold composeLayer
  rw [State.live_of_running h]
  split
  · rw [composeColumns_fault _ _ _ _ h]
    simp [*]
  · simp [*]

theorem composeLayers_fault (row : Nat) (ns : List BgIdx) (s : State) (h : s.fault = none) :
    (composeLayers row ns s).fault = none ↔
      ∀ n ∈ ns, (s.bg.get n).enable = true → ∀ x, x < 256 → ∀ r, layerPixel s n row x ≠ .raises r := by
  induction ns generalizing s with
  | nil => simpa [composeLayers] using h
  | cons n ns ih =>
    rw [composeLayers_cons, List.forall_mem_cons]
    have same := samePicture_composeLayer row n s
    have hp := composeLayer_fault row n s h
    cases hf : (composeLayer row n s).fault with
    | none =>
      have hbg : (composeLayer row n s).bg = s.bg := by rw [same.eq]
      rw [ih _ hf]
      simp only [same.layerPixel, hbg]
      exact ⟨fun k => ⟨hp.1 hf, k⟩, fun k => k.2⟩
    | some e =>
      rw [composeLayers_halted row ns _ hf, hf]
      constructor
      · intro k; cases k
      · intro k
        have := hp.2 k.1
        rw [hf] at this
        cases this

/-- Each column of the row after all layers, where nothing raises. -/
theorem composeLayers_read {b : Nat} (row : Nat) (hr : row < b) (ns : List BgIdx) (s : State)
    (h : s.work.wfIn b = true) (hs : s.fault = none) (hf : (composeLayers row ns s).fault = none) (z : Nat)
    (hz : z < 256) :
    (composeLayers row ns s).work.read row z =
      (ns.filter (fun n => (s.bg.get n).enable)).foldl (fun q n => (layerPixel s n row z).over q)
        (s.work.read row z) := by
  induction ns generalizing s with
  | nil => rfl
  | cons n ns ih =>
    rw [composeLayers_cons] at hf ⊢
    have same := samePicture_composeLayer row n s
    have hbg : (composeLayer row n s).bg = s.bg := by rw [same.eq]
    have hn : (composeLayer row n s).fault = none := by
      cases hk : (composeLayer row n s).fault with
      | none => rfl
      | some e => rw [composeLayers_halted row ns _ hk, hk] at hf; cases hf
    rw [ih _ (composeLayer_wf row n hr s h) hn hf]
    simp only [same.layerPixel, hbg]
    by_cases he : (s.bg.get n).enable = true
    · rw [List.filter_cons_of_pos (by simpa using he), List.foldl_cons]
      congr 1
      unfold composeLayer at hn ⊢
      rw [State.live_of_running hs] at hn ⊢
      simp only [he, if_true] at hn ⊢
      exact composeColumns_read n row hr _ List.nodup_range (by simp) s h hs hn z (by simpa using hz)
    · rw [List.filter_cons_of_neg (by simpa using he)]
      congr 1
      unfold composeLayer
      rw [State.live_of_running hs]
      simp [he]

/-! ## The pixel on plain numbers -/

theorem State.wordNat_eq {s : State} {r w : Nat} (h : wordIndex s.cfg.vramA15 r = some w) :
    s.wordNat r = (s.vramWord w).toNat := by
  simp only [State.wordNat, h, State.toNat_vramWord]

theorem tilemapAddr_eq (s : State) (n : BgIdx) (row x : Nat) :
    tilemapAddr (s.bg.get n) ((x + (s.bg.get n).hScroll.toNat) % 256) ((row + (s.bg.get n).vScroll.toNat) % 256) =
      s.mapAddrNat n row x := by
  simp only [tilemapAddr, State.mapAddrNat, Nat.shiftRight_eq_div_pow]

theorem flipped_eq (b : Bool) (c : Nat) : flipped b (c % 256 &&& 7) = inTileNat c b.toNat := by
  rw [show 7 = 2 ^ 3 - 1 by rfl, Nat.and_two_pow_sub_one_eq_mod]
  cases b <;> simp [flipped, inTileNat]

theorem tileRowAddr_eq {s : State} {n : BgIdx} {row x w : Nat}
    (h : wordIndex s.cfg.vramA15 (s.mapAddrNat n row x) = some w) :
    tileRowAddr (s.bg.get n) (s.vramWord w)
      (flipped ((s.vramWord w).getLsbD 15) ((row + (s.bg.get n).vScroll.toNat) % 256 &&& 7)) =
      s.rowAddrNat n row x := by
  have := (s.vramWord w).isLt
  rw [flipped_eq, toNat_getLsbD]
  simp only [tileRowAddr, State.rowAddrNat, State.wordNat_eq h, toNat_extract_eq]
  congr 2
  norm_num
  omega

theorem colourIndex_eq {s : State} {n : BgIdx} {row x w w1 w2 : Nat}
    (h : wordIndex s.cfg.vramA15 (s.mapAddrNat n row x) = some w)
    (h1 : wordIndex s.cfg.vramA15 (s.rowAddrNat n row x) = some w1)
    (h2 : wordIndex s.cfg.vramA15 (s.rowAddrNat n row x + 8) = some w2) :
    colourIndex (s.vramWord w1) (s.vramWord w2)
      (7 - flipped ((s.vramWord w).getLsbD 14) ((x + (s.bg.get n).hScroll.toNat) % 256 &&& 7)) =
      s.colourIndexNat n row x := by
  rw [flipped_eq, toNat_getLsbD]
  simp only [colourIndex, State.colourIndexNat, State.wordNat_eq h, State.wordNat_eq h1, State.wordNat_eq h2,
    toNat_getLsbD]
  norm_num
  ring

/-- What a layer gives a pixel, on plain numbers: whether it raises, and the pixel it leaves. -/
theorem layerPixel_spec (s : State) (n : BgIdx) (row x : Nat) :
    ((∀ r, layerPixel s n row x ≠ .raises r) ↔ s.fetchesInRange row n x) ∧
    (s.fetchesInRange row n x → ∀ q, (layerPixel s n row x).over q = s.pixelOver row x q n) ∧
    (∀ r, layerPixel s n row x = .raises r → outOfRange s.cfg.vramA15 r) := by
  unfold layerPixel State.fetchesInRange
  simp only [tilemapAddr_eq, ← wordIndex_none]
  cases h : wordIndex s.cfg.vramA15 (s.mapAddrNat n row x) with
  | none => simp [h]
  | some w =>
    simp only [tileRowAddr_eq h]
    cases h1 : wordIndex s.cfg.vramA15 (s.rowAddrNat n row x) with
    | none => simp [h1]
    | some w1 =>
      cases h2 : wordIndex s.cfg.vramA15 (s.rowAddrNat n row x + 8) with
      | none => simp [h2]
      | some w2 =>
        simp only [colourIndex_eq h h1 h2]
        refine ⟨?_, ?_, ?_⟩
        · split <;> simp
        · intro _ q
          simp only [State.pixelOver, State.wordNat_eq h, toNat_extract_eq]
          split <;> simp [LayerPixel.over]
        · split <;> simp

/-- What a raise inside a line leaves. -/
theorem composeLayers_raised (row : Nat) (ns : List BgIdx) (s : State) (f : FaultRecord)
    (h : (composeLayers row ns s).fault = some f) :
    s.fault = some f ∨ ∃ r, f = vramWordFault r ∧ outOfRange s.cfg.vramA15 r := by
  have hpix : ∀ (n : BgIdx) (x : Nat) (u : State), (composePixel n row x u).fault = some f →
      u.fault = some f ∨ ∃ r, f = vramWordFault r ∧ outOfRange u.cfg.vramA15 r := by
    intro n x u hu
    unfold composePixel at hu
    split at hu
    · rename_i r hr
      exact .inr ⟨r, by simpa [vramWordFault] using hu.symm, (layerPixel_spec u n row x).2.2 r hr⟩
    · exact .inl hu
    · exact .inl hu
  have hcols : ∀ (n : BgIdx) (xs : List Nat) (u : State), (composeColumns n row xs u).fault = some f →
      u.fault = some f ∨ ∃ r, f = vramWordFault r ∧ outOfRange u.cfg.vramA15 r := by
    intro n xs
    induction xs with
    | nil => intro u hu; exact .inl hu
    | cons x xs ih =>
      intro u hu
      have hcfg : (u.live (composePixel n row x)).cfg = u.cfg := by
        rw [(samePicture_live (s := u) (samePicture_composePixel n row x)).eq]
      rcases ih _ hu with k | k
      · unfold State.live at k
        split at k
        · exact hpix n x u k
        · exact .inl k
      · rw [hcfg] at k
        exact .inr k
  induction ns generalizing s with
  | nil => exact .inl h
  | cons n ns ih =>
    rw [composeLayers_cons] at h
    have hcfg : (composeLayer row n s).cfg = s.cfg := by rw [(samePicture_composeLayer row n s).eq]
    rcases ih _ h with k | k
    · unfold composeLayer State.live at k
      split at k
      · dsimp only at k
        split at k
        · exact hcols n _ s k
        · exact .inl k
      · exact .inl k
    · rw [hcfg] at k
      exact .inr k

/-! ## The visits in one list -/

/-- The pixels listed, in order, up to a raise. -/
def composePixels (row : Nat) : List (BgIdx × Nat) → State → State
  | [], s => s
  | p :: ps, s => composePixels row ps (s.live (composePixel p.1 row p.2))

theorem composePixels_append (row : Nat) (ps qs : List (BgIdx × Nat)) (s : State) :
    composePixels row (ps ++ qs) s = composePixels row qs (composePixels row ps s) := by
  induction ps generalizing s with
  | nil => rfl
  | cons p ps ih => exact ih _

theorem composePixels_halted (row : Nat) (ps : List (BgIdx × Nat)) (s : State) {e : FaultRecord}
    (h : s.fault = some e) : composePixels row ps s = s := by
  induction ps with
  | nil => rfl
  | cons p ps ih => simpa only [composePixels, State.live_of_halted h] using ih

theorem composeColumns_eq (n : BgIdx) (row : Nat) (xs : List Nat) (s : State) :
    composeColumns n row xs s = composePixels row (xs.map (fun x => (n, x))) s := by
  induction xs generalizing s with
  | nil => rfl
  | cons x xs ih => exact ih _

/-- The layers' pixels as one list: which layers are enabled is read once, since no pixel changes it. -/
theorem composeLayers_eq (row : Nat) (ns : List BgIdx) (s : State) :
    composeLayers row ns s = composePixels row
      ((ns.filter (fun n => (s.bg.get n).enable)).flatMap (fun n => (List.range 256).map (fun x => (n, x)))) s := by
  induction ns generalizing s with
  | nil => rfl
  | cons n ns ih =>
    rw [composeLayers_cons, ih]
    have hbg : (composeLayer row n s).bg = s.bg := by rw [(samePicture_composeLayer row n s).eq]
    have hl : composeLayer row n s =
        if (s.bg.get n).enable then composePixels row ((List.range 256).map (fun x => (n, x))) s else s := by
      unfold composeLayer
      cases hf : s.fault with
      | some e => rw [State.live_of_halted hf, composePixels_halted row _ s hf, ite_self]
      | none => rw [State.live_of_running hf, composeColumns_eq]
    rw [hbg, hl]
    by_cases he : (s.bg.get n).enable = true
    · rw [List.filter_cons_of_pos (by simpa using he), List.flatMap_cons, composePixels_append, if_pos he]
    · rw [List.filter_cons_of_neg (by simpa using he), if_neg he]

/-- The first fetch of a pixel that raises, and whether one does. -/
theorem layerPixel_firstRaise (s : State) (n : BgIdx) (row x : Nat) :
    (s.fetchAddrs row (n, x)).find? (fun r => (wordIndex s.cfg.vramA15 r).isNone) =
      match layerPixel s n row x with
      | .raises r => some r
      | _ => none := by
  unfold layerPixel State.fetchAddrs
  simp only [tilemapAddr_eq]
  cases h : wordIndex s.cfg.vramA15 (s.mapAddrNat n row x) with
  | none => simp [h]
  | some w =>
    simp only [tileRowAddr_eq h]
    cases h1 : wordIndex s.cfg.vramA15 (s.rowAddrNat n row x) with
    | none => simp [h, h1]
    | some w1 =>
      cases h2 : wordIndex s.cfg.vramA15 (s.rowAddrNat n row x + 8) with
      | none => simp [h, h1, h2]
      | some w2 =>
        simp only [colourIndex_eq h h1 h2]
        by_cases hc : s.colourIndexNat n row x = 0 <;> simp [h, h1, h2, hc]

theorem State.fetchAddrs_all (s : State) (row : Nat) (p : BgIdx × Nat) :
    (s.fetchAddrs row p).all (fun r => (wordIndex s.cfg.vramA15 r).isSome) =
      ((s.fetchAddrs row p).find? (fun r => (wordIndex s.cfg.vramA15 r).isNone)).isNone := by
  rw [Bool.eq_iff_iff]
  simp [List.find?_eq_none, Option.isSome_iff_ne_none]

/-- The fault and the pixels of a list of visits: the first fetch that raises, and what the visits before it drew. -/
theorem composePixels_spec {b : Nat} (row : Nat) (hr : row < b) (ps : List (BgIdx × Nat)) (hx : ∀ p ∈ ps, p.2 < 256) :
    ∀ s : State, s.fault = none →
    (composePixels row ps s).fault = ((ps.flatMap (s.fetchAddrs row)).find?
      (fun r => (wordIndex s.cfg.vramA15 r).isNone)).map vramWordFault ∧
    (s.work.wfIn b = true → ∀ x, (composePixels row ps s).work.read row x =
      ((ps.takeWhile (fun p => (s.fetchAddrs row p).all (fun r => (wordIndex s.cfg.vramA15 r).isSome))).filter
        (fun p => p.2 == x)).foldl (fun below p => s.pixelOver row x below p.1) (s.work.read row x)) := by
  induction ps with
  | nil => intro s h; exact ⟨h, fun _ _ => rfl⟩
  | cons p ps ih =>
    obtain ⟨n, z⟩ := p
    intro s h
    have same := samePicture_composePixel n row z s
    have hfirst := layerPixel_firstRaise s n row z
    have hspec := layerPixel_spec s n row z
    simp only [composePixels, State.live_of_running h, List.flatMap_cons, List.find?_append, hfirst]
    rw [List.takeWhile_cons, State.fetchAddrs_all, hfirst]
    cases hp : layerPixel s n row z with
    | raises r =>
      have e : composePixel n row z s = s.raise r := by unfold composePixel; rw [hp]
      rw [e, composePixels_halted row ps _ rfl]
      exact ⟨rfl, fun _ _ => rfl⟩
    | _ =>
      have hf : (composePixel n row z s).fault = none := (composePixel_fault n row z s h).2 (by simp [hp])
      have hov := hspec.2.1 (hspec.1.1 (by simp [hp]))
      obtain ⟨i1, i2⟩ := ih (fun q hq => hx q (List.mem_cons_of_mem _ hq)) _ hf
      have hcfg : (composePixel n row z s).cfg = s.cfg := by rw [same.eq]
      have hfa : (composePixel n row z s).fetchAddrs row = s.fetchAddrs row := by rw [same.eq]; rfl
      have hpo : (composePixel n row z s).pixelOver row = s.pixelOver row := by rw [same.eq]; rfl
      rw [hcfg, hfa] at i1 i2
      rw [hpo] at i2
      refine ⟨by simpa using i1, fun hw x => ?_⟩
      rw [i2 (composePixel_wf n row z hr (hx _ List.mem_cons_self) s hw) x, composePixel_read n row z s hw]
      by_cases hxz : x = z
      · subst hxz
        simp [hov]
      · have : ¬ z = x := fun k => hxz k.symm
        simp [hxz, this]

end Sys2Proof.Machine
end

