-- ==== Sys2Proof/Laws/Inputs.lean ====
section
/-! SUPPORT. What no part of a tick writes, in any state: the parameters, the accumulator and the inputs that SETIRQ and
SETOBJ load. -/

namespace Sys2Proof.Machine

/-- `t` has the parameters, the accumulator and the loaded inputs of `s`. -/
structure KeepsInputs (s t : State) : Prop where
  cfg : t.cfg = s.cfg
  acc : t.timing.acc = s.timing.acc
  irq : t.irq = s.irq
  obj : t.obj = s.obj

theorem KeepsInputs.refl (s : State) : KeepsInputs s s := ⟨rfl, rfl, rfl, rfl⟩

theorem KeepsInputs.trans {s t u : State} (h : KeepsInputs s t) (k : KeepsInputs t u) : KeepsInputs s u :=
  ⟨k.cfg.trans h.cfg, k.acc.trans h.acc, k.irq.trans h.irq, k.obj.trans h.obj⟩

theorem KeepsInputs.live {s : State} {f : State → State} (h : KeepsInputs s (f s)) : KeepsInputs s (s.live f) :=
  State.live_keeps (P := fun t => KeepsInputs s t) (KeepsInputs.refl s) (fun _ => h)

theorem keepsInputs_advanceAfter (s : State) (h : Half) : KeepsInputs s (s.advanceAfter h) := by
  unfold State.advanceAfter
  split <;> exact ⟨rfl, rfl, rfl, rfl⟩

theorem keepsInputs_logUnmapped (s : State) (dir : BusDir) (a : BusAddr) : KeepsInputs s (s.logUnmapped dir a) := by
  unfold State.logUnmapped
  split <;> exact ⟨rfl, rfl, rfl, rfl⟩

theorem keepsInputs_writeVmdata (h : Half) (d : Byte) (s : State) : KeepsInputs s (writeVmdata h d s) := by
  unfold writeVmdata
  split
  · exact ⟨rfl, rfl, rfl, rfl⟩
  · refine KeepsInputs.trans ?_ (keepsInputs_advanceAfter _ _)
    exact ⟨rfl, rfl, rfl, rfl⟩

theorem keepsInputs_readVmdata (h : Half) (s : State) : KeepsInputs s (readVmdata h s) := by
  unfold readVmdata
  split
  · exact ⟨rfl, rfl, rfl, rfl⟩
  · refine KeepsInputs.trans ?_ (keepsInputs_advanceAfter _ _)
    exact ⟨rfl, rfl, rfl, rfl⟩

theorem keepsInputs_writePort (p : WPort) (d : Byte) (s : State) : KeepsInputs s (WPort.run p d s) := by
  cases p
  case vmdatal => exact keepsInputs_writeVmdata .low d s
  case vmdatah => exact keepsInputs_writeVmdata .high d s
  case cgdata =>
    show KeepsInputs s (writeCgdata d s)
    unfold writeCgdata
    split <;> exact ⟨rfl, rfl, rfl, rfl⟩
  all_goals exact ⟨rfl, rfl, rfl, rfl⟩

theorem keepsInputs_busWrite (a : BusAddr) (d : Byte) (s : State) : KeepsInputs s (busWrite a d s) := by
  unfold busWrite
  split
  · exact keepsInputs_writePort ..
  · exact keepsInputs_logUnmapped ..

theorem keepsInputs_performDraw (ps : List (BusAddr × Byte)) (s : State) : KeepsInputs s (performDraw ps s) := by
  induction ps generalizing s with
  | nil => exact KeepsInputs.refl s
  | cons p ps ih => exact (KeepsInputs.live (keepsInputs_busWrite ..)).trans (ih _)

theorem keepsInputs_dmaHook (line : Nat) (s : State) : KeepsInputs s (dmaHook line s) := by
  unfold dmaHook
  split
  · exact ⟨rfl, rfl, rfl, rfl⟩
  · refine KeepsInputs.trans ?_ (keepsInputs_performDraw ..)
    exact ⟨rfl, rfl, rfl, rfl⟩

theorem SamePicture.keepsInputs {s t : State} (h : SamePicture s t) : KeepsInputs s t := by
  rw [h.eq]
  exact ⟨rfl, rfl, rfl, rfl⟩

theorem keepsInputs_compose (line : Nat) (s : State) : KeepsInputs s (compose line s) := by
  unfold compose
  dsimp only
  split
  · exact (samePicture_fillColumns ..).keepsInputs
  · exact ((samePicture_fillColumns ..).trans (samePicture_composeLayers ..)).keepsInputs

theorem keepsInputs_lineEnd (s : State) : KeepsInputs s (lineEnd s) := by
  unfold lineEnd
  split
  · dsimp only
    split
    · refine KeepsInputs.trans (KeepsInputs.trans ?_ (keepsInputs_dmaHook _ _))
        (KeepsInputs.live ((keepsInputs_compose ..).trans (KeepsInputs.live ?_)))
      all_goals exact ⟨rfl, rfl, rfl, rfl⟩
    · exact ⟨rfl, rfl, rfl, rfl⟩
  · exact KeepsInputs.refl s

theorem keepsInputs_lineWrap (s : State) : KeepsInputs s (lineWrap s) := by
  have h1 (u : State) : KeepsInputs u (visibleStart u) := by
    unfold visibleStart
    split <;> exact ⟨rfl, rfl, rfl, rfl⟩
  have h2 (u : State) : KeepsInputs u (visibleEnd u) := by
    unfold visibleEnd requestNmi raiseFrameReady
    repeat' split
    all_goals exact ⟨rfl, rfl, rfl, rfl⟩
  have h3 (u : State) : KeepsInputs u (frameWrap u) := by
    unfold frameWrap
    split <;> exact ⟨rfl, rfl, rfl, rfl⟩
  unfold lineWrap
  split
  · refine KeepsInputs.trans ?_ (h3 _)
    refine KeepsInputs.trans ?_ (h2 _)
    refine KeepsInputs.trans ?_ (h1 _)
    exact ⟨rfl, rfl, rfl, rfl⟩
  · exact KeepsInputs.refl s

/-- A tick keeps them, in every state. -/
theorem keepsInputs_tick (s : State) : KeepsInputs s (tick s) := by
  have h1 (u : State) : KeepsInputs u (activeStart u) := by
    unfold activeStart
    split <;> exact ⟨rfl, rfl, rfl, rfl⟩
  have h2 (u : State) : KeepsInputs u (irqCheck u) := by
    unfold irqCheck
    split <;> exact ⟨rfl, rfl, rfl, rfl⟩
  refine KeepsInputs.trans ?_ (KeepsInputs.live ((keepsInputs_lineWrap _).trans (h2 _)))
  refine KeepsInputs.trans ?_ (keepsInputs_lineEnd _)
  refine KeepsInputs.trans ?_ (h1 _)
  exact ⟨rfl, rfl, rfl, rfl⟩

end Sys2Proof.Machine
end

