-- ==== Sys2Proof/Laws/Line.lean ====
section
/-! SUPPORT. What a line end can do: the write rules, a draw, the hook and the compositor, in one relation. -/

namespace Sys2Proof.Machine

/-- `t` comes from `s` by writes and by drawing: the fields that stay, the events appended (each meets `P`), and what
is kept of the arrays, the bases and the fault. -/
structure LineKeeps (P : Event → Prop) (s t : State) : Prop where
  same   : t = { s with disp := t.disp, bg := t.bg, vm := t.vm, vram := t.vram, cgc := t.cgc, cg := t.cg
                        work := t.work, fault := t.fault, history := t.history, draws := t.draws }
  events : ∃ ev, t.history = s.history ++ ev ∧ ∀ e ∈ ev, P e
  vramWf : s.vram.wf = true → t.vram.wf = true
  cgWf   : s.cg.wf = true → t.cg.wf = true
  workWf : s.work.wf = true → t.work.wf = true
  tilemapAligned : (∀ n, (s.bg.get n).tilemapBase.toNat % 0x400 = 0) → ∀ n, (t.bg.get n).tilemapBase.toNat % 0x400 = 0
  charAligned : (∀ n, (s.bg.get n).charBase.toNat % 0x1000 = 0) → ∀ n, (t.bg.get n).charBase.toNat % 0x1000 = 0
  raised : ∀ f, t.fault = some f → s.fault = some f ∨ ∃ r, f = vramWordFault r ∧ outOfRange s.cfg.vramA15 r

variable {P : Event → Prop} {s t u : State}

theorem LineKeeps.refl (s : State) : LineKeeps P s s :=
  { same := rfl, events := ⟨[], by simp, by simp⟩, vramWf := id, cgWf := id, workWf := id, tilemapAligned := id
    charAligned := id, raised := fun _ h => .inl h }

theorem LineKeeps.cfg (h : LineKeeps P s t) : t.cfg = s.cfg := by rw [h.same]
theorem LineKeeps.timing (h : LineKeeps P s t) : t.timing = s.timing := by rw [h.same]
theorem LineKeeps.latch (h : LineKeeps P s t) : t.latch = s.latch := by rw [h.same]
theorem LineKeeps.irq (h : LineKeeps P s t) : t.irq = s.irq := by rw [h.same]
theorem LineKeeps.obj (h : LineKeeps P s t) : t.obj = s.obj := by rw [h.same]
theorem LineKeeps.display (h : LineKeeps P s t) : t.display = s.display := by rw [h.same]
theorem LineKeeps.swapCount (h : LineKeeps P s t) : t.swapCount = s.swapCount := by rw [h.same]
theorem LineKeeps.input (h : LineKeeps P s t) : t.input = s.input := by rw [h.same]
theorem LineKeeps.consumer (h : LineKeeps P s t) : t.consumer = s.consumer := by rw [h.same]
theorem LineKeeps.replies (h : LineKeeps P s t) : t.replies = s.replies := by rw [h.same]

theorem LineKeeps.trans (h : LineKeeps P s t) (k : LineKeeps P t u) : LineKeeps P s u := by
  obtain ⟨e1, h1, p1⟩ := h.events
  obtain ⟨e2, h2, p2⟩ := k.events
  refine { same := ?_, events := ⟨e1 ++ e2, by rw [h2, h1, List.append_assoc], ?_⟩
           vramWf := k.vramWf ∘ h.vramWf, cgWf := k.cgWf ∘ h.cgWf, workWf := k.workWf ∘ h.workWf
           tilemapAligned := k.tilemapAligned ∘ h.tilemapAligned, charAligned := k.charAligned ∘ h.charAligned
           raised := ?_ }
  · have hk := k.same
    rw [h.same] at hk
    exact hk
  · intro e he
    rcases List.mem_append.1 he with m | m
    · exact p1 e m
    · exact p2 e m
  · intro f hf
    rcases k.raised f hf with m | m
    · exact h.raised f m
    · rw [h.cfg] at m
      exact .inr m

theorem LineKeeps.mono {Q : Event → Prop} (h : LineKeeps P s t) (hq : ∀ e, P e → Q e) : LineKeeps Q s t :=
  { h with events := h.events.imp (fun _ k => ⟨k.1, fun e he => hq e (k.2 e he)⟩) }

theorem LineKeeps.live {f : State → State} (h : LineKeeps P s (f s)) : LineKeeps P s (s.live f) :=
  State.live_keeps (P := fun t => LineKeeps P s t) (LineKeeps.refl s) (fun _ => h)

/-- A change of registers that are no base and of no array. -/
theorem LineKeeps.of_eq (h : t = { s with disp := t.disp, vm := t.vm, cgc := t.cgc }) : LineKeeps P s t := by
  refine { same := ?_, events := ⟨[], ?_, by simp⟩, vramWf := ?_, cgWf := ?_, workWf := ?_, tilemapAligned := ?_
           charAligned := ?_, raised := ?_ }
  all_goals rw [h]
  all_goals first | exact id | simp
  exact fun f hf => .inl hf

/-- An event that meets `P`. -/
theorem LineKeeps.emit (s : State) {e : Event} (he : P e) : LineKeeps P s (s.emit e) :=
  { LineKeeps.refl (P := P) s with same := rfl, events := ⟨[e], rfl, by simpa using he⟩ }

/-- A change of one background that keeps both bases aligned. -/
theorem LineKeeps.setBg (s : State) (n : BgIdx) (r : Background)
    (ht : r.tilemapBase = (s.bg.get n).tilemapBase ∨ r.tilemapBase.toNat % 0x400 = 0)
    (hc : r.charBase = (s.bg.get n).charBase ∨ r.charBase.toNat % 0x1000 = 0) : LineKeeps P s (s.setBg n r) := by
  refine { LineKeeps.refl s with same := rfl, tilemapAligned := ?_, charAligned := ?_ }
  · intro h m
    simp only [State.setBg_bg, Backgrounds.get_set]
    split
    · rcases ht with k | k
      · rw [k]; exact h n
      · exact k
    · exact h m
  · intro h m
    simp only [State.setBg_bg, Backgrounds.get_set]
    split
    · rcases hc with k | k
      · rw [k]; exact h n
      · exact k
    · exact h m

theorem lineKeeps_writeTilemapBase (n : BgIdx) (d : Byte) (s : State) : LineKeeps P s (writeTilemapBase n d s) := by
  refine LineKeeps.setBg s n _ (.inr ?_) (.inl rfl)
  simp only [tilemapBaseOf, toNat_append_eq, BitVec.toNat_ofNat]
  omega

theorem lineKeeps_writeCharBase (n : BgIdx) (d : BitVec 4) (s : State) : LineKeeps P s (writeCharBase n d s) := by
  refine LineKeeps.setBg s n _ (.inl rfl) (.inr ?_)
  simp only [charBaseOf, toNat_append_eq, BitVec.toNat_ofNat]
  omega

theorem lineKeeps_scrollWrite (n : BgIdx) (a : Axis) (d : Byte) (s : State) : LineKeeps P s (scrollWrite n a d s) := by
  cases a <;> exact LineKeeps.setBg s n _ (.inl rfl) (.inl rfl)

theorem lineKeeps_writeTm (d : Byte) (s : State) : LineKeeps P s (writeTm d s) := by
  refine { LineKeeps.refl s with same := rfl, tilemapAligned := ?_, charAligned := ?_ }
  · intro h n
    have := h n
    cases n <;> exact this
  · intro h n
    have := h n
    cases n <;> exact this

theorem lineKeeps_advanceAfter (s : State) (h : Half) : LineKeeps P s (s.advanceAfter h) :=
  LineKeeps.of_eq (by rw [State.advanceAfter_eq])

theorem lineKeeps_raise (s : State) (r : Nat) (h : outOfRange s.cfg.vramA15 r) : LineKeeps P s (s.raise r) :=
  { LineKeeps.refl s with same := rfl, raised := fun f hf => .inr ⟨r, by simpa [vramWordFault] using hf.symm, h⟩ }

theorem lineKeeps_writeVmdata (h : Half) (d : Byte) (s : State) : LineKeeps P s (writeVmdata h d s) := by
  rcases writeVmdata_cases h d s with ⟨ho, e⟩ | ⟨w, _, hw, e⟩
  · rw [e]; exact lineKeeps_raise s _ ho
  · rw [e]
    refine LineKeeps.trans (t := s.vramWrite8 (h.byteIndex w) d) ?_ (lineKeeps_advanceAfter _ _)
    exact { LineKeeps.refl s with same := rfl, vramWf := fun k => Memory.wf_write k _ _ (h.byteIndex_lt hw) }

theorem lineKeeps_writeCgdata (d : Byte) (s : State) : LineKeeps P s (writeCgdata d s) := by
  unfold writeCgdata
  split
  · exact { LineKeeps.refl s with same := rfl, cgWf := fun k => Palette.wf_write k _ _ s.cgc.addr.isLt }
  · exact LineKeeps.of_eq rfl

theorem lineKeeps_logUnmapped (d : BusDir) (a : BusAddr) (hP : P (.unmapped d a)) (s : State) :
    LineKeeps P s (s.logUnmapped d a) := by
  unfold State.logUnmapped
  split
  · exact LineKeeps.emit s hP
  · exact LineKeeps.refl s

theorem lineKeeps_writePort (p : WPort) (d : Byte) (s : State) : LineKeeps P s (WPort.run p d s) := by
  cases p <;> simp only [WPort.run]
  all_goals first
    | exact lineKeeps_writeTilemapBase ..
    | exact lineKeeps_scrollWrite ..
    | exact lineKeeps_writeVmdata ..
    | exact lineKeeps_writeCgdata ..
    | exact lineKeeps_writeTm ..
    | exact (lineKeeps_writeCharBase ..).trans (lineKeeps_writeCharBase ..)
    | exact LineKeeps.of_eq rfl

/-- Every BUSW rule. -/
theorem lineKeeps_busWrite (a : BusAddr) (d : Byte) (s : State) (hP : ∀ a, P (.unmapped .write a)) :
    LineKeeps P s (busWrite a d s) := by
  unfold busWrite
  split
  · exact lineKeeps_writePort ..
  · exact lineKeeps_logUnmapped .write a (hP a) s

/-- The transactions of a draw, run one after another, are the draw. -/
theorem execAll_drawInstrs (d : List (BusAddr × Byte)) (s : State) :
    execAll (drawInstrs d) s = .next (performDraw d s) := by
  induction d generalizing s with
  | nil => rfl
  | cons p ps ih =>
    have h : exec (decodeWrite p.1 p.2) s = .next (s.live (busWrite p.1 p.2)) := by
      unfold decodeWrite busWrite
      cases WPort.ofAddr p.1 with
      | none => rfl
      | some w => cases w <;> rfl
    rw [drawInstrs, List.map_cons, execAll, h]
    exact ih _

theorem lineKeeps_performDraw (ps : List (BusAddr × Byte)) (s : State) (hP : ∀ a, P (.unmapped .write a)) :
    LineKeeps P s (performDraw ps s) := by
  induction ps generalizing s with
  | nil => exact LineKeeps.refl s
  | cons p ps ih => exact (LineKeeps.live (lineKeeps_busWrite p.1 p.2 s hP)).trans (ih _)

theorem lineKeeps_dmaHook (line : Nat) (s : State) (hP : ∀ a, P (.unmapped .write a)) (hL : P (.dmaHook line)) :
    LineKeeps P s (dmaHook line s) := by
  have h1 := LineKeeps.emit s hL
  unfold dmaHook
  dsimp only
  split
  · exact h1
  · refine LineKeeps.trans (t := { s.emit (.dmaHook line) with draws := _ }) ?_ (lineKeeps_performDraw _ _ hP)
    exact { LineKeeps.refl (P := P) s with same := rfl, events := ⟨[_], rfl, by simpa using hL⟩ }

theorem samePicture_compose (line : Nat) (s : State) : SamePicture s (compose line s) := by
  unfold compose
  dsimp only
  split
  · exact samePicture_fillColumns ..
  · exact (samePicture_fillColumns ..).trans (samePicture_composeLayers ..)

theorem compose_wf (line : Nat) (s : State) (hr : line - s.cfg.desc.fal < 224) (h : s.work.wf = true) :
    (compose line s).work.wf = true := by
  have hx : ∀ x ∈ List.range 256, x < 256 := by simp
  unfold compose
  dsimp only
  split
  · exact fillColumns_wf 224 _ _ hr _ hx s h
  · exact composeLayers_wf _ hr _ _ (fillColumns_wf 224 _ _ hr _ hx s h)

theorem compose_raised (line : Nat) (s : State) (f : FaultRecord) (h : (compose line s).fault = some f) :
    s.fault = some f ∨ ∃ r, f = vramWordFault r ∧ outOfRange s.cfg.vramA15 r := by
  unfold compose at h
  dsimp only at h
  split at h
  · rw [fillColumns_fault] at h
    exact .inl h
  · have hc : (fillColumns (line - s.cfg.desc.fal) (expand (s.cgRead 0)) (List.range 256) s).cfg = s.cfg := by
      rw [(samePicture_fillColumns ..).eq]
    rcases composeLayers_raised _ _ _ f h with k | k
    · rw [fillColumns_fault] at k
      exact .inl k
    · rw [hc] at k
      exact .inr k

theorem lineKeeps_compose (line : Nat) (s : State) (hr : line - s.cfg.desc.fal < 224) :
    LineKeeps P s (compose line s) := by
  have e := (samePicture_compose line s).eq
  refine { same := ?_, events := ⟨[], ?_, by simp⟩, vramWf := ?_, cgWf := ?_, workWf := compose_wf line s hr
           tilemapAligned := ?_, charAligned := ?_, raised := compose_raised line s }
  all_goals rw [e]
  all_goals first | exact id | simp

theorem lineKeeps_renderLine (line : Nat) (s : State) (hr : line - s.cfg.desc.fal < 224)
    (hP : P (.lineRendered line)) : LineKeeps P s (renderLine line s) := by
  unfold renderLine
  exact (lineKeeps_compose line s hr).trans (LineKeeps.live (LineKeeps.emit _ hP))

/-- The line-end part of a tick, after the flag is set: `s` for `s'` of `lineEnd`. -/
theorem lineKeeps_hookAndRender (line : Nat) (s : State) (hr : line - s.cfg.desc.fal < 224)
    (hP : ∀ a, P (.unmapped .write a)) (hL : P (.dmaHook line)) (hR : P (.lineRendered line)) :
    LineKeeps P s ((dmaHook line s).live (renderLine line)) := by
  have h := lineKeeps_dmaHook line s hP hL
  refine h.trans (LineKeeps.live (lineKeeps_renderLine line _ ?_ hR))
  rw [h.cfg]
  exact hr

/-- What writing and drawing keep of the invariant: all of it. -/
theorem State.Inv.lineKeeps {s t : State} (h : s.Inv) (hs : s.fault = none) (k : LineKeeps P s t) : t.Inv := by
  refine { descValid := ?_, layersDistinct := ?_, hRange := ?_, vRange := ?_, accRange := ?_, hBlank := ?_
           vBlank := ?_, guard := ?_, vramWf := k.vramWf h.vramWf, cgWf := k.cgWf h.cgWf
           workWf := k.workWf h.workWf, displayWf := ?_, tilemapAligned := k.tilemapAligned h.tilemapAligned
           charAligned := k.charAligned h.charAligned, faultRaised := ?_ }
  · rw [k.cfg]; exact h.descValid
  · rw [k.cfg]; exact h.layersDistinct
  · rw [k.cfg, k.timing]; exact h.hRange
  · rw [k.cfg, k.timing]; exact h.vRange
  · rw [k.cfg, k.timing]; exact fun _ => h.accRange hs
  · rw [k.cfg, k.timing]; exact h.hBlank
  · rw [k.cfg, k.timing]; exact h.vBlank
  · rw [k.cfg, k.timing]; exact h.guard
  · rw [k.display]; exact h.displayWf
  · intro f hf
    rw [k.cfg]
    rcases k.raised f hf with m | m
    · exact h.faultRaised f m
    · exact m

end Sys2Proof.Machine
end

