-- ==== Sys2Proof/Laws/Timing.lean ====
section
/-! SUPPORT. What a tick can do, part by part, and what it keeps; the advance loop's induction. -/

namespace Sys2Proof.Machine

theorem State.inv_iff (s : State) :
    s.Inv ↔ s.TickInv ∧ (s.fault = none → s.timing.acc < s.cfg.desc.tpd) := by
  constructor
  · intro h
    refine ⟨{ h with accRange := fun _ => ?_ }, h.accRange⟩
    exact ((Descriptor.valid_iff _).1 h.descValid).1
  · rintro ⟨h, k⟩
    exact { h with accRange := k }

theorem State.TickInv.desc {s : State} (h : s.TickInv) :
    1 ≤ s.cfg.desc.tpd ∧ 1 ≤ s.cfg.desc.fad ∧ s.cfg.desc.aw = 256 ∧ 1 ≤ s.cfg.desc.hbw ∧ 1 ≤ s.cfg.desc.fal ∧
      s.cfg.desc.ah = 224 ∧ 1 ≤ s.cfg.desc.vbh ∧ s.cfg.desc.hTotal = s.cfg.desc.fad + 256 + s.cfg.desc.hbw ∧
      s.cfg.desc.vTotal = s.cfg.desc.fal + 224 + s.cfg.desc.vbh ∧ s.cfg.desc.hTotal ≤ 512 ∧
      s.cfg.desc.vTotal ≤ 512 := by
  have d := (Descriptor.valid_iff _).1 h.descValid
  simp only [Descriptor.hTotal, Descriptor.vTotal]
  simp only at d
  omega

/-- The events a line end may log. -/
def LineEvent (line : Nat) (e : Event) : Prop :=
  e = .dmaHook line ∨ e = .lineRendered line ∨ ∃ a, e = .unmapped .write a

/-- `s` after the dot is counted and the horizontal flag follows it (40_timing.md R123 to R125). -/
def dotMoved (s : State) : State :=
  { s with timing := { s.timing with
      hCounter := s.timing.hCounter + 1
      inHBlank :=
        if s.timing.hCounter + 1 = s.cfg.desc.fad + s.cfg.desc.aw then true
        else if s.timing.hCounter + 1 = s.cfg.desc.fad then false else s.timing.inHBlank } }

/-- The tick reaches the line-end dot of a visible line. -/
def State.rendersNow (s : State) : Prop :=
  s.timing.hCounter + 1 = s.cfg.desc.fad + s.cfg.desc.aw ∧ s.cfg.desc.lineVisible s.timing.vCounter = true

theorem activeStart_countDot (s : State) :
    activeStart (countDot s) = { s with timing := { s.timing with
      hCounter := s.timing.hCounter + 1
      inHBlank := if s.timing.hCounter + 1 = s.cfg.desc.fad then false else s.timing.inHBlank } } := by
  unfold activeStart countDot
  dsimp only
  split
  · rename_i h
    simp only [Timing.withHBlank]
  · rfl

/-- A tick's first part: the dot moves, and on a visible line's end the hook and the compositor run. -/
theorem lineEnd_spec (s : State) :
    (s.rendersNow → lineEnd (activeStart (countDot s)) =
      (dmaHook s.timing.vCounter (dotMoved s)).live (renderLine s.timing.vCounter)) ∧
    (¬ s.rendersNow → lineEnd (activeStart (countDot s)) = dotMoved s) := by
  rw [activeStart_countDot]
  unfold State.rendersNow lineEnd
  by_cases h : s.timing.hCounter + 1 = s.cfg.desc.fad + s.cfg.desc.aw
  · have e : dotMoved s = { s with timing := { s.timing with hCounter := s.timing.hCounter + 1, inHBlank := true } } := by
      simp only [dotMoved, h, if_true]
    rw [e]
    constructor
    · rintro ⟨_, hv⟩
      dsimp only
      rw [if_pos h, if_pos hv]
      rfl
    · intro hv
      dsimp only
      rw [if_pos h, if_neg (fun k => hv ⟨h, k⟩)]
      rfl
  · refine ⟨fun k => absurd k.1 h, fun _ => ?_⟩
    dsimp only
    rw [if_neg h]
    simp only [dotMoved, h, if_false]

/-- The first part keeps what a line end keeps. -/
theorem lineKeeps_lineEnd (s : State) (hi : s.TickInv) :
    LineKeeps (LineEvent s.timing.vCounter) (dotMoved s) (lineEnd (activeStart (countDot s))) := by
  have hs := lineEnd_spec s
  by_cases h : s.rendersNow
  · rw [hs.1 h]
    have hd := hi.desc
    have hv := h.2
    simp only [Descriptor.lineVisible, decide_eq_true_eq] at hv
    refine lineKeeps_hookAndRender _ _ ?_ (fun a => .inr (.inr ⟨a, rfl⟩)) (.inl rfl) (.inr (.inl rfl))
    show s.timing.vCounter - s.cfg.desc.fal < 224
    omega
  · rw [hs.2 h]
    exact LineKeeps.refl _

/-- The frame-ready line (40_timing.md R131 to R133) with the guard down. -/
theorem visibleEnd_of_guardDown (s : State) (h : s.timing.vCounter = s.cfg.desc.fal + s.cfg.desc.ah)
    (hg : s.timing.frameReady = false) :
    visibleEnd s = { s with
      timing := { s.timing with inVBlank := true, frameReady := true }
      display := s.work
      swapCount := s.swapCount + 1
      history := s.history ++ [.frameReady, .swapped (s.swapCount + 1)] ++
        (if s.irq.nmiArmed then [.nmiRequest] else []) } := by
  unfold visibleEnd raiseFrameReady requestNmi swap
  rw [if_pos h]
  simp only [Timing.withVBlank, hg, Bool.false_eq_true, if_false, Timing.withFrameReady, State.emit]
  split <;> simp

theorem visibleStart_of_eq (s : State) (h : s.timing.vCounter = s.cfg.desc.fal) :
    visibleStart s = { s with timing := { s.timing with inVBlank := false } } := if_pos h

theorem visibleStart_of_ne (s : State) (h : s.timing.vCounter ≠ s.cfg.desc.fal) : visibleStart s = s := if_neg h

theorem visibleEnd_of_ne (s : State) (h : s.timing.vCounter ≠ s.cfg.desc.fal + s.cfg.desc.ah) :
    visibleEnd s = s := if_neg h

theorem frameWrap_of_eq (s : State) (h : s.timing.vCounter = s.cfg.desc.vTotal) :
    frameWrap s = { s with timing := { s.timing with vCounter := 0, frameReady := false } } := if_pos h

theorem frameWrap_of_ne (s : State) (h : s.timing.vCounter ≠ s.cfg.desc.vTotal) : frameWrap s = s := if_neg h

/-- Where the line wraps, the lines apart. `v` is the line the wrap reaches. -/
theorem lineWrap_spec (s : State) (hi : s.TickInv) (u : State) (hc : u.cfg = s.cfg)
    (hv : u.timing.vCounter = s.timing.vCounter) (hg : u.timing.frameReady = s.timing.frameReady)
    (hu : u.timing.hCounter = u.cfg.desc.hTotal) :
    (u.timing.vCounter + 1 = u.cfg.desc.fal → lineWrap u = { u with timing := { u.timing with
        hCounter := 0, vCounter := u.timing.vCounter + 1, inVBlank := false } }) ∧
    (u.timing.vCounter + 1 = u.cfg.desc.fal + u.cfg.desc.ah → lineWrap u = { u with
      timing := { u.timing with
        hCounter := 0, vCounter := u.timing.vCounter + 1, inVBlank := true, frameReady := true }
      display := u.work
      swapCount := u.swapCount + 1
      history := u.history ++ [.frameReady, .swapped (u.swapCount + 1)] ++
        (if u.irq.nmiArmed then [.nmiRequest] else []) }) ∧
    (u.timing.vCounter + 1 = u.cfg.desc.vTotal → lineWrap u = { u with timing := { u.timing with
        hCounter := 0, vCounter := 0, frameReady := false } }) ∧
    (u.timing.vCounter + 1 ≠ u.cfg.desc.fal → u.timing.vCounter + 1 ≠ u.cfg.desc.fal + u.cfg.desc.ah →
      u.timing.vCounter + 1 ≠ u.cfg.desc.vTotal → lineWrap u = { u with timing := { u.timing with
        hCounter := 0, vCounter := u.timing.vCounter + 1 } }) := by
  have hd := hi.desc
  have hguard := hi.guard
  simp only at hguard
  rw [← hc] at hd hguard
  rw [← hv, ← hg] at hguard
  unfold lineWrap
  rw [if_pos hu]
  refine ⟨fun h => ?_, fun h => ?_, fun h => ?_, fun h1 h2 h3 => ?_⟩
  · rw [visibleStart_of_eq _ h, visibleEnd_of_ne, frameWrap_of_ne]
    · show u.timing.vCounter + 1 ≠ u.cfg.desc.vTotal
      omega
    · show u.timing.vCounter + 1 ≠ u.cfg.desc.fal + u.cfg.desc.ah
      omega
  · have g : u.timing.frameReady = false := by rw [hguard]; simp; omega
    have k := visibleEnd_of_guardDown
      { u with timing := { u.timing with hCounter := 0, vCounter := u.timing.vCounter + 1 } } h g
    rw [visibleStart_of_ne, k, frameWrap_of_ne]
    · show u.timing.vCounter + 1 ≠ u.cfg.desc.vTotal
      omega
    · show u.timing.vCounter + 1 ≠ u.cfg.desc.fal
      omega
  · rw [visibleStart_of_ne, visibleEnd_of_ne, frameWrap_of_eq _ h]
    · show u.timing.vCounter + 1 ≠ u.cfg.desc.fal + u.cfg.desc.ah
      omega
    · show u.timing.vCounter + 1 ≠ u.cfg.desc.fal
      omega
  · rw [visibleStart_of_ne _ h1, visibleEnd_of_ne _ h2, frameWrap_of_ne _ h3]

theorem lineWrap_of_ne (s : State) (h : s.timing.hCounter ≠ s.cfg.desc.hTotal) : lineWrap s = s := if_neg h

theorem irqMatch_iff (i : IrqInputs) (h v : Nat) :
    irqMatch i h v = true ↔ (i.irqMode = 1 ∧ h = i.hTarget.toNat) ∨ (i.irqMode = 2 ∧ v = i.vTarget.toNat ∧ h = 0) ∨
      (i.irqMode = 3 ∧ h = i.hTarget.toNat ∧ v = i.vTarget.toNat) := by
  obtain ⟨a, m, ht, vt⟩ := i
  have hm : m = 0 ∨ m = 1 ∨ m = 2 ∨ m = 3 := by revert m; decide
  rcases hm with rfl | rfl | rfl | rfl <;> simp [irqMatch]

theorem irqCheck_eq (s : State) :
    irqCheck s = { s with history := s.history ++
      (if irqMatch s.irq s.timing.hCounter s.timing.vCounter then
        [.irqRequest s.timing.hCounter s.timing.vCounter] else []) } := by
  unfold irqCheck
  split <;> simp [State.emit]

/-- A tick is its first part, and unless that raised, the wrap and the check. -/
theorem tick_spec (s : State) (hi : s.TickInv) :
    ∃ u, LineKeeps (LineEvent s.timing.vCounter) (dotMoved s) u ∧ (¬ s.rendersNow → u = dotMoved s) ∧
      ((∃ f, u.fault = some f ∧ tick s = u) ∨ (u.fault = none ∧ tick s = irqCheck (lineWrap u))) := by
  refine ⟨_, lineKeeps_lineEnd s hi, (lineEnd_spec s).2, ?_⟩
  unfold tick
  cases h : (lineEnd (activeStart (countDot s))).fault with
  | none => exact .inr ⟨rfl, State.live_of_running h _⟩
  | some f => exact .inl ⟨f, rfl, State.live_of_halted h _⟩

/-- A history is no part of the invariant. -/
theorem State.TickInv.of_history {s : State} (h : s.TickInv) (l : List Event) :
    State.TickInv { s with history := l } := { h with }

theorem State.TickInv.irqCheck {s : State} (h : s.TickInv) : (irqCheck s).TickInv := by
  rw [irqCheck_eq]
  exact h.of_history _

/-- What the first part keeps, where the line does not wrap. -/
theorem State.TickInv.lineEnd {s u : State} {P : Event → Prop} (hi : s.TickInv) (k : LineKeeps P (dotMoved s) u)
    (h : s.timing.hCounter + 1 < s.cfg.desc.hTotal) : u.TickInv := by
  have hd := hi.desc
  have hb : s.timing.inHBlank = !s.cfg.desc.dotActive s.timing.hCounter := hi.hBlank
  have hb' : (dotMoved s).timing.inHBlank = !s.cfg.desc.dotActive (s.timing.hCounter + 1) := by
    simp only [dotMoved, Descriptor.dotActive] at hb ⊢
    rw [hb]
    split
    · simp; omega
    · split
      · simp; omega
      · congr 1; rw [decide_eq_decide]; omega
  refine { descValid := ?_, layersDistinct := ?_, hRange := ?_, vRange := ?_, accRange := ?_, hBlank := ?_
           vBlank := ?_, guard := ?_, vramWf := k.vramWf hi.vramWf, cgWf := k.cgWf hi.cgWf
           workWf := k.workWf hi.workWf, displayWf := ?_, tilemapAligned := k.tilemapAligned hi.tilemapAligned
           charAligned := k.charAligned hi.charAligned, faultRaised := ?_ }
  · show u.cfg.desc.valid = true
    rw [k.cfg]; exact hi.descValid
  · show u.cfg.layers.Nodup
    rw [k.cfg]; exact hi.layersDistinct
  · show u.timing.hCounter < u.cfg.desc.hTotal
    rw [k.cfg, k.timing]; exact h
  · show u.timing.vCounter < u.cfg.desc.vTotal
    rw [k.cfg, k.timing]; exact hi.vRange
  · show u.fault = none → 0 < u.cfg.desc.tpd
    rw [k.cfg]; exact fun _ => hd.1
  · show u.timing.inHBlank = !u.cfg.desc.dotActive u.timing.hCounter
    rw [k.cfg, k.timing]; exact hb'
  · show u.timing.inVBlank = !u.cfg.desc.lineVisible u.timing.vCounter
    rw [k.cfg, k.timing]; exact hi.vBlank
  · show u.timing.frameReady = decide (u.cfg.desc.fal + u.cfg.desc.ah ≤ u.timing.vCounter)
    rw [k.cfg, k.timing]; exact hi.guard
  · show u.display.wf = true
    rw [k.display]; exact hi.displayWf
  · intro f hf
    show ∃ r, f = vramWordFault r ∧ outOfRange u.cfg.vramA15 r
    rw [k.cfg]
    rcases k.raised f hf with m | m
    · exact hi.faultRaised f m
    · exact m

/-- Every wrap keeps it. -/
theorem State.TickInv.lineWrap {s : State} (hi : s.TickInv) (h : s.timing.hCounter + 1 = s.cfg.desc.hTotal) :
    (lineWrap (dotMoved s)).TickInv := by
  have hd := hi.desc
  have hv := hi.vRange
  have hb := hi.vBlank
  have hg := hi.guard
  simp only [Descriptor.lineVisible] at hv hb hg
  obtain ⟨w1, w2, w3, w4⟩ := lineWrap_spec s hi (dotMoved s) rfl rfl rfl h
  have hb0 : (dotMoved s).timing.inHBlank = true := by
    have := hi.hBlank
    simp only [Descriptor.dotActive] at this
    simp only [dotMoved]
    rw [this]
    split
    · rfl
    · split
      · omega
      · simp; omega
  have act0 : s.cfg.desc.dotActive 0 = false := by simp [Descriptor.dotActive]; omega
  by_cases c1 : s.timing.vCounter + 1 = s.cfg.desc.fal
  · rw [w1 c1]
    refine { hi with hRange := ?_, vRange := ?_, accRange := fun _ => hd.1, hBlank := ?_, vBlank := ?_, guard := ?_ }
    · show 0 < s.cfg.desc.hTotal
      omega
    · show s.timing.vCounter + 1 < s.cfg.desc.vTotal
      omega
    · show (dotMoved s).timing.inHBlank = !s.cfg.desc.dotActive 0
      rw [hb0, act0]; rfl
    · show false = !s.cfg.desc.lineVisible (s.timing.vCounter + 1)
      simp [Descriptor.lineVisible]; omega
    · show s.timing.frameReady = decide (s.cfg.desc.fal + s.cfg.desc.ah ≤ s.timing.vCounter + 1)
      rw [hg]; simp only [decide_eq_decide]; omega
  · by_cases c2 : s.timing.vCounter + 1 = s.cfg.desc.fal + s.cfg.desc.ah
    · rw [w2 c2]
      refine { hi with hRange := ?_, vRange := ?_, accRange := fun _ => hd.1, hBlank := ?_, vBlank := ?_, guard := ?_
                       displayWf := hi.workWf }
      · show 0 < s.cfg.desc.hTotal
        omega
      · show s.timing.vCounter + 1 < s.cfg.desc.vTotal
        omega
      · show (dotMoved s).timing.inHBlank = !s.cfg.desc.dotActive 0
        rw [hb0, act0]; rfl
      · show true = !s.cfg.desc.lineVisible (s.timing.vCounter + 1)
        simp [Descriptor.lineVisible]; omega
      · show true = decide (s.cfg.desc.fal + s.cfg.desc.ah ≤ s.timing.vCounter + 1)
        simp; omega
    · by_cases c3 : s.timing.vCounter + 1 = s.cfg.desc.vTotal
      · rw [w3 c3]
        refine { hi with hRange := ?_, vRange := ?_, accRange := fun _ => hd.1, hBlank := ?_, vBlank := ?_, guard := ?_ }
        · show 0 < s.cfg.desc.hTotal
          omega
        · show 0 < s.cfg.desc.vTotal
          omega
        · show (dotMoved s).timing.inHBlank = !s.cfg.desc.dotActive 0
          rw [hb0, act0]; rfl
        · show s.timing.inVBlank = !s.cfg.desc.lineVisible 0
          rw [hb]; simp only [Descriptor.lineVisible]; congr 1; rw [decide_eq_decide]; omega
        · show false = decide (s.cfg.desc.fal + s.cfg.desc.ah ≤ 0)
          simp; omega
      · rw [w4 c1 c2 c3]
        refine { hi with hRange := ?_, vRange := ?_, accRange := fun _ => hd.1, hBlank := ?_, vBlank := ?_, guard := ?_ }
        · show 0 < s.cfg.desc.hTotal
          omega
        · show s.timing.vCounter + 1 < s.cfg.desc.vTotal
          omega
        · show (dotMoved s).timing.inHBlank = !s.cfg.desc.dotActive 0
          rw [hb0, act0]; rfl
        · show s.timing.inVBlank = !s.cfg.desc.lineVisible (s.timing.vCounter + 1)
          rw [hb]; simp only [Descriptor.lineVisible]; congr 1; rw [decide_eq_decide]; omega
        · show s.timing.frameReady = decide (s.cfg.desc.fal + s.cfg.desc.ah ≤ s.timing.vCounter + 1)
          rw [hg]; simp only [decide_eq_decide]; omega

/-- A tick that ends a line's active dots does not wrap the line. -/
theorem State.rendersNow.not_wrap {s : State} (h : s.rendersNow) (hi : s.TickInv) :
    s.timing.hCounter + 1 < s.cfg.desc.hTotal := by
  have hd := hi.desc
  have := h.1
  omega

/-- A tick keeps the invariant. -/
theorem State.TickInv.tick {s : State} (hi : s.TickInv) (hs : s.fault = none) : (tick s).TickInv := by
  obtain ⟨u, k, hu, c⟩ := tick_spec s hi
  have hr := hi.hRange
  simp only at hr
  by_cases h : s.timing.hCounter + 1 = s.cfg.desc.hTotal
  · have e : u = dotMoved s := hu (fun m => by have := m.not_wrap hi; omega)
    rcases c with ⟨f, hf, e'⟩ | ⟨hf, e'⟩
    · rw [e] at hf
      have : s.fault = some f := hf
      rw [hs] at this
      cases this
    · rw [e', e]
      exact (hi.lineWrap h).irqCheck
  · have hu' := hi.lineEnd k (by omega)
    rcases c with ⟨f, hf, e'⟩ | ⟨hf, e'⟩
    · rw [e']; exact hu'
    · rw [e', lineWrap_of_ne]
      · exact hu'.irqCheck
      · rw [k.timing, k.cfg]; exact h

end Sys2Proof.Machine
end

