-- ==== Sys2Proof/Laws/Advance.lean ====
section
/-! SUPPORT. The advance loop: what a tick leaves, where it takes the position and the swap count, and how rounds add
up. -/

namespace Sys2Proof.Machine

/-- The fields no tick changes, and the accumulator. -/
structure TickKeeps (s t : State) : Prop where
  cfg      : t.cfg = s.cfg
  acc      : t.timing.acc = s.timing.acc
  latch    : t.latch = s.latch
  irq      : t.irq = s.irq
  obj      : t.obj = s.obj
  input    : t.input = s.input
  consumer : t.consumer = s.consumer
  replies  : t.replies = s.replies

theorem irqCheck_keeps (s : State) : { irqCheck s with history := s.history } = s := by rw [irqCheck_eq]

theorem TickKeeps.trans {s t u : State} (h : TickKeeps s t) (k : TickKeeps t u) : TickKeeps s u :=
  { cfg := k.cfg.trans h.cfg, acc := k.acc.trans h.acc, latch := k.latch.trans h.latch, irq := k.irq.trans h.irq
    obj := k.obj.trans h.obj, input := k.input.trans h.input, consumer := k.consumer.trans h.consumer
    replies := k.replies.trans h.replies }

theorem visibleStart_keeps (s : State) : TickKeeps s (visibleStart s) := by
  unfold visibleStart
  split <;> constructor <;> rfl

theorem raiseFrameReady_keeps (s : State) : TickKeeps s (raiseFrameReady s) := by
  unfold raiseFrameReady
  split <;> constructor <;> rfl

theorem requestNmi_keeps (s : State) : TickKeeps s (requestNmi s) := by
  unfold requestNmi
  split <;> constructor <;> rfl

theorem visibleEnd_keeps (s : State) : TickKeeps s (visibleEnd s) := by
  unfold visibleEnd
  split
  · refine TickKeeps.trans ?_ ((raiseFrameReady_keeps _).trans (requestNmi_keeps _))
    constructor <;> rfl
  · constructor <;> rfl

theorem frameWrap_keeps (s : State) : TickKeeps s (frameWrap s) := by
  unfold frameWrap
  split <;> constructor <;> rfl

theorem lineWrap_keeps (s : State) : TickKeeps s (lineWrap s) := by
  unfold lineWrap
  split
  · refine TickKeeps.trans ?_ (((visibleStart_keeps _).trans (visibleEnd_keeps _)).trans (frameWrap_keeps _))
    constructor <;> rfl
  · constructor <;> rfl

theorem tick_keeps (s : State) (hi : s.TickInv) : TickKeeps s (tick s) := by
  obtain ⟨u, k, -, c⟩ := tick_spec s hi
  have hu : TickKeeps s u :=
    { cfg := k.cfg, acc := by rw [k.timing]; rfl, latch := k.latch, irq := k.irq, obj := k.obj, input := k.input
      consumer := k.consumer, replies := k.replies }
  rcases c with ⟨f, -, e⟩ | ⟨-, e⟩
  · rw [e]; exact hu
  · have w := lineWrap_keeps u
    rw [e, irqCheck_eq]
    have m := hu.trans w
    exact { m with }

/-- The dots of a frame. -/
def State.frameDots (s : State) : Nat := s.cfg.desc.hTotal * s.cfg.desc.vTotal

/-- From a position, the dots by which it lies before the frame-ready position, counted around the frame. -/
def State.afterReady (s : State) : Nat := s.frameDots - (s.cfg.desc.fal + s.cfg.desc.ah) * s.cfg.desc.hTotal

theorem State.TickInv.position_lt {s : State} (hi : s.TickInv) : s.position < s.frameDots := by
  have h : s.timing.hCounter < s.cfg.desc.hTotal := hi.hRange
  have v : s.timing.vCounter < s.cfg.desc.vTotal := hi.vRange
  unfold State.position State.frameDots
  calc s.timing.vCounter * s.cfg.desc.hTotal + s.timing.hCounter
      < s.timing.vCounter * s.cfg.desc.hTotal + s.cfg.desc.hTotal := by omega
    _ = (s.timing.vCounter + 1) * s.cfg.desc.hTotal := by rw [Nat.succ_mul]
    _ ≤ s.cfg.desc.vTotal * s.cfg.desc.hTotal := Nat.mul_le_mul_right _ v
    _ = s.cfg.desc.hTotal * s.cfg.desc.vTotal := Nat.mul_comm _ _

/-- The last active line ends inside the frame. -/
theorem State.TickInv.ready_lt {s : State} (hi : s.TickInv) :
    (s.cfg.desc.fal + s.cfg.desc.ah) * s.cfg.desc.hTotal < s.frameDots := by
  have hd := hi.desc
  unfold State.frameDots
  rw [Nat.mul_comm s.cfg.desc.hTotal]
  exact Nat.mul_lt_mul_of_pos_right (by omega) (by omega)

/-- A tick that raises nothing moves the position by one dot, and swaps at the frame-ready position. -/
theorem tick_position (s : State) (hi : s.TickInv) (hf : (tick s).fault = none) :
    (tick s).position = (s.position + 1) % s.frameDots ∧
    (tick s).swapCount = s.swapCount + if s.position + 1 + s.afterReady = s.frameDots then 1 else 0 := by
  obtain ⟨u, k, hu, c⟩ := tick_spec s hi
  have hd := hi.desc
  have hr : s.timing.hCounter < s.cfg.desc.hTotal := hi.hRange
  have hv : s.timing.vCounter < s.cfg.desc.vTotal := hi.vRange
  have hp := hi.position_lt
  have hrl := hi.ready_lt
  have e : tick s = irqCheck (lineWrap u) := by
    rcases c with ⟨f, h1, h2⟩ | ⟨-, h2⟩
    · rw [h2, h1] at hf; cases hf
    · exact h2
  have epos : (tick s).position = (lineWrap u).position := by rw [e, irqCheck_eq]; rfl
  have eswap : (tick s).swapCount = (lineWrap u).swapCount := by rw [e, irqCheck_eq]
  rw [epos, eswap]
  have hF : s.frameDots = s.cfg.desc.vTotal * s.cfg.desc.hTotal := Nat.mul_comm _ _
  by_cases h : s.timing.hCounter + 1 = s.cfg.desc.hTotal
  · have hud : u = dotMoved s := hu (fun m => by have := m.not_wrap hi; omega)
    have hpos : s.position + 1 = (s.timing.vCounter + 1) * s.cfg.desc.hTotal := by
      unfold State.position; rw [Nat.succ_mul]; omega
    have hready : (s.position + 1 + s.afterReady = s.frameDots) ↔
        s.timing.vCounter + 1 = s.cfg.desc.fal + s.cfg.desc.ah := by
      unfold State.afterReady
      constructor
      · intro m
        exact Nat.eq_of_mul_eq_mul_right (show 0 < s.cfg.desc.hTotal by omega) (by omega)
      · intro m
        rw [hpos, m]; omega
    simp only [hready]
    obtain ⟨w1, w2, w3, w4⟩ := lineWrap_spec s hi (dotMoved s) rfl rfl rfl h
    rw [hud]
    have small : s.timing.vCounter + 1 ≠ s.cfg.desc.vTotal → (s.position + 1) % s.frameDots = s.position + 1 := by
      intro m
      apply Nat.mod_eq_of_lt
      rw [hpos, hF]
      exact Nat.mul_lt_mul_of_pos_right (by omega) (by omega)
    by_cases c1 : s.timing.vCounter + 1 = s.cfg.desc.fal
    · rw [w1 c1, small (by omega), hpos]
      constructor
      · show (s.timing.vCounter + 1) * s.cfg.desc.hTotal + 0 = _
        rfl
      · rw [if_neg (by omega)]; rfl
    · by_cases c2 : s.timing.vCounter + 1 = s.cfg.desc.fal + s.cfg.desc.ah
      · rw [w2 c2, small (by omega), hpos]
        constructor
        · show (s.timing.vCounter + 1) * s.cfg.desc.hTotal + 0 = _
          rfl
        · rw [if_pos c2]; rfl
      · by_cases c3 : s.timing.vCounter + 1 = s.cfg.desc.vTotal
        · rw [w3 c3]
          constructor
          · show 0 * s.cfg.desc.hTotal + 0 = _
            rw [hpos, c3, hF, Nat.mod_self]; omega
          · rw [if_neg c2]; rfl
        · rw [w4 c1 c2 c3, small c3, hpos]
          constructor
          · show (s.timing.vCounter + 1) * s.cfg.desc.hTotal + 0 = _
            rfl
          · rw [if_neg c2]; rfl
  · have hw : lineWrap u = u := lineWrap_of_ne u (by rw [k.timing, k.cfg]; exact h)
    rw [hw]
    have hpos : u.position = s.position + 1 := by
      unfold State.position
      rw [k.timing, k.cfg]
      rfl
    have hlt : s.position + 1 < s.frameDots := by
      have : s.timing.vCounter * s.cfg.desc.hTotal + s.cfg.desc.hTotal ≤ s.frameDots := by
        rw [hF, ← Nat.succ_mul]; exact Nat.mul_le_mul_right _ hv
      unfold State.position
      omega
    refine ⟨by rw [hpos, Nat.mod_eq_of_lt hlt], ?_⟩
    have hno : ¬ (s.position + 1 + s.afterReady = s.frameDots) := by
      unfold State.afterReady
      intro m
      have m' : s.timing.vCounter * s.cfg.desc.hTotal + (s.timing.hCounter + 1) =
          (s.cfg.desc.fal + s.cfg.desc.ah) * s.cfg.desc.hTotal := by unfold State.position at m; omega
      have m2 := congrArg (· % s.cfg.desc.hTotal) m'
      simp only [Nat.mul_mod_left, Nat.mul_add_mod_self_right] at m2
      rw [Nat.mod_eq_of_lt (by omega)] at m2
      omega
    rw [if_neg hno, k.swapCount]
    rfl

/-! ## The loop -/

theorem readDisplays_eq (rs : List ConsumerRead) (s : State) :
    readDisplays rs s = { s with
      replies := s.replies ++ rs.map (fun r => .pixel (s.display.read r.y.val r.x.val) s.swapCount) } := by
  induction rs generalizing s with
  | nil => simp [readDisplays]
  | cons r rs ih =>
    rw [readDisplays, ih]
    simp [readDisplay, State.reply, State.fbRead]

/-- The consumer's turn changes nothing but its own list and the replies. -/
theorem consumerTurn_eq (s : State) :
    consumerTurn s = { s with consumer := (consumerTurn s).consumer, replies := (consumerTurn s).replies } := by
  unfold consumerTurn
  split
  · rfl
  · rw [readDisplays_eq]

/-- What the consumer's turn does: its next list of reads is taken, and each read's pair is returned. -/
theorem consumerTurn_reads (s : State) :
    consumerTurn s = { s with
      consumer := s.consumer.drop 1
      replies := s.replies ++ (s.consumer.headD []).map (fun r =>
        .pixel (s.display.read r.y.val r.x.val) s.swapCount) } := by
  unfold consumerTurn
  split
  · cases s; simp_all
  · next h => rw [readDisplays_eq]; simp [h]

/-- Before the tick of a round: the consumer's turn, and a dot's cycles taken. -/
def roundStart (s : State) : State :=
  let s' := consumerTurn s
  { s' with timing := { s'.timing with acc := s'.timing.acc - s'.cfg.desc.tpd } }

theorem advanceOnce_eq (s : State) : advanceOnce s = tick (roundStart s) := rfl

theorem roundStart_eq (s : State) :
    roundStart s = { s with
      timing := { s.timing with acc := s.timing.acc - s.cfg.desc.tpd }
      consumer := (consumerTurn s).consumer
      replies := (consumerTurn s).replies } := by
  have h := consumerTurn_eq s
  unfold roundStart
  generalize consumerTurn s = t at h ⊢
  rw [h]

theorem advanceRound_of_running {s : State} (hf : s.fault = none) (h : s.cfg.desc.tpd ≤ s.timing.acc) :
    advanceRound s = tick (roundStart s) := by
  unfold advanceRound
  rw [State.live_of_running hf, if_pos h]
  rfl

theorem advanceRound_of_short {s : State} (h : s.timing.acc < s.cfg.desc.tpd) : advanceRound s = s := by
  unfold advanceRound State.live
  split
  · dsimp only
    rw [if_neg (by omega)]
  · rfl

theorem advanceLoop_halted (k : Nat) {s : State} {f : FaultRecord} (h : s.fault = some f) : advanceLoop k s = s := by
  induction k with
  | zero => rfl
  | succ k ih =>
    have : advanceRound s = s := State.live_of_halted h _
    rw [advanceLoop, this, ih]

theorem advanceLoop_add (a b : Nat) (s : State) : advanceLoop (a + b) s = advanceLoop b (advanceLoop a s) := by
  induction a generalizing s with
  | zero => rw [Nat.zero_add]; rfl
  | succ a ih => rw [Nat.succ_add, advanceLoop, advanceLoop, ih]

/-- The loop keeps the parameters and the loaded inputs, in every state. -/
theorem advanceLoop_inputs (k : Nat) (s : State) :
    (advanceLoop k s).cfg = s.cfg ∧ (advanceLoop k s).irq = s.irq ∧ (advanceLoop k s).obj = s.obj := by
  induction k generalizing s with
  | zero => exact ⟨rfl, rfl, rfl⟩
  | succ k ih =>
    have h : (advanceRound s).cfg = s.cfg ∧ (advanceRound s).irq = s.irq ∧ (advanceRound s).obj = s.obj := by
      refine State.live_keeps (P := fun t => t.cfg = s.cfg ∧ t.irq = s.irq ∧ t.obj = s.obj) ⟨rfl, rfl, rfl⟩ (fun _ => ?_)
      split
      · have kt := keepsInputs_tick (roundStart s)
        rw [advanceOnce_eq, kt.cfg, kt.irq, kt.obj, roundStart_eq]
        exact ⟨rfl, rfl, rfl⟩
      · exact ⟨rfl, rfl, rfl⟩
    obtain ⟨h1, h2, h3⟩ := ih (advanceRound s)
    exact ⟨h1.trans h.1, h2.trans h.2.1, h3.trans h.2.2⟩

theorem State.TickInv.roundStart {s : State} (h : s.TickInv) : (roundStart s).TickInv := by
  rw [roundStart_eq]
  exact { h with }

theorem State.TickInv.withAcc {s : State} (h : s.TickInv) (a : Nat) :
    State.TickInv { s with timing := { s.timing with acc := a } } := { h with }

/-- A relation that a state bears to itself, that every round's tick of a running block extends, holds from start to
end of a loop. -/
theorem advanceLoop_induction (R : State → Prop) (hR : ∀ u, R u → u.TickInv → u.fault = none →
    u.cfg.desc.tpd ≤ u.timing.acc → R (tick (roundStart u))) :
    ∀ (k : Nat) (s : State), R s → s.TickInv → R (advanceLoop k s) ∧ (advanceLoop k s).TickInv := by
  intro k
  induction k with
  | zero => intro s h hi; exact ⟨h, hi⟩
  | succ k ih =>
    intro s h hi
    rw [advanceLoop]
    cases hf : s.fault with
    | some f =>
      have : advanceRound s = s := State.live_of_halted hf _
      rw [this]
      exact ih s h hi
    | none =>
      by_cases ha : s.cfg.desc.tpd ≤ s.timing.acc
      · rw [advanceRound_of_running hf ha]
        refine ih _ (hR s h hi hf ha) ?_
        refine State.TickInv.tick hi.roundStart ?_
        rw [roundStart_eq]; exact hf
      · rw [advanceRound_of_short (by omega)]
        exact ih s h hi

theorem State.TickInv.frameDots_pos {s : State} (hi : s.TickInv) : 0 < s.frameDots := by
  have := hi.position_lt
  omega

theorem State.TickInv.afterReady_lt {s : State} (hi : s.TickInv) : s.afterReady < s.frameDots := by
  have hd := hi.desc
  have h := hi.ready_lt
  have : 0 < (s.cfg.desc.fal + s.cfg.desc.ah) * s.cfg.desc.hTotal := Nat.mul_pos (by omega) (by omega)
  unfold State.afterReady
  omega

/-- One more dot passes one more frame boundary exactly when it lands on it: `F` the frame, `R` the offset, `p` the
position `m + k` around the frame. -/
theorem div_step (F p m k R q : Nat) (hF : 0 < F) (hR : R < F) (hp : p < F) (hpk : m + k = p + q * F) :
    (m + k + 1 + R) / F = (m + k + R) / F + if p + 1 + R = F then 1 else 0 := by
  have e1 : m + k + 1 + R = p + 1 + R + q * F := by omega
  have e2 : m + k + R = p + R + q * F := by omega
  rw [e1, e2, Nat.add_mul_div_right _ _ hF, Nat.add_mul_div_right _ _ hF]
  split
  · next h => rw [h, Nat.div_self hF, Nat.div_eq_of_lt (by omega)]; omega
  · next h =>
    rcases Nat.lt_or_gt_of_ne h with h | h
    · rw [Nat.div_eq_of_lt h, Nat.div_eq_of_lt (by omega), Nat.add_zero]
    · rw [Nat.div_eq_of_lt_le (k := 1) (by omega) (by omega), Nat.div_eq_of_lt_le (k := 1) (by omega) (by omega),
        Nat.add_zero]

/-- So many rounds, with the cycles for all of them in the accumulator. -/
theorem advanceLoop_spec (k : Nat) : ∀ s : State, s.TickInv → s.fault = none → k * s.cfg.desc.tpd ≤ s.timing.acc →
    (advanceLoop k s).cfg = s.cfg ∧
    ((advanceLoop k s).fault = none →
      (advanceLoop k s).timing.acc = s.timing.acc - k * s.cfg.desc.tpd ∧
      (advanceLoop k s).position = (s.position + k) % s.frameDots ∧
      (advanceLoop k s).swapCount + (s.position + s.afterReady) / s.frameDots =
        s.swapCount + (s.position + k + s.afterReady) / s.frameDots) := by
  induction k with
  | zero =>
    intro s hi hf _
    refine ⟨rfl, fun _ => ⟨by simp [advanceLoop], ?_, rfl⟩⟩
    show s.position = (s.position + 0) % _
    rw [Nat.add_zero, Nat.mod_eq_of_lt hi.position_lt]
  | succ k ih =>
    intro s hi hf hk
    rw [Nat.succ_mul] at hk
    obtain ⟨i1, i2⟩ := ih s hi hf (by omega)
    have hi' := (advanceLoop_induction (fun _ => True) (fun _ _ _ _ _ => trivial) k s trivial hi).2
    rw [advanceLoop_add]
    generalize advanceLoop k s = u at *
    rw [show advanceLoop 1 u = advanceRound u from rfl]
    cases hfu : u.fault with
    | some f =>
      have : advanceRound u = u := State.live_of_halted hfu _
      rw [this]
      exact ⟨i1, fun h => by rw [hfu] at h; cases h⟩
    | none =>
      obtain ⟨j1, j2, j3⟩ := i2 hfu
      have e : advanceRound u = tick (roundStart u) := advanceRound_of_running hfu (by rw [i1, j1]; omega)
      have hr := hi'.roundStart
      have k1 := tick_keeps _ hr
      have rs := roundStart_eq u
      have rcfg : (roundStart u).cfg = u.cfg := by rw [rs]
      have racc : (roundStart u).timing.acc = u.timing.acc - u.cfg.desc.tpd := by rw [rs]
      have rpos : (roundStart u).position = u.position := by rw [rs]; rfl
      have rsw : (roundStart u).swapCount = u.swapCount := by rw [rs]
      have rF : (roundStart u).frameDots = s.frameDots := by unfold State.frameDots; rw [rcfg, i1]
      have rR : (roundStart u).afterReady = s.afterReady := by unfold State.afterReady; rw [rF, rcfg, i1]
      rw [e]
      refine ⟨by rw [k1.cfg, rcfg, i1], fun hft => ?_⟩
      obtain ⟨p1, p2⟩ := tick_position _ hr hft
      rw [rF, rpos, j2] at p1
      rw [rF, rR, rpos, j2, rsw] at p2
      refine ⟨?_, ?_, ?_⟩
      · rw [k1.acc, racc, j1, i1, Nat.succ_mul]; omega
      · rw [p1, Nat.mod_add_mod]; rfl
      · have d := div_step s.frameDots ((s.position + k) % s.frameDots) s.position k s.afterReady
          ((s.position + k) / s.frameDots) hi.frameDots_pos hi.afterReady_lt (Nat.mod_lt _ hi.frameDots_pos)
          (by rw [Nat.mod_add_div'])
        rw [p2, show s.position + (k + 1) + s.afterReady = s.position + k + 1 + s.afterReady by omega, d]
        omega

/-- The instruction is its loop. -/
theorem exec_adv {s : State} (hf : s.fault = none) (n : BitVec 28) :
    exec (.adv n) s = .next (advanceLoop (s.ticksOf n.toNat)
      { s with timing := { s.timing with acc := s.timing.acc + n.toNat } }) := State.perform_of_running hf _

end Sys2Proof.Machine
end

