-- ==== Sys2Proof/Laws/Accumulator.lean ====
section
/-! SUPPORT. A tick does not read the accumulator: it commutes with a change of it. -/

namespace Sys2Proof.Machine

/-- Replace the accumulator. -/
def State.withAcc (s : State) (a : Nat) : State := { s with timing := { s.timing with acc := a } }

@[simp] theorem State.withAcc_cfg (s : State) (a : Nat) : (s.withAcc a).cfg = s.cfg := rfl
@[simp] theorem State.withAcc_acc (s : State) (a : Nat) : (s.withAcc a).timing.acc = a := rfl
@[simp] theorem State.withAcc_fault (s : State) (a : Nat) : (s.withAcc a).fault = s.fault := rfl
@[simp] theorem State.withAcc_consumer (s : State) (a : Nat) : (s.withAcc a).consumer = s.consumer := rfl
@[simp] theorem State.withAcc_withAcc (s : State) (a b : Nat) : (s.withAcc a).withAcc b = s.withAcc b := rfl

/-- `f` neither reads nor writes the accumulator. -/
def IgnoresAcc (f : State → State) : Prop := ∀ (s : State) (a : Nat), f (s.withAcc a) = (f s).withAcc a

theorem IgnoresAcc.comp {f g : State → State} (hf : IgnoresAcc f) (hg : IgnoresAcc g) :
    IgnoresAcc (fun s => g (f s)) := by
  intro s a
  show g (f (s.withAcc a)) = _
  rw [hf, hg]

theorem IgnoresAcc.live {f : State → State} (hf : IgnoresAcc f) : IgnoresAcc (fun s => s.live f) := by
  intro s a
  show (s.withAcc a).live f = (s.live f).withAcc a
  cases h : s.fault with
  | none => rw [State.live_of_running h, State.live_of_running (show (s.withAcc a).fault = none from h), hf]
  | some e => rw [State.live_of_halted h, State.live_of_halted (show (s.withAcc a).fault = some e from h)]

theorem IgnoresAcc.ite {p : State → Prop} [DecidablePred p] {f g : State → State} (hf : IgnoresAcc f)
    (hg : IgnoresAcc g) (hp : ∀ s a, p (s.withAcc a) ↔ p s) : IgnoresAcc (fun s => if p s then f s else g s) := by
  intro s a
  show (if p (s.withAcc a) then f (s.withAcc a) else g (s.withAcc a)) = (if p s then f s else g s).withAcc a
  by_cases h : p s
  · rw [if_pos h, if_pos ((hp s a).2 h), hf]
  · rw [if_neg h, if_neg (fun k => h ((hp s a).1 k)), hg]

theorem IgnoresAcc.id : IgnoresAcc (fun s => s) := fun _ _ => rfl

theorem ignoresAcc_advanceAfter (h : Half) : IgnoresAcc (fun s => s.advanceAfter h) := by
  intro s a
  show (s.withAcc a).advanceAfter h = _
  simp only [State.advanceAfter_eq]
  rfl

theorem ignoresAcc_writeVmdata (h : Half) (d : Byte) : IgnoresAcc (writeVmdata h d) := by
  intro s a
  have hc : (s.withAcc a).cursorWord = s.cursorWord := rfl
  unfold writeVmdata
  rw [hc]
  show (match wordIndex s.cfg.vramA15 s.cursorWord with
    | none => (s.withAcc a).raise s.cursorWord
    | some w => ((s.withAcc a).vramWrite8 (h.byteIndex w) d).advanceAfter h) = _
  cases wordIndex s.cfg.vramA15 s.cursorWord with
  | none => rfl
  | some w => exact ignoresAcc_advanceAfter h (s.vramWrite8 (h.byteIndex w) d) a

theorem ignoresAcc_writeCgdata (d : Byte) : IgnoresAcc (writeCgdata d) := by
  intro s a
  unfold writeCgdata
  show (if s.cgc.phase then _ else _) = _
  split <;> rfl

theorem ignoresAcc_logUnmapped (dir : BusDir) (b : BusAddr) : IgnoresAcc (fun s => s.logUnmapped dir b) := by
  intro s a
  show (s.withAcc a).logUnmapped dir b = _
  simp only [State.logUnmapped_eq]
  rfl

theorem ignoresAcc_writePort (p : WPort) (d : Byte) : IgnoresAcc (WPort.run p d) := by
  cases p
  case vmdatal => exact ignoresAcc_writeVmdata .low d
  case vmdatah => exact ignoresAcc_writeVmdata .high d
  case cgdata => exact ignoresAcc_writeCgdata d
  all_goals exact fun _ _ => rfl

theorem ignoresAcc_busWrite (b : BusAddr) (d : Byte) : IgnoresAcc (busWrite b d) := by
  intro s a
  unfold busWrite
  cases WPort.ofAddr b with
  | none => exact ignoresAcc_logUnmapped .write b s a
  | some p => exact ignoresAcc_writePort p d s a

theorem ignoresAcc_performDraw (ps : List (BusAddr × Byte)) : IgnoresAcc (performDraw ps) := by
  induction ps with
  | nil => exact fun _ _ => rfl
  | cons p ps ih => exact (ignoresAcc_busWrite p.1 p.2).live.comp ih

theorem ignoresAcc_dmaHook (line : Nat) : IgnoresAcc (dmaHook line) := by
  intro s a
  unfold dmaHook
  show (match s.draws with
    | [] => (s.withAcc a).emit (.dmaHook line)
    | d :: ds => performDraw d { (s.withAcc a).emit (.dmaHook line) with draws := ds }) = _
  cases s.draws with
  | nil => rfl
  | cons d ds => exact ignoresAcc_performDraw d { s.emit (.dmaHook line) with draws := ds } a

theorem ignoresAcc_fillColumns (row : Nat) (p : Pixel) (xs : List Nat) : IgnoresAcc (fillColumns row p xs) := by
  induction xs with
  | nil => exact fun _ _ => rfl
  | cons x xs ih => exact fun s a => ih (s.fbWrite row x p) a

theorem ignoresAcc_composePixel (n : BgIdx) (row x : Nat) : IgnoresAcc (composePixel n row x) := by
  intro s a
  have h : layerPixel (s.withAcc a) n row x = layerPixel s n row x := rfl
  unfold composePixel
  rw [h]
  cases layerPixel s n row x <;> rfl

theorem ignoresAcc_composeColumns (n : BgIdx) (row : Nat) (xs : List Nat) :
    IgnoresAcc (composeColumns n row xs) := by
  induction xs with
  | nil => exact fun _ _ => rfl
  | cons x xs ih => exact (ignoresAcc_composePixel n row x).live.comp ih

theorem ignoresAcc_composeLayers (row : Nat) (ns : List BgIdx) : IgnoresAcc (composeLayers row ns) := by
  induction ns with
  | nil => exact fun _ _ => rfl
  | cons n ns ih =>
    have f := IgnoresAcc.ite (p := fun s => (s.bg.get n).enable = true)
      (ignoresAcc_composeColumns n row (List.range 256)) IgnoresAcc.id (fun _ _ => Iff.rfl)
    exact f.live.comp ih

theorem ignoresAcc_compose (line : Nat) : IgnoresAcc (compose line) := by
  intro s a
  unfold compose
  show (if s.disp.forceBlank then
      fillColumns (line - s.cfg.desc.fal) opaqueBlack (List.range 256) (s.withAcc a)
    else composeLayers (line - s.cfg.desc.fal) s.cfg.layers
      (fillColumns (line - s.cfg.desc.fal) (expand (s.cgRead 0)) (List.range 256) (s.withAcc a))) = _
  rw [ignoresAcc_fillColumns, ignoresAcc_fillColumns, ignoresAcc_composeLayers]
  dsimp only
  split <;> rfl

theorem ignoresAcc_renderLine (line : Nat) : IgnoresAcc (renderLine line) :=
  (ignoresAcc_compose line).comp (IgnoresAcc.live (fun _ _ => rfl))

theorem ignoresAcc_lineEnd : IgnoresAcc lineEnd := by
  intro s a
  unfold lineEnd
  show (if s.timing.hCounter = s.cfg.desc.fad + s.cfg.desc.aw then
      if s.cfg.desc.lineVisible s.timing.vCounter then
        (dmaHook s.timing.vCounter (State.withAcc { s with timing := s.timing.withHBlank true } a)).live
          (renderLine s.timing.vCounter)
      else State.withAcc { s with timing := s.timing.withHBlank true } a
    else s.withAcc a) = _
  have h := (ignoresAcc_dmaHook s.timing.vCounter).comp (ignoresAcc_renderLine s.timing.vCounter).live
  have k := h { s with timing := s.timing.withHBlank true } a
  dsimp only at k ⊢
  rw [k]
  split
  · split <;> rfl
  · rfl

theorem ignoresAcc_activeStart : IgnoresAcc activeStart := by
  intro s a
  unfold activeStart
  show (if s.timing.hCounter = s.cfg.desc.fad then _ else _) = _
  split <;> rfl

theorem ignoresAcc_visibleStart : IgnoresAcc visibleStart := by
  intro s a
  unfold visibleStart
  show (if s.timing.vCounter = s.cfg.desc.fal then _ else _) = _
  split <;> rfl

theorem ignoresAcc_raiseFrameReady : IgnoresAcc raiseFrameReady := by
  intro s a
  unfold raiseFrameReady
  show (if s.timing.frameReady then _ else _) = _
  split <;> rfl

theorem ignoresAcc_requestNmi : IgnoresAcc requestNmi := by
  intro s a
  unfold requestNmi
  show (if s.irq.nmiArmed then _ else _) = _
  split <;> rfl

theorem ignoresAcc_visibleEnd : IgnoresAcc visibleEnd := by
  have f : IgnoresAcc (fun s => requestNmi (raiseFrameReady { s with timing := s.timing.withVBlank true })) :=
    IgnoresAcc.comp (f := fun s => { s with timing := s.timing.withVBlank true }) (fun _ _ => rfl)
      (ignoresAcc_raiseFrameReady.comp ignoresAcc_requestNmi)
  exact IgnoresAcc.ite (p := fun s => s.timing.vCounter = s.cfg.desc.fal + s.cfg.desc.ah) f IgnoresAcc.id
    (fun _ _ => Iff.rfl)

theorem ignoresAcc_frameWrap : IgnoresAcc frameWrap := by
  intro s a
  unfold frameWrap
  show (if s.timing.vCounter = s.cfg.desc.vTotal then _ else _) = _
  split <;> rfl

theorem ignoresAcc_lineWrap : IgnoresAcc lineWrap := by
  have f := ((ignoresAcc_visibleStart.comp ignoresAcc_visibleEnd).comp ignoresAcc_frameWrap)
  have g : IgnoresAcc (fun s : State =>
      { s with timing := { s.timing with hCounter := 0, vCounter := s.timing.vCounter + 1 } }) := fun _ _ => rfl
  exact IgnoresAcc.ite (p := fun s => s.timing.hCounter = s.cfg.desc.hTotal) (g.comp f) IgnoresAcc.id
    (fun _ _ => Iff.rfl)

theorem ignoresAcc_irqCheck : IgnoresAcc irqCheck := by
  intro s a
  simp only [irqCheck_eq]
  rfl

/-- A tick neither reads nor writes the accumulator. -/
theorem ignoresAcc_tick : IgnoresAcc tick := by
  have h : IgnoresAcc countDot := fun _ _ => rfl
  exact ((h.comp ignoresAcc_activeStart).comp ignoresAcc_lineEnd).comp
    (ignoresAcc_lineWrap.comp ignoresAcc_irqCheck).live

theorem ignoresAcc_consumerTurn : IgnoresAcc consumerTurn := by
  intro s a
  unfold consumerTurn
  show (match s.consumer with
    | [] => s.withAcc a
    | rs :: rest => readDisplays rs { s.withAcc a with consumer := rest }) = _
  cases s.consumer with
  | nil => rfl
  | cons rs rest =>
    simp only [readDisplays_eq]
    rfl

/-- More cycles in the accumulator change nothing of a round but the accumulator. -/
theorem advanceRound_withAcc {s : State} (hi : s.TickInv) (c : Nat) (hf : s.fault = none)
    (ha : s.cfg.desc.tpd ≤ s.timing.acc) :
    advanceRound (s.withAcc (s.timing.acc + c)) = (advanceRound s).withAcc ((advanceRound s).timing.acc + c) := by
  rw [advanceRound_of_running hf ha, advanceRound_of_running ((State.withAcc_fault ..).trans hf)
    (by simp only [State.withAcc_cfg, State.withAcc_acc]; omega)]
  have h1 : roundStart (s.withAcc (s.timing.acc + c)) =
      (roundStart s).withAcc ((roundStart s).timing.acc + c) := by
    rw [roundStart_eq, roundStart_eq, ignoresAcc_consumerTurn s (s.timing.acc + c)]
    show _ = State.withAcc _ (s.timing.acc - s.cfg.desc.tpd + c)
    simp only [State.withAcc]
    congr 2
    omega
  rw [h1, ignoresAcc_tick, (tick_keeps _ hi.roundStart).acc]

/-- More cycles in the accumulator change nothing of so many rounds but the accumulator. -/
theorem advanceLoop_withAcc (k : Nat) : ∀ (s : State) (c : Nat), s.TickInv → s.fault = none →
    k * s.cfg.desc.tpd ≤ s.timing.acc →
    advanceLoop k (s.withAcc (s.timing.acc + c)) = (advanceLoop k s).withAcc ((advanceLoop k s).timing.acc + c) := by
  induction k with
  | zero => intro s c _ _ _; rfl
  | succ k ih =>
    intro s c hi hf hk
    rw [Nat.succ_mul] at hk
    rw [advanceLoop, advanceRound_withAcc hi c hf (by omega), advanceLoop]
    have sp := advanceLoop_spec 1 s hi hf (by omega)
    rw [show advanceLoop 1 s = advanceRound s from rfl] at sp
    cases hf' : (advanceRound s).fault with
    | some f => rw [advanceLoop_halted _ ((State.withAcc_fault ..).trans hf'), advanceLoop_halted _ hf']
    | none =>
      refine ih _ c ?_ hf' ?_
      · exact (advanceLoop_induction (fun _ => True) (fun _ _ _ _ _ => trivial) 1 s trivial hi).2
      · rw [sp.1, (sp.2 hf').1]; omega

end Sys2Proof.Machine
end

