-- ==== Sys2Proof/Laws/PerInstr.lean ====
section
/-! SUPPORT. Statements about every instruction as syntax, one lemma a constructor. -/

namespace Sys2Proof.Laws.EncodeKind

/-- The word of an instruction never has one of the kinds 30_encoding.md R98 reserves. -/
def Statement (i : Instr) : Prop := 1 ≤ (encode i).toNat / 2 ^ 28 ∧ (encode i).toNat / 2 ^ 28 ≤ 7

theorem of_busw (a : BusAddr) (d : Byte) :
    1 ≤ (encodeBusw a d).toNat / 2 ^ 28 ∧ (encodeBusw a d).toNat / 2 ^ 28 ≤ 7 := by
  have := a.isLt
  have := d.isLt
  rw [encodeBusw_toNat]
  omega

theorem of_busr (a : BusAddr) :
    1 ≤ (encodeBusr a).toNat / 2 ^ 28 ∧ (encodeBusr a).toNat / 2 ^ 28 ≤ 7 := by
  have := a.isLt
  rw [encodeBusr_toNat]
  omega

/-- A kind in front of 28 bits. -/
theorem of_kind (k : BitVec 4) (x : BitVec 28) (h : 1 ≤ k.toNat) (h' : k.toNat ≤ 7) :
    1 ≤ (k ++ x).toNat / 2 ^ 28 ∧ (k ++ x).toNat / 2 ^ 28 ≤ 7 := by
  have := x.isLt
  have e : (k ++ x).toNat = k.toNat * 2 ^ 28 + x.toNat := toNat_append_eq k x
  rw [e]
  omega

theorem wInidisp (data : Byte) : Statement (.wInidisp data) := of_busw _ _

theorem wBgmode (data : Byte) : Statement (.wBgmode data) := of_busw _ _

theorem wBg1sc (data : Byte) : Statement (.wBg1sc data) := of_busw _ _

theorem wBg2sc (data : Byte) : Statement (.wBg2sc data) := of_busw _ _

theorem wBg3sc (data : Byte) : Statement (.wBg3sc data) := of_busw _ _

theorem wBg4sc (data : Byte) : Statement (.wBg4sc data) := of_busw _ _

theorem wBg12nba (data : Byte) : Statement (.wBg12nba data) := of_busw _ _

theorem wBg34nba (data : Byte) : Statement (.wBg34nba data) := of_busw _ _

theorem wBg1hofs (data : Byte) : Statement (.wBg1hofs data) := of_busw _ _

theorem wBg1vofs (data : Byte) : Statement (.wBg1vofs data) := of_busw _ _

theorem wBg2hofs (data : Byte) : Statement (.wBg2hofs data) := of_busw _ _

theorem wBg2vofs (data : Byte) : Statement (.wBg2vofs data) := of_busw _ _

theorem wBg3hofs (data : Byte) : Statement (.wBg3hofs data) := of_busw _ _

theorem wBg3vofs (data : Byte) : Statement (.wBg3vofs data) := of_busw _ _

theorem wBg4hofs (data : Byte) : Statement (.wBg4hofs data) := of_busw _ _

theorem wBg4vofs (data : Byte) : Statement (.wBg4vofs data) := of_busw _ _

theorem wVmain (data : Byte) : Statement (.wVmain data) := of_busw _ _

theorem wVmaddl (data : Byte) : Statement (.wVmaddl data) := of_busw _ _

theorem wVmaddh (data : Byte) : Statement (.wVmaddh data) := of_busw _ _

theorem wVmdatal (data : Byte) : Statement (.wVmdatal data) := of_busw _ _

theorem wVmdatah (data : Byte) : Statement (.wVmdatah data) := of_busw _ _

theorem wCgadd (data : Byte) : Statement (.wCgadd data) := of_busw _ _

theorem wCgdata (data : Byte) : Statement (.wCgdata data) := of_busw _ _

theorem wTm (data : Byte) : Statement (.wTm data) := of_busw _ _

theorem wNop (addr : BusAddr) (data : Byte) : Statement (.wNop addr data) := of_busw _ _

theorem rSlhv : Statement .rSlhv := of_busr _

theorem rRdvraml : Statement .rRdvraml := of_busr _

theorem rRdvramh : Statement .rRdvramh := of_busr _

theorem rRdcgram : Statement .rRdcgram := of_busr _

theorem rOphct : Statement .rOphct := of_busr _

theorem rOpvct : Statement .rOpvct := of_busr _

theorem rStat77 : Statement .rStat77 := of_busr _

theorem rStat78 : Statement .rStat78 := of_busr _

theorem rOpen (addr : BusAddr) : Statement (.rOpen addr) := of_busr _

theorem adv (n : BitVec 28) : Statement (.adv n) := of_kind 3#4 n (by decide) (by decide)

theorem rst : Statement .rst := of_kind 4#4 0#28 (by decide) (by decide)

theorem setirq (nmiArmed : Bool) (irqMode : BitVec 2) (vTarget hTarget : BitVec 9) : Statement (.setirq nmiArmed irqMode vTarget hTarget) :=
  by
  have hm := irqMode.isLt
  have hv := vTarget.isLt
  have hh := hTarget.isLt
  have hb := Bool.toNat_le nmiArmed
  simp only [Statement, encode, toNat_append_eq, toNat_ofBool_eq, BitVec.toNat_ofNat]
  omega

theorem setobj (timeOver rangeOver : Bool) : Statement (.setobj timeOver rangeOver) := by
  have ht := Bool.toNat_le timeOver
  have hr := Bool.toNat_le rangeOver
  simp only [Statement, encode, toNat_append_eq, toNat_ofBool_eq, BitVec.toNat_ofNat]
  omega

theorem dread (x y : BitVec 8) : Statement (.dread x y) := by
  have hx := x.isLt
  have hy := y.isLt
  simp only [Statement, encode, toNat_append_eq, BitVec.toNat_ofNat]
  omega

end Sys2Proof.Laws.EncodeKind
end

