-- ==== Sys2Proof/Laws/Ports.lean ====
section
/-! SUPPORT. The register map's tables, and decoding a register-bus word. -/

namespace Sys2Proof

@[simp] theorem WPort.ofAddr_addr (p : WPort) : WPort.ofAddr p.addr = some p := by cases p <;> rfl

@[simp] theorem RPort.ofAddr_addr (p : RPort) : RPort.ofAddr p.addr = some p := by cases p <;> rfl

theorem WPort.ofAddr_eq_none {a : BusAddr} (h : ∀ p : WPort, p.addr ≠ a) : WPort.ofAddr a = none := by
  simp [WPort.ofAddr, h]

theorem RPort.ofAddr_eq_none {a : BusAddr} (h : ∀ p : RPort, p.addr ≠ a) : RPort.ofAddr a = none := by
  simp [RPort.ofAddr, h]

theorem WPort.addr_of_ofAddr {a : BusAddr} {p : WPort} (h : WPort.ofAddr a = some p) : p.addr = a := by
  simpa using List.find?_some h

theorem RPort.addr_of_ofAddr {a : BusAddr} {p : RPort} (h : RPort.ofAddr a = some p) : p.addr = a := by
  simpa using List.find?_some h

theorem encode_writeInstr (p : WPort) (d : Byte) : encode (p.instr d) = encodeBusw p.addr d := by cases p <;> rfl

theorem encode_readInstr (p : RPort) : encode p.instr = encodeBusr p.addr := by cases p <;> rfl

theorem WPort.instr_wf (p : WPort) (d : Byte) : (p.instr d).wf = true := by cases p <;> rfl

theorem RPort.instr_wf (p : RPort) : p.instr.wf = true := by cases p <;> rfl

theorem decode_kind (w : Word) (k : Nat) (h : w.toNat / 2 ^ 28 = k) : (field w 28 4).toNat = k := by
  have := w.isLt
  rw [toNat_field]; omega

/-- A BUSW word decodes to the row its address selects. -/
theorem decode_encodeBusw (a : BusAddr) (d : Byte) : decode (encodeBusw a d) = .ok (decodeWrite a d) := by
  have hw := encodeBusw_toNat a d
  have ha := a.isLt
  have hd := d.isLt
  have hk := decode_kind (encodeBusw a d) 1 (by omega)
  have h1 : field (encodeBusw a d) 24 4 = 0 := field_eq _ _ _ _ (by simp; omega)
  have h2 : field (encodeBusw a d) 8 16 = a := field_eq _ _ _ _ (by omega)
  have h3 : field (encodeBusw a d) 0 8 = d := field_eq _ _ _ _ (by omega)
  simp [decode, hk, decodeBusw, h1, h2, h3]

/-- A BUSR word decodes to the row its address selects. -/
theorem decode_encodeBusr (a : BusAddr) : decode (encodeBusr a) = .ok (decodeRead a) := by
  have hw := encodeBusr_toNat a
  have ha := a.isLt
  have hk := decode_kind (encodeBusr a) 2 (by omega)
  have h1 : field (encodeBusr a) 24 4 = 0 := field_eq _ _ _ _ (by simp; omega)
  have h2 : field (encodeBusr a) 8 16 = a := field_eq _ _ _ _ (by omega)
  have h3 : field (encodeBusr a) 0 8 = 0 := field_eq _ _ _ _ (by simp; omega)
  simp [decode, hk, decodeBusr, h1, h2, h3]

/-- The same with the word's number. -/
theorem decode_busw_word (a : BusAddr) (d : Byte) :
    decode (BitVec.ofNat 32 (0x10000000 + a.toNat * 256 + d.toNat)) = .ok (decodeWrite a d) := by
  rw [← encodeBusw_toNat, BitVec.ofNat_toNat, BitVec.setWidth_eq, decode_encodeBusw]

/-- The same with the word's number. -/
theorem decode_busr_word (a : BusAddr) :
    decode (BitVec.ofNat 32 (0x20000000 + a.toNat * 256)) = .ok (decodeRead a) := by
  rw [← encodeBusr_toNat, BitVec.ofNat_toNat, BitVec.setWidth_eq, decode_encodeBusr]

/-- The row a write's address selects is well-formed, and its word is the BUSW of that address. -/
theorem decodeWrite_spec (a : BusAddr) (d : Byte) :
    (decodeWrite a d).wf = true ∧ encode (decodeWrite a d) = encodeBusw a d := by
  unfold decodeWrite
  split
  · rename_i p h
    rw [encode_writeInstr, WPort.addr_of_ofAddr h]
    exact ⟨WPort.instr_wf p d, rfl⟩
  · rename_i h
    simp [Instr.wf, h, encode]

/-- The row a read's address selects is well-formed, and its word is the BUSR of that address. -/
theorem decodeRead_spec (a : BusAddr) :
    (decodeRead a).wf = true ∧ encode (decodeRead a) = encodeBusr a := by
  unfold decodeRead
  split
  · rename_i p h
    rw [encode_readInstr, RPort.addr_of_ofAddr h]
    exact ⟨RPort.instr_wf p, rfl⟩
  · rename_i h
    simp [Instr.wf, h, encode]

/-- The decoder on the word's number. -/
theorem decode_by_number (w : Word) : decode w =
    match w.toNat / 2 ^ 28 with
    | 1 =>
      if w.toNat / 2 ^ 24 % 16 = 0 then .ok (decodeWrite (field w 8 16) (field w 0 8)) else .error .reservedField
    | 2 =>
      if w.toNat / 2 ^ 24 % 16 = 0 ∧ w.toNat % 256 = 0 then .ok (decodeRead (field w 8 16))
      else .error .reservedField
    | 3 => .ok (.adv (field w 0 28))
    | 4 => if w.toNat % 2 ^ 28 = 0 then .ok .rst else .error .reservedField
    | 5 =>
      if w.toNat / 2 ^ 9 % 128 = 0 then
        .ok (.setirq (w.getLsbD 27) (field w 25 2) (field w 16 9) (field w 0 9))
      else .error .reservedField
    | 6 =>
      if w.toNat / 4 % 2 ^ 26 = 0 then .ok (.setobj (w.getLsbD 1) (w.getLsbD 0)) else .error .reservedField
    | 7 =>
      if w.toNat / 2 ^ 16 % 2 ^ 12 = 0 then
        if w.toNat / 2 ^ 8 % 256 < 224 then .ok (.dread (field w 0 8) (field w 8 8)) else .error .dreadRow
      else .error .reservedField
    | _ => .error .reservedKind := by
  have zero : ∀ lo n, field w lo n = 0 ↔ w.toNat / 2 ^ lo % 2 ^ n = 0 := by
    intro lo n
    constructor
    · intro h
      rw [← toNat_field, h]
      simp
    · intro h
      exact field_eq w lo n 0 (by simpa using h)
  unfold decode
  rw [decode_kind w _ rfl]
  simp only [decodeBusw, decodeBusr, decodeRst, decodeSetirq, decodeSetobj, decodeDread, zero, toNat_field]
  norm_num <;> rfl

end Sys2Proof
end

