-- ==== Sys2Proof/Tests/Slice0.lean ====
section
/-! SUPPORT. Tests: ill-formed terms, words written out from the spec's encodings, one step of each instruction with the
result the spec gives, and for each statement with hypotheses a case that meets them. "Vector" names a row of
95_test_vectors.md. -/

namespace Sys2Proof.Tests

open Sys2Proof.Machine

/-! ## Helpers -/

/-- The settings of 95_test_vectors.md, with a value for its symbolic OPEN_BUS. -/
def testCfg : Config :=
  { desc := Descriptor.ntscEx, remapFormula := .rotate, vramA15 := .mirror, layers := [.bg1], openBus := 0x5A#8
    ppu1Version := 1#4, ppu2Version := 3#4, logUnmapped := false }

/-- `S0` of 95_test_vectors.md. -/
def S0 : State := State.initial testCfg

/-- `S0` at dot `h` of line `v`. -/
def at' (h v : Nat) : State :=
  { S0 with timing :=
      { hCounter := h, vCounter := v, acc := 0, inHBlank := !testCfg.desc.dotActive h
        inVBlank := !testCfg.desc.lineVisible v, frameReady := decide (225 ≤ v) } }

/-- `S0` with the cursor at `a`, the remap code `m` and the trigger. -/
def cursorAt (a : BitVec 16) (m : BitVec 2) (high : Bool) : State :=
  { S0 with vm := { addr := a, incCode := 0, remap := m, triggerHigh := high } }

/-- `S0` where a data access raises: address 0x8000 with `VRAM_A15 = fault` (vector V6). -/
def raising : State := { cursorAt 0x8000#16 0 false with cfg := { testCfg with vramA15 := .fault } }

/-- A halted block. -/
def halted : State := raising.raise 0x8000

/-- The state a transaction gives, `S0` if it gives none. -/
def result : Answer → State
  | .next t => t
  | _ => S0

/-- The invariant of a running state, from checks that compute. -/
theorem inv_of_running (s : State)
    (h : s.fault = none ∧ s.cfg.desc.valid = true ∧ s.cfg.layers.Nodup ∧ s.timing.hCounter < s.cfg.desc.hTotal ∧
      s.timing.vCounter < s.cfg.desc.vTotal ∧ s.timing.acc < s.cfg.desc.tpd ∧
      s.timing.inHBlank = !s.cfg.desc.dotActive s.timing.hCounter ∧
      s.timing.inVBlank = !s.cfg.desc.lineVisible s.timing.vCounter ∧
      s.timing.frameReady = decide (s.cfg.desc.fal + s.cfg.desc.ah ≤ s.timing.vCounter) ∧
      s.vram.wf = true ∧ s.cg.wf = true ∧ s.work.wf = true ∧ s.display.wf = true ∧
      [BgIdx.bg1, .bg2, .bg3, .bg4].all (fun n => (s.bg.get n).tilemapBase.toNat % 0x400 == 0) = true ∧
      [BgIdx.bg1, .bg2, .bg3, .bg4].all (fun n => (s.bg.get n).charBase.toNat % 0x1000 == 0) = true) : s.Inv := by
  obtain ⟨h0, h1, h2, h3, h4, h5, h6, h7, h8, h9, h10, h11, h12, h13, h14⟩ := h
  simp only [List.all_cons, List.all_nil, Bool.and_eq_true, beq_iff_eq, and_true] at h13 h14
  refine { descValid := h1, layersDistinct := h2, hRange := h3, vRange := h4, accRange := fun _ => h5, hBlank := h6
           vBlank := h7, guard := h8, vramWf := h9, cgWf := h10, workWf := h11, displayWf := h12
           tilemapAligned := ?_, charAligned := ?_, faultRaised := ?_ }
  · intro n; cases n <;> simp [h13]
  · intro n; cases n <;> simp [h14]
  · intro f hf; rw [h0] at hf; cases hf

/-! ## Ill-formed terms -/

theorem test_wf_refuses_nop_at_a_port : (Instr.wNop 0x2100#16 0#8).wf = false := by decide

theorem test_wf_refuses_open_read_at_a_port : (Instr.rOpen 0x2137#16).wf = false := by decide

theorem test_wf_refuses_row_224 : (Instr.dread 0#8 224#8).wf = false := by decide

theorem test_wf_takes_row_223 : (Instr.dread 255#8 223#8).wf = true := by decide

/-! ## Words, bit by bit from 30_encoding.md R91 to R97 and 10_state.md R22 -/

theorem test_decode_display_ports :
    [0x10210080#32, 0x10210509#32, 0x10210704#32, 0x102108FC#32, 0x10210910#32, 0x10210A03#32, 0x10210B21#32,
      0x10210CF0#32].map decode =
    [.ok (.wInidisp 0x80#8), .ok (.wBgmode 0x09#8), .ok (.wBg1sc 0x04#8), .ok (.wBg2sc 0xFC#8), .ok (.wBg3sc 0x10#8),
      .ok (.wBg4sc 0x03#8), .ok (.wBg12nba 0x21#8), .ok (.wBg34nba 0xF0#8)] := by decide

theorem test_decode_scroll_ports :
    [0x10210D34#32, 0x10210EFF#32, 0x10210FFF#32, 0x10211000#32, 0x10211105#32, 0x102112FF#32, 0x10211308#32,
      0x10211410#32].map decode =
    [.ok (.wBg1hofs 0x34#8), .ok (.wBg1vofs 0xFF#8), .ok (.wBg2hofs 0xFF#8), .ok (.wBg2vofs 0x00#8),
      .ok (.wBg3hofs 0x05#8), .ok (.wBg3vofs 0xFF#8), .ok (.wBg4hofs 0x08#8), .ok (.wBg4vofs 0x10#8)] := by decide

theorem test_decode_memory_ports :
    [0x10211584#32, 0x10211620#32, 0x10211712#32, 0x102118EF#32, 0x102119BE#32, 0x10212103#32, 0x102122FF#32,
      0x10212C01#32, 0x10FFFF00#32].map decode =
    [.ok (.wVmain 0x84#8), .ok (.wVmaddl 0x20#8), .ok (.wVmaddh 0x12#8), .ok (.wVmdatal 0xEF#8),
      .ok (.wVmdatah 0xBE#8), .ok (.wCgadd 0x03#8), .ok (.wCgdata 0xFF#8), .ok (.wTm 0x01#8),
      .ok (.wNop 0xFFFF#16 0x00#8)] := by decide

theorem test_decode_read_ports :
    [0x20213700#32, 0x20213900#32, 0x20213A00#32, 0x20213B00#32, 0x20213C00#32, 0x20213D00#32, 0x20213E00#32,
      0x20213F00#32, 0x20210000#32].map decode =
    [.ok .rSlhv, .ok .rRdvraml, .ok .rRdvramh, .ok .rRdcgram, .ok .rOphct, .ok .rOpvct, .ok .rStat77, .ok .rStat78,
      .ok (.rOpen 0x2100#16)] := by decide

/-- Vectors W10, W11, W13, W16, W18. -/
theorem test_decode_other_kinds :
    [0x3FFFFFFF#32, 0x40000000#32, 0x5A000064#32, 0x60000002#32, 0x7000DFFF#32].map decode =
    [.ok (.adv 268435455#28), .ok .rst, .ok (.setirq true 1#2 0#9 100#9), .ok (.setobj true false),
      .ok (.dread 255#8 223#8)] := by decide

/-- Vectors W5, W7, W12, W15, W17, W19, W20. -/
theorem test_decode_refuses :
    [0x11212200#32, 0x20213F01#32, 0x40000001#32, 0x50000200#32, 0x60000004#32, 0x7000E000#32, 0x00000000#32,
      0x80000000#32, 0xFFFFFFFF#32].map decode =
    [.error .reservedField, .error .reservedField, .error .reservedField, .error .reservedField,
      .error .reservedField, .error .dreadRow, .error .reservedKind, .error .reservedKind,
      .error .reservedKind] := by decide

/-- 40_timing.md R127: the hook's words are BUSW words. -/
theorem test_offerDraw_takes_writes_only :
    (result (S0.offerDraw [0x10210080#32])).draws = [[(0x2100#16, 0x80#8)]] ∧
    S0.offerDraw [0x10210080#32, 0x20213700#32] = .refused (.word .hookKind) := ⟨by decide, rfl⟩

/-! ## One step of each instruction -/

/-- Vector D1. -/
theorem test_inidisp : (result (exec (.wInidisp 0xFF#8) S0)).disp.forceBlank = true ∧
    (result (exec (.wInidisp 0xFF#8) S0)).disp.brightness = 15#4 := by decide

/-- Vector D2. -/
theorem test_bgmode : (result (exec (.wBgmode 0xF9#8) S0)).disp.bgMode = 1#3 ∧
    (result (exec (.wBgmode 0xF9#8) S0)).disp.bg3Priority = true := by decide

/-- Vector D3. -/
theorem test_bgsc : (result (exec (.wBg1sc 0x07#8) S0)).bg.bg1.tilemapBase = 0x0400#16 ∧
    (result (exec (.wBg2sc 0xFC#8) S0)).bg.bg2.tilemapBase = 0xFC00#16 ∧
    (result (exec (.wBg3sc 0x10#8) S0)).bg.bg3.tilemapBase = 0x1000#16 ∧
    (result (exec (.wBg4sc 0x03#8) S0)).bg.bg4.tilemapBase = 0#16 := by decide

/-- Vector D4. -/
theorem test_nba : (result (exec (.wBg12nba 0x21#8) S0)).bg.bg1.charBase = 0x1000#16 ∧
    (result (exec (.wBg12nba 0x21#8) S0)).bg.bg2.charBase = 0x2000#16 ∧
    (result (exec (.wBg34nba 0xF0#8) S0)).bg.bg3.charBase = 0#16 ∧
    (result (exec (.wBg34nba 0xF0#8) S0)).bg.bg4.charBase = 0xF000#16 := by decide

/-- Vectors D5 to D7: the shadow is shared by the axes. -/
theorem test_bg1_scroll :
    let t := result (execAll [.wBg1hofs 0x34#8, .wBg1hofs 0x01#8, .wBg1vofs 0xFF#8] S0)
    t.bg.bg1.hScroll = 0x0134#13 ∧ t.bg.bg1.vScroll = 0x1F01#13 ∧ t.bg.bg1.shadow = 0xFF#8 := by decide

/-- The examples of 43_register_decode.md R222 to R227. -/
theorem test_other_scrolls :
    (result (execAll (pseudoScroll .bg2 .h 0x1FFF#13) S0)).bg.bg2.hScroll = 0x1FFF#13 ∧
    (result (execAll (pseudoScroll .bg2 .v 0x0100#13) S0)).bg.bg2.vScroll = 0x0100#13 ∧
    (result (execAll (pseudoScroll .bg3 .h 5#13) S0)).bg.bg3.hScroll = 5#13 ∧
    (result (execAll (pseudoScroll .bg3 .v 0x00FF#13) S0)).bg.bg3.vScroll = 0x00FF#13 ∧
    (result (execAll (pseudoScroll .bg4 .h 8#13) S0)).bg.bg4.hScroll = 8#13 ∧
    (result (execAll (pseudoScroll .bg4 .v 0x1000#13) S0)).bg.bg4.vScroll = 0x1000#13 := by decide

/-- Vector D11. -/
theorem test_tm : let b := (result (exec (.wTm 0x02#8) S0)).bg
    b.bg1.enable = false ∧ b.bg2.enable = true ∧ b.bg3.enable = false ∧ b.bg4.enable = false := by decide

/-- Vector V1. -/
theorem test_vmain : (result (exec (.wVmain 0x84#8) S0)).vm =
    { addr := 0, incCode := 0, remap := 1, triggerHigh := true } := by decide

/-- Vectors V9, V10. -/
theorem test_vmadd : (result (exec (.wVmaddl 0x34#8) (cursorAt 0x12FF#16 0 false))).vm.addr = 0x1234#16 ∧
    (result (exec (.wVmaddh 0x12#8) (cursorAt 0x0034#16 0 false))).vm.addr = 0x1234#16 := by decide

/-- Vector V2. -/
theorem test_vmdatal : let t := result (exec (.wVmdatal 0xAB#8) (cursorAt 0x0020#16 1 false))
    t.vram = [(2, 0xAB#8)] ∧ t.vm.addr = 0x0021#16 := by decide

/-- The example of 41_video_memory.md R169. -/
theorem test_vmdatah : let t := result (exec (.wVmdatah 0x5A#8) (cursorAt 0x7FFF#16 0 true))
    t.vram = [(0xFFFF, 0x5A#8)] ∧ t.vm.addr = 0x8000#16 := by decide

/-- Vector V6. -/
theorem test_vmdata_fault : exec (.wVmdatal 1#8) raising = .next
    { raising with fault := some { code := .addressingInvariantViolation, info := .vramWord 0x8000 } } := rfl

/-- Vector V11. -/
theorem test_rdvram : let t := result (execAll [.rRdvraml, .rRdvramh]
      { cursorAt 0x0100#16 0 true with vram := [(0x200, 0xEF#8), (0x201, 0xBE#8)] })
    t.replies = [.byte 0xEF#8, .byte 0xBE#8] ∧ t.vm.addr = 0x0101#16 := by decide

/-- Vector CG1. -/
theorem test_cgdata : let t := result (execAll [.wCgadd 0x10#8, .wCgdata 0x34#8, .wCgdata 0x92#8] S0)
    t.cg = [(0x10, 0x1234#15)] ∧ t.cgc = { addr := 0x11#8, phase := false, latch := 0x34#8 } := by decide

/-- Vector CG7. -/
theorem test_cgdata_then_read : let t := result (execAll [.wCgadd 0#8, .wCgdata 0x56#8, .rRdcgram]
      { S0 with cg := [(0, 0x7FFF#15)] })
    t.replies = [.byte 0x7F#8] ∧ t.cgc = { addr := 1#8, phase := false, latch := 0x56#8 } := by decide

/-- The example of 42_color_table.md R194. -/
theorem test_rdcgram : let t := result (execAll [.wCgadd 5#8, .rRdcgram, .rRdcgram] { S0 with cg := [(5, 0x7FFF#15)] })
    t.replies = [.byte 0xFF#8, .byte 0x7F#8] ∧ t.cgc.addr = 6#8 := by decide

/-- Vector D13. -/
theorem test_wnop : exec (.wNop 0x2137#16 0x00#8) S0 = .next S0 := rfl

/-- Vector D12. -/
theorem test_ropen : exec (.rOpen 0x2122#16) S0 = .next { S0 with replies := [.byte 0x5A#8] } := rfl

/-- Vectors L1 to L4. -/
theorem test_latch : let t := result (execAll [.rSlhv, .rStat78, .rOphct, .rOphct] (at' 100 5))
    t.replies = [.byte 0x5A#8, .byte 0x43#8, .byte 0x64#8, .byte 0x00#8] ∧ t.latch.latchFlag = false := by decide

/-- The examples of 43_register_decode.md R230, R231. -/
theorem test_counter_bytes :
    let s := { S0 with latch := { Latch.atReset with latchedH := 0x154#9, latchedV := 0x105#9 } }
    (result (execAll [.rOphct, .rOphct, .rOpvct, .rOpvct] s)).replies =
      [.byte 0x54#8, .byte 0x01#8, .byte 0x05#8, .byte 0x01#8] := by decide

/-- Vector D15. -/
theorem test_stat77 : (result (execAll [.setobj true true, .rStat77] S0)).replies = [.byte 0xC1#8] := by decide

/-- Vector D16, with REGION = 1. -/
theorem test_stat78_pal : (result (exec .rStat78 (State.initial { testCfg with desc := Descriptor.palEx }))).replies =
    [.byte 0x13#8] := by decide

/-- Vectors T7 (at the tick itself) and T22. -/
theorem test_adv : (result (exec (.adv 4) (at' 21 0))).timing =
      { hCounter := 22, vCounter := 0, acc := 0, inHBlank := false, inVBlank := true, frameReady := false } ∧
    (let s := { at' 10 0 with timing := { (at' 10 0).timing with acc := 3 } }
     (result (exec (.adv 1) s)).timing.hCounter = 11 ∧ (result (exec (.adv 1) s)).timing.acc = 0) := by decide

/-- Vector I4, at the last tick. -/
theorem test_adv_frame_ready : let s := { at' 340 224 with irq := { nmiArmed := true, irqMode := 2, hTarget := 0, vTarget := 225 } }
    (result (exec (.adv 4) s)).history = [.frameReady, .swapped 1, .nmiRequest, .irqRequest 0 225] := by decide

/-- Vector I1's word. -/
theorem test_setirq : (result (exec (.setirq true 1 0 100) S0)).irq =
    { nmiArmed := true, irqMode := 1, hTarget := 100, vTarget := 0 } := by decide

/-- Vector RS1, and R341's last point: a fault is kept. -/
theorem test_rst : exec .rst { at' 250 0 with disp := { S0.disp with brightness := 15 } } = .next S0 ∧
    exec .rst halted = .next halted := ⟨rfl, rfl⟩

/-- Vector X1, and a row outside the grid. -/
theorem test_dread : (result (exec (.dread 0 0) S0)).replies = [.pixel 0x000000FF#32 0] ∧
    exec (.dread 0 224) S0 = .refused (.word .dreadRow) := ⟨by decide, rfl⟩

/-- The worked pixel of 44_compositor.md R278, with vector C1's `cg[57] = 0x7C00`. -/
theorem test_layer_pixel_opaque : layerPixel
    { S0 with
      bg := { S0.bg with bg1 := { S0.bg.bg1 with
        tilemapBase := 0x0400#16, charBase := 0x1000#16, hScroll := 3#13, enable := true } }
      cg := [(57, 0x7C00#15)]
      vram := [(0x802, 0x05#8), (0x803, 0x4C#8), (0x20A0, 0x02#8), (0x20B1, 0x02#8)] } .bg1 0 6 =
    .drawn 0x0000FFFF#32 := by decide

/-- Vector CF1. -/
theorem test_layer_pixel_fault : layerPixel
    { S0 with
      bg := { S0.bg with bg1 := { S0.bg.bg1 with charBase := 0xF000#16, enable := true } }
      vram := [(0, 0xFF#8), (1, 0x03#8)] } .bg1 0 0 = .raises 0x12FF0 := by decide

/-! ## A case for the hypotheses of each statement -/

/-- `S0` as a running state in range, and the same of every position `at'` is used with. -/
theorem S0_inv : S0.Inv := inv_of_running _ (by decide)

theorem witness_DecodeOfEncodeIsTheInstruction :
    (Instr.dread 255#8 223#8).wf = true ∧ (Instr.wNop 0x2101#16 0xFF#8).wf = true ∧
      (Instr.rOpen 0xFFFF#16).wf = true ∧ (Instr.wTm 0xFF#8).wf = true := by decide

theorem witness_EncodeOfDecodeIsTheWord : decode 0x5CE10000#32 = .ok (.setirq true 2#2 225#9 0#9) := by decide

theorem witness_ReservedKindsAreRefused :
    (0x0FFFFFFF#32).toNat / 2 ^ 28 = 0 ∧ 8 ≤ (0x80000000#32).toNat / 2 ^ 28 ∧ 8 ≤ (0xFFFFFFFF#32).toNat / 2 ^ 28 := by
  decide

/-- Both directions of each equivalence, an error that stops a step, and an operation no draw may hold. -/
theorem witness_ReservedFieldsRowsAndDrawKindsAreRefused :
    decode 0x11212200#32 = .error .reservedField ∧ decode 0x7000E000#32 = .error .dreadRow ∧
      decode 0x7000DF00#32 = .ok (.dread 0#8 223#8) ∧ (0x7000DF00#32).toNat / 2 ^ 28 ≠ 1 ∧
      (0x10212200#32).toNat / 2 ^ 24 = 0x10 := by decide

theorem witness_EveryBusAddressSelectsOneRow :
    (∀ p : WPort, p.addr ≠ 0x2101#16) ∧ (∀ p : RPort, p.addr ≠ 0x2100#16) := by
  constructor <;> intro p <;> cases p <;> decide

theorem witness_StepRunsTheDecodedInstruction :
    (S0.withFetchWord 32 0x40000000).input = [0x40000000#32] ∧ decode 0x40000000#32 = .ok .rst ∧ S0.input = [] := by
  decide

theorem witness_HaltedBlockDoesNothing :
    Instr.rst.wf = true ∧ halted.fault = some { code := .addressingInvariantViolation, info := .vramWord 0x8000 } := by
  decide

theorem witness_OnlyVramAccessesRaise :
    raising.fault = none ∧ exec .rRdvraml raising = .next (raising.raise 0x8000) ∧
      (raising.raise 0x8000).fault = some { code := .addressingInvariantViolation, info := .vramWord 0x8000 } :=
  ⟨rfl, rfl, rfl⟩

theorem witness_RotateRemapRotatesLowBits : 0xFFFF < 0x10000 ∧ remap .rotate 0xFFFF 3 = remap .rotate 0xFFFF 3 := by
  decide

theorem witness_AsWrittenRemapFormulas :
    0xFFFF < 0x10000 ∧ ((1#2 = 1 ∨ 1#2 = 2) ∧ (2#2 = 1 ∨ 2#2 = 2)) ∧ 0xFFF8 < 0x10000 ∧ 0xFFF8 % 8 = 0 := by decide

/-- The clauses meet at these addresses; under `fault`, 0x7FFF and 0x8000 fall under one clause each. -/
theorem witness_WordIndexMirrorsOrRaises :
    0xFFFF < 0x10000 ∧ 0xFFFF ≤ 0xFFFF ∧ 0x7FFF < 0x8000 ∧ 0x8000 ≤ 0x8000 ∧
      wordIndex .mirror 0xFFFF = some 0x7FFF ∧ wordIndex .fault 0x7FFF = some 0x7FFF ∧
      wordIndex .fault 0x8000 = none ∧ wordIndex .mirror 0x10000 = none := by decide

theorem witness_CursorControlWrites : S0.fault = none := rfl

/-- Both clauses. -/
theorem witness_VramDataWrites :
    (let s := cursorAt 0x0020#16 1 false
     s.fault = none ∧ s.vram.wf = true ∧
      wordIndex s.cfg.vramA15 (remap s.cfg.remapFormula s.vm.addr.toNat s.vm.remap) = some 1) ∧
    raising.fault = none ∧
      outOfRange raising.cfg.vramA15 (remap raising.cfg.remapFormula raising.vm.addr.toNat raising.vm.remap) := by
  refine ⟨by decide, rfl, .inr ⟨rfl, ?_⟩⟩
  decide

/-- Both clauses, the first at the top of the address space. -/
theorem witness_VramDataReads :
    (let s := cursorAt 0xFFFF#16 0 true
     s.fault = none ∧
      wordIndex s.cfg.vramA15 (remap s.cfg.remapFormula s.vm.addr.toNat s.vm.remap) = some 0x7FFF) ∧
    raising.fault = none ∧
      outOfRange raising.cfg.vramA15 (remap raising.cfg.remapFormula raising.vm.addr.toNat raising.vm.remap) := by
  refine ⟨by decide, rfl, .inr ⟨rfl, ?_⟩⟩
  decide

theorem witness_VramWordWrittenIsReadBack :
    let s := cursorAt 0x0100#16 0 true
    s.fault = none ∧ s.vram.wf = true ∧ s.vm.triggerHigh = true ∧ ¬ outOfRange s.cfg.vramA15 s.cursorWord := by
  refine ⟨rfl, rfl, rfl, ?_⟩
  rintro (h | ⟨h, -⟩)
  · exact absurd h (by decide)
  · cases h

theorem witness_PaletteAddressWrite : S0.fault = none := rfl

/-- Both phases. -/
theorem witness_PaletteDataWrite :
    let s := { S0 with cgc := { addr := 0xFF#8, phase := true, latch := 0x34#8 }, cg := [(255, 1#15)] }
    S0.fault = none ∧ S0.cg.wf = true ∧ S0.cgc.phase = false ∧ s.fault = none ∧ s.cg.wf = true ∧ s.cgc.phase = true := by
  decide

theorem witness_PaletteDataRead : S0.fault = none := rfl

theorem witness_PalettePairRoundTrip : S0.fault = none ∧ S0.cg.wf = true ∧ S0.cgc.phase = false := by decide

theorem witness_DisplayPortWrites : S0.fault = none := rfl

theorem witness_BackgroundBaseWrites : S0.fault = none := rfl

theorem witness_ScrollPortWrites : S0.fault = none := rfl

theorem witness_ScrollPairSetsTheValue : S0.fault = none ∧ BgIdx.bg2 ≠ BgIdx.bg1 := by decide

theorem witness_LayerEnableWrite : S0.fault = none := rfl

theorem witness_CounterLatchRead : (at' 340 261).fault = none := rfl

theorem witness_CounterByteReads : S0.fault = none := rfl

theorem witness_StatusByteReads : S0.fault = none := rfl

theorem witness_LatchedCountersReadBack : (at' 340 261).fault = none ∧ (at' 340 261).Inv :=
  ⟨rfl, inv_of_running _ (by decide)⟩

theorem witness_SpriteStatusInput : S0.fault = none := rfl

/-- With the event logged and without. -/
theorem witness_UnmappedAccesses :
    let s := { S0 with cfg := { testCfg with logUnmapped := true } }
    S0.fault = none ∧ S0.cfg.logUnmapped = false ∧ s.fault = none ∧ s.cfg.logUnmapped = true := by decide

/-- Short of a dot; a whole dot. -/
theorem witness_AdvanceRunsTheTickLoop :
    S0.fault = none ∧ S0.timing.acc + (3#28).toNat < S0.cfg.desc.tpd ∧ 1 ≤ S0.cfg.desc.tpd ∧
      S0.cfg.desc.tpd ≤ S0.timing.acc + (4#28).toNat := by
  decide

/-- A DREAD before the second tick of an ADV sees the count from before that tick's swap (20_memory.md R68, R73). -/
theorem test_adv_consumer : (result (exec (.adv 8#28) { at' 339 224 with consumer := [[], [⟨0, 0⟩]] })).replies =
    [.pixel 0x000000FF#32 0] := by
  decide

theorem witness_InputsHoldUntilReloaded :
    Instr.adv 4#28 ≠ .rst ∧ exec (.adv 4#28) S0 = .next (result (exec (.adv 4#28) S0)) ∧
      (∀ time range, Instr.adv 4#28 ≠ .setobj time range) ∧
      (∀ nmi mode v h, Instr.adv 4#28 ≠ .setirq nmi mode v h) :=
  ⟨nofun, rfl, nofun, nofun⟩

theorem witness_AdvanceMovesThePosition :
    S0.Inv ∧ S0.fault = none ∧ (result (exec (.adv 5#28) S0)).fault = none := ⟨S0_inv, rfl, by decide⟩

/-- Force blank on, and no layer enabled. -/
theorem witness_AdvanceWithoutFetchesCompletes :
    let s := { S0 with disp := { S0.disp with forceBlank := true } }
    (s.Inv ∧ s.fault = none ∧ s.draws = [] ∧ s.disp.forceBlank = true) ∧
      (S0.Inv ∧ S0.fault = none ∧ S0.draws = [] ∧ S0.drawnLayers = []) :=
  ⟨⟨inv_of_running _ (by decide), rfl, rfl, rfl⟩, S0_inv, rfl, rfl, rfl⟩

theorem witness_AdvancesAreOneAdvanceOfTheSum :
    S0.Inv ∧ S0.fault = none ∧ (7#28).toNat = ([2#28, 5#28].map BitVec.toNat).sum ∧
      exec (.adv 7#28) S0 = .next (result (exec (.adv 7#28) S0)) ∧ (result (exec (.adv 7#28) S0)).fault = none :=
  ⟨S0_inv, rfl, rfl, rfl, by decide⟩

/-- At the tick that swaps. -/
theorem witness_SwapsAreTheFrameReadyPositionsPassed :
    let s := at' 340 224
    s.Inv ∧ s.fault = none ∧ exec (.adv 4#28) s = .next (result (exec (.adv 4#28) s)) ∧
      (result (exec (.adv 4#28) s)).fault = none ∧ (result (exec (.adv 4#28) s)).swapCount = 1 :=
  ⟨inv_of_running _ (by decide), rfl, rfl, by decide, by decide⟩

/-- Modes 1 to 3 at a match, and mode 0. -/
theorem witness_IrqCheckRequestsOnTheArmedTarget :
    let armed (m : BitVec 2) : State :=
      { at' 0 225 with irq := { nmiArmed := false, irqMode := m, hTarget := 0, vTarget := 225 } }
    (armed 1).irqAt 0 225 ∧ (armed 2).irqAt 0 225 ∧ (armed 3).irqAt 0 225 ∧ ¬ (armed 0).irqAt 0 225 := by
  refine ⟨?_, ?_, ?_, ?_⟩ <;> unfold State.irqAt <;> decide

/-- Armed and not. -/
theorem witness_TickRequestsLastAndOnlyOnMatch :
    let s := { at' 99 5 with irq := { nmiArmed := false, irqMode := 1, hTarget := 100, vTarget := 0 } }
    (s.TickInv ∧ s.fault = none ∧ (tick s).fault = none ∧ s.irqAt (tick s).timing.hCounter (tick s).timing.vCounter) ∧
      (S0.TickInv ∧ S0.fault = none ∧ (tick S0).fault = none ∧
        ¬ S0.irqAt (tick S0).timing.hCounter (tick S0).timing.vCounter) := by
  refine ⟨⟨inv_of_running _ (by decide), rfl, by decide, ?_⟩, S0_inv, rfl, by decide, ?_⟩ <;> unfold State.irqAt <;>
    decide

/-- In the middle of an ADV, with many dots left in the accumulator. -/
theorem test_tickInv_midway : ∃ s : State, s.TickInv ∧ ¬ s.Inv ∧ s.fault = none :=
  ⟨{ at' 20 0 with timing := { (at' 20 0).timing with acc := 1524 } }, inv_of_running _ (by decide),
    fun h => absurd (h.accRange rfl) (by decide), rfl⟩

/-- A plain dot, and the dot before the first active one. -/
theorem witness_OrdinaryTickMovesOneDot :
    ((at' 20 0).TickInv ∧ (at' 20 0).fault = none ∧ 20 + 1 ≠ 22 + 256 ∧ 20 + 1 ≠ testCfg.desc.hTotal ∧ 20 + 1 ≠ 22) ∧
      ((at' 21 0).TickInv ∧ (at' 21 0).fault = none ∧ 21 + 1 ≠ 22 + 256 ∧ 21 + 1 ≠ testCfg.desc.hTotal ∧ 21 + 1 = 22) :=
  ⟨⟨inv_of_running _ (by decide), rfl, by decide⟩, inv_of_running _ (by decide), rfl, by decide⟩

theorem witness_FrameReadyTickSwaps :
    let s := at' 340 224
    s.TickInv ∧ s.fault = none ∧ s.timing.hCounter + 1 = s.cfg.desc.hTotal ∧
      s.timing.vCounter + 1 = s.cfg.desc.fal + s.cfg.desc.ah := ⟨inv_of_running _ (by decide), rfl, rfl, rfl⟩

/-- The wraps into line FAL, into line 0 and into another line. -/
theorem witness_LineWrapTick :
    ((at' 340 0).TickInv ∧ (at' 340 0).fault = none ∧ 340 + 1 = testCfg.desc.hTotal ∧ 0 + 1 = testCfg.desc.fal) ∧
      ((at' 340 261).TickInv ∧ (at' 340 261).fault = none ∧ 261 + 1 = testCfg.desc.vTotal) ∧
      ((at' 340 5).TickInv ∧ (at' 340 5).fault = none ∧ 5 + 1 ≠ testCfg.desc.fal ∧
        5 + 1 ≠ testCfg.desc.fal + testCfg.desc.ah ∧ 5 + 1 ≠ testCfg.desc.vTotal) :=
  ⟨⟨inv_of_running _ (by decide), rfl, rfl, rfl⟩, ⟨inv_of_running _ (by decide), rfl, rfl⟩,
    inv_of_running _ (by decide), rfl, by decide⟩

/-- The line end of line 1, blanked, with this draw to come. -/
def lineEndState (draws : List (List (BusAddr × Byte))) : State :=
  { at' 277 1 with disp := { S0.disp with forceBlank := true }, draws := draws }

/-- The state after the hook and the draw. -/
def lineEndDrawn : State :=
  { lineEndState [] with
    timing := { (lineEndState []).timing with hCounter := 278, inHBlank := true }
    history := [.dmaHook 1] }

/-- With a draw of one write, and with none to come. -/
theorem witness_LineEndTickHooksThenComposes :
    let s := lineEndState [[(0x2121#16, 7#8)]]
    let t := { lineEndDrawn with cgc := { S0.cgc with addr := 7#8 } }
    (s.TickInv ∧ s.fault = none ∧ s.timing.hCounter + 1 = s.cfg.desc.fad + s.cfg.desc.aw ∧
      s.cfg.desc.lineVisible s.timing.vCounter = true ∧ s.draws = [(0x2121#16, 7#8)] :: [] ∧
      execAll (drawInstrs [(0x2121#16, 7#8)]) { s with
        timing := { s.timing with hCounter := s.timing.hCounter + 1, inHBlank := true }
        history := s.history ++ [.dmaHook s.timing.vCounter]
        draws := [] } = .next t ∧ t.fault = none ∧ (compose s.timing.vCounter t).fault = none) ∧
    ((lineEndState []).TickInv ∧ (lineEndState []).draws = [] ∧ execAll (drawInstrs []) lineEndDrawn = .next lineEndDrawn ∧
      lineEndDrawn.fault = none ∧ (compose 1 lineEndDrawn).fault = none) :=
  ⟨⟨inv_of_running _ (by decide), rfl, rfl, by decide, rfl, rfl, rfl, by decide⟩,
    inv_of_running _ (by decide), rfl, rfl, rfl, by decide⟩

/-- Vector CF1: layer 1 shows tile 0x3FF of the character base 0xF000. Program P6 comes to such a state before tick 619
of its `adv 4000`. -/
def rowRaising : State :=
  { at' 277 1 with
    timing := { (at' 277 1).timing with acc := 1524 }
    bg := { S0.bg with bg1 := { S0.bg.bg1 with charBase := 0xF000#16, enable := true } }
    vram := [(0, 0xFF#8), (1, 0x03#8)] }

/-- Vector CF1: the record is that of column 0's planes. -/
theorem test_compose_raises : (compose 1 rowRaising).fault = some (vramWordFault 0x12FF0) := by decide +kernel

/-- Program P6: the tick ends on the line-end dot with the rest of the ADV in the accumulator, and logs no line. -/
theorem test_tick_raises : (tick rowRaising).timing = { rowRaising.timing with hCounter := 278, inHBlank := true } ∧
    (tick rowRaising).history = [.dmaHook 1] := by decide +kernel

/-- A draw that writes to video memory out of range, and a line that Compose raises on. -/
theorem witness_LineEndTickStopsAtARaise :
    let s := { at' 277 1 with cfg := raising.cfg, vm := raising.vm, draws := [[(0x2118#16, 1#8)]] }
    (s.TickInv ∧ s.fault = none ∧ (tick s).fault ≠ none ∧ s.timing.hCounter + 1 = s.cfg.desc.fad + s.cfg.desc.aw ∧
      s.cfg.desc.lineVisible s.timing.vCounter = true ∧ s.draws = [(0x2118#16, 1#8)] :: [] ∧
      ∃ t, execAll (drawInstrs [(0x2118#16, 1#8)]) { s with
        timing := { s.timing with hCounter := s.timing.hCounter + 1, inHBlank := true }
        history := s.history ++ [.dmaHook s.timing.vCounter]
        draws := [] } = .next t ∧ t.fault ≠ none) ∧
    (rowRaising.TickInv ∧ rowRaising.fault = none ∧ rowRaising.draws = [] ∧
      ∃ t, execAll (drawInstrs []) { rowRaising with
        timing := { rowRaising.timing with hCounter := rowRaising.timing.hCounter + 1, inHBlank := true }
        history := rowRaising.history ++ [.dmaHook rowRaising.timing.vCounter]
        draws := [] } = .next t ∧ t.fault = none ∧ (compose rowRaising.timing.vCounter t).fault ≠ none) :=
  ⟨⟨inv_of_running _ (by decide), rfl, by decide, rfl, by decide, rfl, _, rfl, by decide⟩,
    inv_of_running _ (by decide), rfl, rfl, _, rfl, rfl, by decide +kernel⟩

/-- The lines before and after the visible ones. -/
theorem witness_BlankLineEndOnlySetsTheFlag :
    ((at' 277 0).TickInv ∧ (at' 277 0).fault = none ∧ 277 + 1 = 22 + 256 ∧ testCfg.desc.lineVisible 0 = false) ∧
      ((at' 277 225).TickInv ∧ (at' 277 225).fault = none ∧ testCfg.desc.lineVisible 225 = false) :=
  ⟨⟨inv_of_running _ (by decide), rfl, rfl, by decide⟩, inv_of_running _ (by decide), rfl, by decide⟩

theorem witness_InterruptInputsLoad : S0.fault = none := rfl

theorem witness_OnlyAdvanceMovesTime :
    (∀ n, Instr.wTm 1#8 ≠ .adv n) ∧ Instr.wTm 1#8 ≠ .rst ∧ exec (.wTm 1#8) S0 = .next (result (exec (.wTm 1#8) S0)) :=
  ⟨nofun, nofun, rfl⟩

theorem witness_ForceBlankFillsTheRowBlack :
    let s := { S0 with disp := { S0.disp with forceBlank := true }, work := [(0, [(0, 0xFF0000FF#32)])] }
    s.work.wf = true ∧ s.disp.forceBlank = true := by decide

theorem witness_ComposeWritesOnlyItsRow : S0.work.wf = true ∧ 1 ≠ 1 - S0.cfg.desc.fal ∧ 256 ≤ 256 := by decide

/-- The block of 44_compositor.md R278, in the words its pixel reads: layer 1 is drawn and raises nothing. -/
def workedPixel : State :=
  { S0 with
    bg := { S0.bg with bg1 := { S0.bg.bg1 with tilemapBase := 0x0400#16, charBase := 0x1000#16, hScroll := 3, enable := true } }
    vram := [(0x802, 0x05#8), (0x803, 0x4C#8), (0x20A0, 0x02#8), (0x20B1, 0x02#8)]
    cg := [(57, 0x001F#15)] }

/-- 44_compositor.md R278: the pixel at (0, 6) is entry 57. -/
theorem test_compose_worked_pixel : (compose 1 workedPixel).work.read 0 6 = expand 0x001F#15 := by decide +kernel

theorem witness_ComposedPixelIsTheLayersOverTheBackdrop :
    workedPixel.fault = none ∧ workedPixel.work.wf = true ∧ workedPixel.disp.forceBlank = false ∧
      (compose 1 workedPixel).fault = none ∧ 6 < 256 ∧ workedPixel.drawnLayers = [.bg1] := by
  decide +kernel

/-- With the layer that raises, and with none. -/
theorem witness_ComposeRaisesExactlyOnAFetchOutOfRange :
    (rowRaising.fault = none ∧ rowRaising.disp.forceBlank = false ∧ rowRaising.work.wf = true ∧ 255 < 256) ∧
      S0.fault = none := by
  decide

theorem witness_StoredFieldsChangeNoPixel :
    let d : DisplayControl := { forceBlank := false, brightness := 15, bgMode := 1, bg3Priority := true, objMainEnable := true }
    d.forceBlank = S0.disp.forceBlank := rfl

/-- The last row of the grid and the first outside it. -/
theorem witness_DisplayReadReturnsPixelAndCount : S0.fault = none ∧ (223#8).toNat < 224 ∧ 224 ≤ (224#8).toNat := by
  decide

theorem witness_DisplayHoldsBetweenSwaps :
    Instr.rst ∉ [Instr.wTm 1#8, .adv 4#28] ∧
      execAll [.wTm 1#8, .adv 4#28] S0 = .next (result (execAll [.wTm 1#8, .adv 4#28] S0)) ∧
      (result (execAll [.wTm 1#8, .adv 4#28] S0)).swapCount = S0.swapCount := ⟨by decide, rfl, by decide⟩

theorem witness_ResetClearsEveryField : (at' 100 5).fault = none := rfl

/-- A descriptor whose totals are both 512 passes; 513 dots a line is named. -/
theorem witness_ConstructionChecksTheDescriptor :
    ({ Descriptor.ntscEx with hbw := 234, vbh := 287 } : Descriptor).valid = true ∧
      ({ Descriptor.ntscEx with hbw := 235 } : Descriptor).firstFailure = some .hTotalAtMost512 := by decide

theorem witness_ConstructedBlockMeetsTheInvariant :
    testCfg.desc.valid = true ∧ testCfg.layers.Nodup ∧ Descriptor.palEx.valid = true := by decide

theorem witness_EveryStepKeepsTheInvariant :
    let s := S0.withFetchWord 32 0x30000004
    s.Inv ∧ step s = .next (result (step s)) := ⟨inv_of_running _ (by decide), rfl⟩

end Sys2Proof.Tests
end

section
/-! SUPPORT. What every instruction does, by the rows of the register map, and what that keeps: the state's invariant, the
inputs that SETIRQ and SETOBJ load, and all of a halted block. -/

namespace Sys2Proof.Machine

/-! ## What an instruction does -/

/-- The read rule of a port (43_register_decode.md R210), as `WPort.run` is the write rule of one. -/
def RPort.run : RPort → State → State
  | .slhv => readSlhv
  | .rdvraml => readVmdata .low
  | .rdvramh => readVmdata .high
  | .rdcgram => readRdcgram
  | .ophct => readOphct
  | .opvct => readOpvct
  | .stat77 => readStat77
  | .stat78 => readStat78

/-- `Effect i f`: `f` is what instruction `i` does to a running block. The port rows are two cases, by the port. -/
inductive Effect : Instr → (State → State) → Prop where
  | write (p : WPort) (d : Byte) : Effect (p.instr d) (WPort.run p d)
  | writeNone (a : BusAddr) (d : Byte) : Effect (.wNop a d) (writeUnmapped a)
  | read (p : RPort) : Effect p.instr (RPort.run p)
  | readNone (a : BusAddr) : Effect (.rOpen a) (readUnmapped a)
  | adv (n : BitVec 28) : Effect (.adv n) (advance n.toNat)
  | rst : Effect .rst logicalReset
  | setirq (nmi : Bool) (mode : BitVec 2) (v h : BitVec 9) : Effect (.setirq nmi mode v h) (loadIrqInputs nmi mode v h)
  | setobj (time range : Bool) : Effect (.setobj time range) (loadObjInputs time range)
  | dread (x y : BitVec 8) : Effect (.dread x y) (readDisplay x.toNat y.toNat)

theorem exec_writePort (p : WPort) (d : Byte) (s : State) : exec (p.instr d) s = s.perform (WPort.run p d) := by
  cases p <;> rfl

theorem exec_readPort (p : RPort) (s : State) : exec p.instr s = s.perform (RPort.run p) := by
  cases p <;> rfl

theorem exec_dread (x y : BitVec 8) (s : State) :
    exec (.dread x y) s =
      if y.toNat < 224 then s.perform (readDisplay x.toNat y.toNat) else .refused (.word .dreadRow) := rfl

/-- Every instruction has an effect. -/
theorem exists_effect (i : Instr) : ∃ f, Effect i f :=
  match i with
  | .wInidisp d => ⟨_, .write .inidisp d⟩
  | .wBgmode d => ⟨_, .write .bgmode d⟩
  | .wBg1sc d => ⟨_, .write .bg1sc d⟩
  | .wBg2sc d => ⟨_, .write .bg2sc d⟩
  | .wBg3sc d => ⟨_, .write .bg3sc d⟩
  | .wBg4sc d => ⟨_, .write .bg4sc d⟩
  | .wBg12nba d => ⟨_, .write .bg12nba d⟩
  | .wBg34nba d => ⟨_, .write .bg34nba d⟩
  | .wBg1hofs d => ⟨_, .write .bg1hofs d⟩
  | .wBg1vofs d => ⟨_, .write .bg1vofs d⟩
  | .wBg2hofs d => ⟨_, .write .bg2hofs d⟩
  | .wBg2vofs d => ⟨_, .write .bg2vofs d⟩
  | .wBg3hofs d => ⟨_, .write .bg3hofs d⟩
  | .wBg3vofs d => ⟨_, .write .bg3vofs d⟩
  | .wBg4hofs d => ⟨_, .write .bg4hofs d⟩
  | .wBg4vofs d => ⟨_, .write .bg4vofs d⟩
  | .wVmain d => ⟨_, .write .vmain d⟩
  | .wVmaddl d => ⟨_, .write .vmaddl d⟩
  | .wVmaddh d => ⟨_, .write .vmaddh d⟩
  | .wVmdatal d => ⟨_, .write .vmdatal d⟩
  | .wVmdatah d => ⟨_, .write .vmdatah d⟩
  | .wCgadd d => ⟨_, .write .cgadd d⟩
  | .wCgdata d => ⟨_, .write .cgdata d⟩
  | .wTm d => ⟨_, .write .tm d⟩
  | .wNop a d => ⟨_, .writeNone a d⟩
  | .rSlhv => ⟨_, .read .slhv⟩
  | .rRdvraml => ⟨_, .read .rdvraml⟩
  | .rRdvramh => ⟨_, .read .rdvramh⟩
  | .rRdcgram => ⟨_, .read .rdcgram⟩
  | .rOphct => ⟨_, .read .ophct⟩
  | .rOpvct => ⟨_, .read .opvct⟩
  | .rStat77 => ⟨_, .read .stat77⟩
  | .rStat78 => ⟨_, .read .stat78⟩
  | .rOpen a => ⟨_, .readNone a⟩
  | .adv n => ⟨_, .adv n⟩
  | .rst => ⟨_, .rst⟩
  | .setirq nmi mode v h => ⟨_, .setirq nmi mode v h⟩
  | .setobj time range => ⟨_, .setobj time range⟩
  | .dread x y => ⟨_, .dread x y⟩

/-- A well-formed instruction has a step: its effect, or nothing on a halted block. -/
theorem Effect.exec_of_wf {i : Instr} {f : State → State} (e : Effect i f) (hw : i.wf = true) (s : State) :
    exec i s = s.perform f := by
  cases e with
  | write p d => exact exec_writePort p d s
  | read p => exact exec_readPort p s
  | dread x y => rw [exec_dread, if_pos (of_decide_eq_true hw)]
  | _ => rfl

theorem State.perform_eq_next_iff {s t : State} {f : State → State} : s.perform f = .next t ↔ t = s.live f := by
  simp only [State.perform, Host.Outcome.next.injEq, eq_comm]

/-- The only next state an instruction can give, well-formed or not. -/
theorem Effect.next_eq {i : Instr} {f : State → State} (e : Effect i f) {s t : State} (h : exec i s = .next t) :
    t = s.live f := by
  cases e with
  | write p d => exact State.perform_eq_next_iff.1 (exec_writePort p d s ▸ h)
  | read p => exact State.perform_eq_next_iff.1 (exec_readPort p s ▸ h)
  | dread x y =>
    rw [exec_dread] at h
    split at h
    · exact State.perform_eq_next_iff.1 h
    · cases h
  | _ => exact State.perform_eq_next_iff.1 h

/-- What a step can be: nothing without a word to come, else the next word's instruction. -/
theorem step_next_cases {s t : State} (h : step s = .next t) :
    t = s ∨ ∃ w rest i, s.input = w :: rest ∧ decode w = .ok i ∧ exec i { s with input := rest } = .next t := by
  unfold step at h
  split at h
  · cases h; exact .inl rfl
  · next w rest hw =>
    split at h
    · cases h
    · next i hi => exact .inr ⟨w, rest, i, hw, hi, h⟩

/-! ## The invariant at reset -/

theorem inv_initial {c : Config} (hd : c.desc.valid = true) (hl : c.layers.Nodup) : (State.initial c).Inv := by
  have d := (Descriptor.valid_iff _).1 hd
  refine { descValid := hd, layersDistinct := hl, hRange := ?_, vRange := ?_, accRange := fun _ => d.1, hBlank := ?_
           vBlank := ?_, guard := ?_, vramWf := rfl, cgWf := rfl, workWf := rfl, displayWf := rfl
           tilemapAligned := ?_, charAligned := ?_, faultRaised := nofun }
  · show 0 < c.desc.hTotal
    unfold Descriptor.hTotal; omega
  · show 0 < c.desc.vTotal
    unfold Descriptor.vTotal; omega
  · show true = !c.desc.dotActive 0
    simp [Descriptor.dotActive]; omega
  · show true = !c.desc.lineVisible 0
    simp [Descriptor.lineVisible]; omega
  · show false = decide (c.desc.fal + c.desc.ah ≤ 0)
    simp; omega
  · intro n; cases n <;> rfl
  · intro n; cases n <;> rfl

/-! ## The invariant through each effect -/

/-- No word to come is part of the invariant. -/
theorem State.Inv.withInput {s : State} (h : s.Inv) (l : List Word) : State.Inv { s with input := l } := { h with }

/-- No reply is part of the invariant. -/
theorem State.Inv.reply {s : State} (h : s.Inv) (r : Reply) : (s.reply r).Inv := { h with }

theorem State.Inv.logUnmapped {s : State} (h : s.Inv) (hs : s.fault = none) (dir : BusDir) (a : BusAddr) :
    (s.logUnmapped dir a).Inv :=
  h.lineKeeps hs (lineKeeps_logUnmapped (P := fun _ => True) dir a trivial s)

theorem State.Inv.readVmdata {s : State} (h : s.Inv) (hs : s.fault = none) (half : Half) :
    (readVmdata half s).Inv := by
  rcases readVmdata_cases half s with ⟨ho, e⟩ | ⟨w, -, -, e⟩
  · rw [e]; exact h.lineKeeps hs (lineKeeps_raise (P := fun _ => True) s _ ho)
  · rw [e]; exact (h.reply _).lineKeeps hs (lineKeeps_advanceAfter (P := fun _ => True) _ half)

theorem State.Inv.readRdcgram {s : State} (h : s.Inv) : (readRdcgram s).Inv := by
  unfold Machine.readRdcgram
  dsimp only
  split <;> exact { h with }

theorem State.Inv.readPort {s : State} (h : s.Inv) (hs : s.fault = none) (p : RPort) : (RPort.run p s).Inv := by
  cases p with
  | rdvraml => exact h.readVmdata hs .low
  | rdvramh => exact h.readVmdata hs .high
  | rdcgram => exact h.readRdcgram
  | stat77 => exact h.reply _
  | slhv | ophct | opvct | stat78 => exact { h with }

/-- ADV: every tick keeps the invariant but for the accumulator, and where nothing raises the loop leaves the remainder
of the cycles by the dot's (40_timing.md R122, R137). -/
theorem State.Inv.advance {s : State} (h : s.Inv) (hs : s.fault = none) (n : Nat) : (advance n s).Inv := by
  obtain ⟨ht, -⟩ := (State.inv_iff s).1 h
  have hi := ht.withAcc (s.timing.acc + n)
  have hk := Nat.div_mul_le_self (s.timing.acc + n) s.cfg.desc.tpd
  obtain ⟨hcfg, hrun⟩ := advanceLoop_spec ((s.timing.acc + n) / s.cfg.desc.tpd) _ hi hs hk
  refine (State.inv_iff _).2 ⟨(advanceLoop_induction (fun _ => True) (fun _ _ _ _ _ => trivial) _ _ trivial hi).2, ?_⟩
  intro hf
  obtain ⟨hacc, -, -⟩ := hrun hf
  have hmod : (s.timing.acc + n) % s.cfg.desc.tpd < s.cfg.desc.tpd := Nat.mod_lt _ ht.desc.1
  rw [Nat.mod_eq_sub_div_mul] at hmod
  calc (Machine.advance n s).timing.acc
      = s.timing.acc + n - (s.timing.acc + n) / s.cfg.desc.tpd * s.cfg.desc.tpd := hacc
    _ < s.cfg.desc.tpd := hmod
    _ = (Machine.advance n s).cfg.desc.tpd := by rw [show (Machine.advance n s).cfg = s.cfg from hcfg]

/-- RST: the fields are those of a block just constructed, and the fault stays (70_reset_and_hazards.md R341). -/
theorem State.Inv.logicalReset {s : State} (h : s.Inv) : (logicalReset s).Inv :=
  { inv_initial h.descValid h.layersDistinct with
    accRange := fun _ => (inv_initial h.descValid h.layersDistinct).accRange rfl
    faultRaised := h.faultRaised }

/-- Every effect on a running block keeps the invariant. -/
theorem Effect.keeps_inv {i : Instr} {f : State → State} (e : Effect i f) {s : State} (h : s.Inv)
    (hs : s.fault = none) : (f s).Inv := by
  cases e with
  | write p d => exact h.lineKeeps hs (lineKeeps_writePort (P := fun _ => True) p d s)
  | writeNone a d => exact h.logUnmapped hs .write a
  | read p => exact h.readPort hs p
  | readNone a => exact (h.reply _).logUnmapped hs .read a
  | adv n => exact h.advance hs n.toNat
  | rst => exact h.logicalReset
  | setirq | setobj => exact { h with }
  | dread x y => exact h.reply _

theorem exec_keeps_inv {i : Instr} {s t : State} (h : s.Inv) (hx : exec i s = .next t) : t.Inv := by
  obtain ⟨f, e⟩ := exists_effect i
  rw [e.next_eq hx]
  exact State.live_keeps h (e.keeps_inv h)

/-! ## The loaded inputs through each effect -/

theorem keepsInputs_readPort (p : RPort) (s : State) : KeepsInputs s (RPort.run p s) := by
  cases p with
  | rdvraml => exact keepsInputs_readVmdata .low s
  | rdvramh => exact keepsInputs_readVmdata .high s
  | rdcgram =>
    show KeepsInputs s (readRdcgram s)
    unfold readRdcgram
    dsimp only
    split <;> exact ⟨rfl, rfl, rfl, rfl⟩
  | slhv | ophct | opvct | stat77 | stat78 => exact ⟨rfl, rfl, rfl, rfl⟩

theorem keepsInputs_readUnmapped (a : BusAddr) (s : State) : KeepsInputs s (readUnmapped a s) :=
  KeepsInputs.trans (t := s.reply _) ⟨rfl, rfl, rfl, rfl⟩ (keepsInputs_logUnmapped _ .read a)

/-- SETOBJ and RST alone change the sprite-status inputs, SETIRQ and RST alone the interrupt configuration. -/
theorem Effect.keeps_loaded {i : Instr} {f : State → State} (e : Effect i f) (hr : i ≠ .rst) (s : State) :
    ((∀ time range, i ≠ .setobj time range) → (f s).obj = s.obj) ∧
      ((∀ nmi mode v h, i ≠ .setirq nmi mode v h) → (f s).irq = s.irq) := by
  have both {A B : Prop} {t : State} (k : KeepsInputs s t) : (A → t.obj = s.obj) ∧ (B → t.irq = s.irq) :=
    ⟨fun _ => k.obj, fun _ => k.irq⟩
  cases e with
  | write p d => exact both (keepsInputs_writePort p d s)
  | writeNone a d => exact both (keepsInputs_logUnmapped s .write a)
  | read p => exact both (keepsInputs_readPort p s)
  | readNone a => exact both (keepsInputs_readUnmapped a s)
  | adv n =>
    obtain ⟨-, hirq, hobj⟩ := advanceLoop_inputs ((s.timing.acc + n.toNat) / s.cfg.desc.tpd)
      { s with timing := { s.timing with acc := s.timing.acc + n.toNat } }
    exact ⟨fun _ => hobj, fun _ => hirq⟩
  | rst => exact absurd rfl hr
  | setirq nmi mode v h => exact ⟨fun _ => rfl, fun hq => absurd rfl (hq nmi mode v h)⟩
  | setobj time range => exact ⟨fun ho => absurd rfl (ho time range), fun _ => rfl⟩
  | dread x y => exact both ⟨rfl, rfl, rfl, rfl⟩

/-! ## The statements -/

/-- Settles O60, by cases on what the step does; ADV's part is the induction over its ticks. -/
theorem everyStepKeepsTheInvariant : Obligations.EveryStepKeepsTheInvariant := by
  intro s t h hstep
  rcases step_next_cases hstep with rfl | ⟨w, rest, i, -, -, hx⟩
  · exact h
  · exact exec_keeps_inv (h.withInput rest) hx

/-- Settles O48, by cases on the instruction's effect. -/
theorem inputsHoldUntilReloaded : Obligations.InputsHoldUntilReloaded := by
  intro i s t hr hx
  obtain ⟨f, e⟩ := exists_effect i
  rw [e.next_eq hx]
  exact State.live_keeps (P := fun u => (_ → u.obj = s.obj) ∧ (_ → u.irq = s.irq)) ⟨fun _ => rfl, fun _ => rfl⟩
    (fun _ => e.keeps_loaded hr s)

/-- Settles O8: every instruction is performed behind the test of the fault. -/
theorem haltedBlockDoesNothing : Obligations.HaltedBlockDoesNothing := by
  intro i s f hw hf
  obtain ⟨g, e⟩ := exists_effect i
  rw [e.exec_of_wf hw, State.perform_of_halted hf]

/-- Settles O58: the arrays are empty lists at reset, and an unlisted key reads as the reset value. -/
theorem resetArraysReadTheirResetValues : Obligations.ResetArraysReadTheirResetValues :=
  ⟨Memory.read_nil, Palette.read_nil, Frame.read_nil, Frame.read_nil⟩

/-- Settles O59, from the conditions on a valid descriptor. -/
theorem constructedBlockMeetsTheInvariant : Obligations.ConstructedBlockMeetsTheInvariant :=
  ⟨fun _ hd hl => inv_initial hd hl, inv_initial (c := Config.standard) (by decide) (by decide)⟩

end Sys2Proof.Machine
end

section
/-! `WordIndex` (20_memory.md R62) from its two inversion rules: where it raises, and what it answers where it does not. -/

namespace Sys2Proof.Machine

theorem not_outOfRange_mirror {r : Nat} (h : r ≤ 0xFFFF) : ¬ outOfRange .mirror r := by
  rintro (hr | ⟨hm, -⟩)
  · omega
  · cases hm

theorem not_outOfRange_of_lt {r : Nat} (h : r < 0x8000) (a15 : VramA15) : ¬ outOfRange a15 r := by
  rintro (hr | ⟨-, hr⟩) <;> omega

theorem wordIndex_of_not_outOfRange {a15 : VramA15} {r : Nat} (h : ¬ outOfRange a15 r) :
    wordIndex a15 r = some (r % 0x8000) := by
  cases hw : wordIndex a15 r with
  | none => exact absurd (wordIndex_none.1 hw) h
  | some w =>
    obtain ⟨-, rfl, -⟩ := wordIndex_some hw
    rfl

/-- Settles O12: the raising clauses by `wordIndex_none`, the others by the index modulo the memory's size. -/
theorem wordIndexMirrorsOrRaises : Obligations.WordIndexMirrorsOrRaises := by
  intro r
  refine ⟨fun hr _ => ?_, fun hr => ?_, fun hr => ?_, fun hr => ?_⟩
  · exact wordIndex_none.2 (.inl hr)
  · exact wordIndex_of_not_outOfRange (not_outOfRange_mirror hr)
  · rw [wordIndex_of_not_outOfRange (not_outOfRange_of_lt hr .fault), Nat.mod_eq_of_lt hr]
  · exact wordIndex_none.2 (.inr ⟨rfl, hr⟩)

end Sys2Proof.Machine
end

section
/-! The words of the operations, in both directions (30_encoding.md R90 to R97), and the words refused (R98, R99). -/

namespace Sys2Proof

/-! ## The word of an instruction as a number -/

theorem encode_adv_toNat (n : BitVec 28) : (encode (.adv n)).toNat = 3 * 2 ^ 28 + n.toNat :=
  toNat_append_eq 3#4 n

theorem encode_setirq_toNat (nmi : Bool) (mode : BitVec 2) (v h : BitVec 9) :
    (encode (.setirq nmi mode v h)).toNat =
      5 * 2 ^ 28 + nmi.toNat * 2 ^ 27 + mode.toNat * 2 ^ 25 + v.toNat * 2 ^ 16 + h.toNat := by
  simp only [encode, toNat_append_eq, toNat_ofBool_eq, BitVec.toNat_ofNat]
  omega

theorem encode_setobj_toNat (time range : Bool) :
    (encode (.setobj time range)).toNat = 6 * 2 ^ 28 + time.toNat * 2 + range.toNat := by
  simp only [encode, toNat_append_eq, toNat_ofBool_eq, BitVec.toNat_ofNat]
  omega

theorem encode_dread_toNat (x y : BitVec 8) :
    (encode (.dread x y)).toNat = 7 * 2 ^ 28 + y.toNat * 2 ^ 8 + x.toNat := by
  simp only [encode, toNat_append_eq, BitVec.toNat_ofNat]
  omega

/-- A bit is the value its number names. -/
theorem getLsbD_eq_of_number {w : Word} {i : Nat} {b : Bool} (h : w.toNat / 2 ^ i % 2 = b.toNat) :
    w.getLsbD i = b := by
  rw [getLsbD_eq, h]
  cases b <;> rfl

/-! ## Decoding the word of an instruction -/

theorem decodeWrite_addr (p : WPort) (d : Byte) : decodeWrite p.addr d = p.instr d := by
  simp [decodeWrite]

theorem decodeRead_addr (p : RPort) : decodeRead p.addr = p.instr := by
  simp [decodeRead]

theorem decodeWrite_of_ofAddr_none {a : BusAddr} (h : WPort.ofAddr a = none) (d : Byte) :
    decodeWrite a d = .wNop a d := by
  simp [decodeWrite, h]

theorem decodeRead_of_ofAddr_none {a : BusAddr} (h : RPort.ofAddr a = none) : decodeRead a = .rOpen a := by
  simp [decodeRead, h]

theorem decode_encode_adv (n : BitVec 28) : decode (encode (.adv n)) = .ok (.adv n) := by
  have hw := encode_adv_toNat n
  have hn := n.isLt
  have hk : (encode (.adv n)).toNat / 2 ^ 28 = 3 := by omega
  have hf : field (encode (.adv n)) 0 28 = n := field_eq _ _ _ _ (by omega)
  simp only [decode_by_number, hk, hf]

theorem decode_encode_setirq (nmi : Bool) (mode : BitVec 2) (v h : BitVec 9) :
    decode (encode (.setirq nmi mode v h)) = .ok (.setirq nmi mode v h) := by
  have hw := encode_setirq_toNat nmi mode v h
  generalize encode (.setirq nmi mode v h) = w at hw ⊢
  have hnmi := nmi.toNat_le
  have hmode := mode.isLt
  have hv := v.isLt
  have hh := h.isLt
  have hk : w.toNat / 2 ^ 28 = 5 := by omega
  have hzero : w.toNat / 2 ^ 9 % 128 = 0 := by omega
  have fnmi : w.getLsbD 27 = nmi := getLsbD_eq_of_number (by omega)
  have fmode : field w 25 2 = mode := field_eq _ _ _ _ (by omega)
  have fv : field w 16 9 = v := field_eq _ _ _ _ (by omega)
  have fh : field w 0 9 = h := field_eq _ _ _ _ (by omega)
  simp only [decode_by_number, hk, hzero, if_true, fnmi, fmode, fv, fh]

theorem decode_encode_setobj (time range : Bool) :
    decode (encode (.setobj time range)) = .ok (.setobj time range) := by
  have hw := encode_setobj_toNat time range
  generalize encode (.setobj time range) = w at hw ⊢
  have ht := time.toNat_le
  have hr := range.toNat_le
  have hk : w.toNat / 2 ^ 28 = 6 := by omega
  have hzero : w.toNat / 4 % 2 ^ 26 = 0 := by omega
  have ftime : w.getLsbD 1 = time := getLsbD_eq_of_number (by omega)
  have frange : w.getLsbD 0 = range := getLsbD_eq_of_number (by omega)
  simp only [decode_by_number, hk, hzero, if_true, ftime, frange]

theorem decode_encode_dread (x y : BitVec 8) (hrow : y.toNat < 224) :
    decode (encode (.dread x y)) = .ok (.dread x y) := by
  have hw := encode_dread_toNat x y
  generalize encode (.dread x y) = w at hw ⊢
  have hx := x.isLt
  have hk : w.toNat / 2 ^ 28 = 7 := by omega
  have hzero : w.toNat / 2 ^ 16 % 2 ^ 12 = 0 := by omega
  have hy : w.toNat / 2 ^ 8 % 256 < 224 := by omega
  have fx : field w 0 8 = x := field_eq _ _ _ _ (by omega)
  have fy : field w 8 8 = y := field_eq _ _ _ _ (by omega)
  simp only [decode_by_number, hk, hzero, hy, if_true, fx, fy]

theorem decode_encode {i : Instr} (hw : i.wf = true) : decode (encode i) = .ok i := by
  obtain ⟨f, e⟩ := Machine.exists_effect i
  cases e with
  | write p d => rw [encode_writeInstr, decode_encodeBusw, decodeWrite_addr]
  | writeNone a d =>
    exact (decode_encodeBusw a d).trans (congrArg _ (decodeWrite_of_ofAddr_none (Option.isNone_iff_eq_none.1 hw) d))
  | read p => rw [encode_readInstr, decode_encodeBusr, decodeRead_addr]
  | readNone a =>
    exact (decode_encodeBusr a).trans (congrArg _ (decodeRead_of_ofAddr_none (Option.isNone_iff_eq_none.1 hw)))
  | adv n => exact decode_encode_adv n
  | rst => decide
  | setirq nmi mode v h => exact decode_encode_setirq nmi mode v h
  | setobj time range => exact decode_encode_setobj time range
  | dread x y => exact decode_encode_dread x y (of_decide_eq_true hw)

/-- Settles O1, by the kind of the instruction: each field of the word's number is the operand. -/
theorem decodeOfEncodeIsTheInstruction : Obligations.DecodeOfEncodeIsTheInstruction :=
  fun _ => decode_encode

/-! ## The word an instruction was decoded from -/

section
variable {w : Word}

theorem encodeBusw_fields (hk : w.toNat / 2 ^ 28 = 1) (hz : w.toNat / 2 ^ 24 % 16 = 0) :
    encodeBusw (field w 8 16) (field w 0 8) = w := by
  apply BitVec.eq_of_toNat_eq
  rw [encodeBusw_toNat, toNat_field, toNat_field]
  omega

theorem encodeBusr_fields (hk : w.toNat / 2 ^ 28 = 2) (hz : w.toNat / 2 ^ 24 % 16 = 0) (hd : w.toNat % 256 = 0) :
    encodeBusr (field w 8 16) = w := by
  apply BitVec.eq_of_toNat_eq
  rw [encodeBusr_toNat, toNat_field]
  omega

theorem encode_adv_fields (hk : w.toNat / 2 ^ 28 = 3) : encode (.adv (field w 0 28)) = w := by
  apply BitVec.eq_of_toNat_eq
  rw [encode_adv_toNat, toNat_field]
  omega

theorem encode_rst_eq (hk : w.toNat / 2 ^ 28 = 4) (hz : w.toNat % 2 ^ 28 = 0) : encode .rst = w := by
  apply BitVec.eq_of_toNat_eq
  rw [show (encode .rst).toNat = 4 * 2 ^ 28 from rfl]
  omega

theorem encode_setirq_fields (hk : w.toNat / 2 ^ 28 = 5) (hz : w.toNat / 2 ^ 9 % 128 = 0) :
    encode (.setirq (w.getLsbD 27) (field w 25 2) (field w 16 9) (field w 0 9)) = w := by
  apply BitVec.eq_of_toNat_eq
  rw [encode_setirq_toNat, toNat_getLsbD, toNat_field, toNat_field, toNat_field]
  omega

theorem encode_setobj_fields (hk : w.toNat / 2 ^ 28 = 6) (hz : w.toNat / 4 % 2 ^ 26 = 0) :
    encode (.setobj (w.getLsbD 1) (w.getLsbD 0)) = w := by
  apply BitVec.eq_of_toNat_eq
  rw [encode_setobj_toNat, toNat_getLsbD, toNat_getLsbD]
  omega

theorem encode_dread_fields (hk : w.toNat / 2 ^ 28 = 7) (hz : w.toNat / 2 ^ 16 % 2 ^ 12 = 0) :
    encode (.dread (field w 0 8) (field w 8 8)) = w := by
  apply BitVec.eq_of_toNat_eq
  rw [encode_dread_toNat, toNat_field, toNat_field]
  omega

end

/-- A check that answered an instruction was met. -/
theorem ite_error_eq_ok {c : Prop} [Decidable c] {x : Except WordError Instr} {e : WordError} {i : Instr}
    (h : (if c then x else .error e) = .ok i) : c ∧ x = .ok i := by
  split at h
  · exact ⟨‹c›, h⟩
  · cases h

/-- Settles O2, by the kind of the word: its reserved fields are zero, and the operands are its other fields. -/
theorem encodeOfDecodeIsTheWord : Obligations.EncodeOfDecodeIsTheWord := by
  intro w i h
  rw [decode_by_number] at h
  split at h
  case h_1 hk =>
    obtain ⟨hz, h⟩ := ite_error_eq_ok h
    cases h
    obtain ⟨hwf, henc⟩ := decodeWrite_spec (field w 8 16) (field w 0 8)
    exact ⟨hwf, henc.trans (encodeBusw_fields hk hz)⟩
  case h_2 hk =>
    obtain ⟨⟨hz, hd⟩, h⟩ := ite_error_eq_ok h
    cases h
    obtain ⟨hwf, henc⟩ := decodeRead_spec (field w 8 16)
    exact ⟨hwf, henc.trans (encodeBusr_fields hk hz hd)⟩
  case h_3 hk =>
    cases h
    exact ⟨rfl, encode_adv_fields hk⟩
  case h_4 hk =>
    obtain ⟨hz, h⟩ := ite_error_eq_ok h
    cases h
    exact ⟨rfl, encode_rst_eq hk hz⟩
  case h_5 hk =>
    obtain ⟨hz, h⟩ := ite_error_eq_ok h
    cases h
    exact ⟨rfl, encode_setirq_fields hk hz⟩
  case h_6 hk =>
    obtain ⟨hz, h⟩ := ite_error_eq_ok h
    cases h
    exact ⟨rfl, encode_setobj_fields hk hz⟩
  case h_7 hk =>
    obtain ⟨hz, h⟩ := ite_error_eq_ok h
    obtain ⟨hrow, h⟩ := ite_error_eq_ok h
    cases h
    exact ⟨decide_eq_true (by rw [toNat_field]; exact hrow), encode_dread_fields hk hz⟩
  case h_8 => cases h

/-! ## The rows of the two tables -/

/-- No read port's address has a write row. -/
theorem WPort.ofAddr_readAddr (q : RPort) : WPort.ofAddr q.addr = none := by cases q <;> decide

theorem WPort.addr_ne_readAddr (p : WPort) (q : RPort) : p.addr ≠ q.addr := by
  intro h
  have hp := WPort.ofAddr_addr p
  rw [h, WPort.ofAddr_readAddr] at hp
  cases hp

/-- Settles O5: a word of the bus decodes to the row its address selects. -/
theorem everyBusAddressSelectsOneRow : Obligations.EveryBusAddressSelectsOneRow := by
  refine ⟨fun p d => ?_, fun a d h => ?_, fun p => ?_, fun a h => ?_, WPort.addr_ne_readAddr⟩
  · rw [decode_busw_word, decodeWrite_addr]
  · rw [decode_busw_word, decodeWrite_of_ofAddr_none (WPort.ofAddr_eq_none h)]
  · rw [decode_busr_word, decodeRead_addr]
  · rw [decode_busr_word, decodeRead_of_ofAddr_none (RPort.ofAddr_eq_none h)]

/-! ## The words that spell no operation -/

/-- A reserved field of the word's kind is not zero (30_encoding.md R99). -/
def HasReservedField (w : Word) : Prop :=
  (w.toNat / 2 ^ 28 = 1 ∧ w.toNat / 2 ^ 24 % 16 ≠ 0) ∨
  (w.toNat / 2 ^ 28 = 2 ∧ (w.toNat / 2 ^ 24 % 16 ≠ 0 ∨ w.toNat % 256 ≠ 0)) ∨
  (w.toNat / 2 ^ 28 = 4 ∧ w.toNat % 2 ^ 28 ≠ 0) ∨
  (w.toNat / 2 ^ 28 = 5 ∧ w.toNat / 2 ^ 9 % 128 ≠ 0) ∨
  (w.toNat / 2 ^ 28 = 6 ∧ w.toNat / 4 % 2 ^ 26 ≠ 0) ∨
  (w.toNat / 2 ^ 28 = 7 ∧ w.toNat / 2 ^ 16 % 2 ^ 12 ≠ 0)

/-- How a check fails: what it guards fails, or it answers its own error. -/
theorem ite_error_eq_error_iff {c : Prop} [Decidable c] {x : Except WordError Instr} {e e' : WordError} :
    (if c then x else .error e') = .error e ↔ c ∧ x = .error e ∨ ¬ c ∧ e = e' := by
  split <;> simp [*, eq_comm]

/-- Why a word does not decode. -/
theorem decode_eq_error_iff (w : Word) (e : WordError) :
    decode w = .error e ↔
      (e = .reservedKind ∧ (w.toNat / 2 ^ 28 = 0 ∨ 8 ≤ w.toNat / 2 ^ 28)) ∨
      (e = .reservedField ∧ HasReservedField w) ∨
      (e = .dreadRow ∧ w.toNat / 2 ^ 28 = 7 ∧ w.toNat / 2 ^ 16 % 2 ^ 12 = 0 ∧ 224 ≤ w.toNat / 2 ^ 8 % 256) := by
  rw [decode_by_number]
  unfold HasReservedField
  split
  case h_3 hk =>
    rw [hk]
    simp
  case h_1 hk | h_2 hk | h_4 hk | h_5 hk | h_6 hk | h_7 hk =>
    rw [hk]
    simp [ite_error_eq_error_iff, imp_iff_not_or, or_comm, and_comm, and_assoc]
  case h_8 h1 h2 h3 h4 h5 h6 h7 =>
    simp only [imp_false] at h1 h2 h3 h4 h5 h6 h7
    have hres : w.toNat / 2 ^ 28 = 0 ∨ 8 ≤ w.toNat / 2 ^ 28 := by omega
    simp only [hres, h1, h2, h4, h5, h6, h7, false_and, and_false, and_true, or_false, Except.error.injEq]
    exact eq_comm

/-! ## The words of a draw -/

theorem decodeDraw_of_not_busw {w : Word} {i : Instr} (h : decode w = .ok i) (hk : w.toNat / 2 ^ 28 ≠ 1)
    (after : List Word) : decodeDraw (w :: after) = .error .hookKind := by
  have hkind : field w 28 4 ≠ 1 := fun hf => hk (by rw [← decode_kind w _ rfl, hf]; rfl)
  simp only [decodeDraw, h, if_neg hkind]

/-- A word that a draw may hold passes on the refusal of the words after it. -/
theorem decodeDraw_cons_busw_error {v : Word} (hv : v.toNat / 2 ^ 24 = 0x10) {ws : List Word} {e : WordError}
    (h : decodeDraw ws = .error e) : decodeDraw (v :: ws) = .error e := by
  have hdec : decode v = .ok (decodeWrite (field v 8 16) (field v 0 8)) := by
    have hword := encodeBusw_fields (w := v) (by omega) (by omega)
    rw [← decode_encodeBusw, hword]
  have hkind : field v 28 4 = 1 := BitVec.eq_of_toNat_eq (decode_kind v 1 (by omega))
  simp [decodeDraw, hdec, hkind, h]

/-- No word before it makes a refused draw a draw. -/
theorem decodeDraw_cons_error (v : Word) {ws : List Word} (h : ∃ e, decodeDraw ws = .error e) :
    ∃ e, decodeDraw (v :: ws) = .error e := by
  obtain ⟨e, h⟩ := h
  cases hv : decode v with
  | error e' => exact ⟨e', by simp [decodeDraw, hv]⟩
  | ok i =>
    by_cases hk : field v 28 4 = 1
    · exact ⟨e, by simp [decodeDraw, hv, hk, h]⟩
    · exact ⟨.hookKind, by simp only [decodeDraw, hv, if_neg hk]⟩

theorem decodeDraw_append_error (before : List Word) {ws : List Word} (h : ∃ e, decodeDraw ws = .error e) :
    ∃ e, decodeDraw (before ++ ws) = .error e := by
  induction before with
  | nil => exact h
  | cons v vs ih => exact decodeDraw_cons_error v ih

theorem decodeDraw_append_busw_error {before ws : List Word} {e : WordError}
    (hb : ∀ v ∈ before, v.toNat / 2 ^ 24 = 0x10) (h : decodeDraw ws = .error e) :
    decodeDraw (before ++ ws) = .error e := by
  induction before with
  | nil => exact h
  | cons v vs ih =>
    obtain ⟨hv, hvs⟩ := List.forall_mem_cons.1 hb
    exact decodeDraw_cons_busw_error hv (ih hvs)

end Sys2Proof

namespace Sys2Proof.Machine

/-! ## A step, a run and a draw that meet such a word -/

theorem step_of_decode_error {w : Word} {e : WordError} (h : decode w = .error e) (s : State) (rest : List Word) :
    step { s with input := w :: rest } = .refused (.word e) := by
  simp [step, h]

theorem runEnd_of_decode_error {w : Word} {e : WordError} (h : decode w = .error e) {s : State} (hs : s.fault = none)
    (rest : List Word) : runEnd (w :: rest) s = .refused (.word e) := by
  rw [runEnd, step_of_decode_error h]
  simp only [hs]

/-- Settles O3, from the reasons a word does not decode. -/
theorem reservedKindsAreRefused : Obligations.ReservedKindsAreRefused := by
  intro w
  have hiff : decode w = .error .reservedKind ↔ (w.toNat / 2 ^ 28 = 0 ∨ 8 ≤ w.toNat / 2 ^ 28) := by
    simp [decode_eq_error_iff]
  refine ⟨hiff, fun hk s rest => ?_⟩
  have h := hiff.2 hk
  exact ⟨step_of_decode_error h s rest, fun hs => runEnd_of_decode_error h hs rest⟩

theorem State.offerDraw_of_error {ws : List Word} {e : WordError} (h : decodeDraw ws = .error e) (s : State) :
    s.offerDraw ws = .refused (.word e) := by
  simp [State.offerDraw, h]

/-- Settles O4, from the reasons a word does not decode, and for draws by induction on the words before. -/
theorem reservedFieldsRowsAndDrawKindsAreRefused : Obligations.ReservedFieldsRowsAndDrawKindsAreRefused := by
  intro w
  refine ⟨?_, ?_, fun e h s rest => ?_, fun i h hk s before after => ?_⟩
  · simp [decode_eq_error_iff, HasReservedField]
  · simp [decode_eq_error_iff]
  · exact ⟨step_of_decode_error h s rest, fun hs => runEnd_of_decode_error h hs rest⟩
  · have hw := decodeDraw_of_not_busw h hk after
    obtain ⟨e, hany⟩ := decodeDraw_append_error before ⟨_, hw⟩
    refine ⟨⟨e, State.offerDraw_of_error hany s⟩, fun hb => ?_⟩
    exact State.offerDraw_of_error (decodeDraw_append_busw_error hb hw) s

/-! ## One step -/

/-- Settles O7, by the two cases of the words to come. -/
theorem stepRunsTheDecodedInstruction : Obligations.StepRunsTheDecodedInstruction := by
  refine ⟨fun s w rest i hw hi => ?_, fun s hw => ?_⟩
  · simp only [step, hw, hi]
  · simp only [step, hw]

end Sys2Proof.Machine
end

section
/-! One tick (40_timing.md R123 to R136) from the laws of its parts: the interrupt check, the dot, the line end and the
line wrap. -/

namespace Sys2Proof.Machine

/-! ## The interrupt check and its inputs -/

theorem irqMatch_iff_irqAt (s : State) (h v : Nat) : irqMatch s.irq h v = true ↔ s.irqAt h v := irqMatch_iff s.irq h v

theorem irqCheck_of_irqAt {s : State} (h : s.irqAt s.timing.hCounter s.timing.vCounter) :
    irqCheck s = s.emit (.irqRequest s.timing.hCounter s.timing.vCounter) := if_pos ((irqMatch_iff_irqAt ..).2 h)

theorem irqCheck_of_not_irqAt {s : State} (h : ¬ s.irqAt s.timing.hCounter s.timing.vCounter) : irqCheck s = s :=
  if_neg (mt (irqMatch_iff_irqAt ..).1 h)

/-- Only the interrupt inputs say which positions the armed target matches. -/
theorem State.irqAt_congr {s t : State} (h : t.irq = s.irq) (x y : Nat) : t.irqAt x y ↔ s.irqAt x y := by
  rw [← irqMatch_iff_irqAt, ← irqMatch_iff_irqAt, h]

/-- Settles O38, from the two cases of the check. -/
theorem irqCheckRequestsOnTheArmedTarget : Obligations.IrqCheckRequestsOnTheArmedTarget :=
  fun _ => ⟨irqCheck_of_irqAt, irqCheck_of_not_irqAt⟩

/-- Settles O46: the word is SETIRQ's, and a running block loads the operands. -/
theorem interruptInputsLoad : Obligations.InterruptInputsLoad := by
  intro s nmi mode v h hs
  refine ⟨?_, State.perform_of_running hs _⟩
  have hword := encode_setirq_toNat nmi mode v h
  unfold spells
  rw [show 0x50000000 = 5 * 2 ^ 28 from rfl, ← hword, BitVec.ofNat_toNat, BitVec.setWidth_eq]
  exact decode_encode_setirq nmi mode v h

/-! ## The dot -/

theorem dotMoved_of_lineEnd {s : State} (h : s.timing.hCounter + 1 = s.cfg.desc.fad + s.cfg.desc.aw) :
    dotMoved s = { s with timing := { s.timing with hCounter := s.timing.hCounter + 1, inHBlank := true } } := by
  simp only [dotMoved, if_pos h]

theorem dotMoved_of_activeStart {s : State} (hend : s.timing.hCounter + 1 ≠ s.cfg.desc.fad + s.cfg.desc.aw)
    (h : s.timing.hCounter + 1 = s.cfg.desc.fad) :
    dotMoved s = { s with timing := { s.timing with hCounter := s.timing.hCounter + 1, inHBlank := false } } := by
  simp only [dotMoved, if_neg hend, if_pos h]

theorem dotMoved_of_ne {s : State} (hend : s.timing.hCounter + 1 ≠ s.cfg.desc.fad + s.cfg.desc.aw)
    (h : s.timing.hCounter + 1 ≠ s.cfg.desc.fad) : dotMoved s = countDot s := by
  simp only [dotMoved, if_neg hend, if_neg h, countDot]

/-- A tick that renders no line is its dot, its wrap and its check: nothing in it can raise. -/
theorem tick_of_not_rendersNow {s : State} (hs : s.fault = none) (h : ¬ s.rendersNow) :
    tick s = irqCheck (lineWrap (dotMoved s)) := by
  unfold tick
  rw [(lineEnd_spec s).2 h, State.live_of_running (show (dotMoved s).fault = none from hs)]

theorem tick_of_not_rendersNow_of_not_wrap {s : State} (hs : s.fault = none) (h : ¬ s.rendersNow)
    (hw : s.timing.hCounter + 1 ≠ s.cfg.desc.hTotal) : tick s = irqCheck (dotMoved s) := by
  rw [tick_of_not_rendersNow hs h, lineWrap_of_ne (dotMoved s) hw]

/-- At a line's end the line does not wrap. -/
theorem State.TickInv.lineEnd_ne_wrap {s : State} (hi : s.TickInv)
    (h : s.timing.hCounter + 1 = s.cfg.desc.fad + s.cfg.desc.aw) : s.timing.hCounter + 1 ≠ s.cfg.desc.hTotal := by
  have hd := hi.desc
  omega

/-- Settles O40: such a tick neither renders nor wraps. -/
theorem ordinaryTickMovesOneDot : Obligations.OrdinaryTickMovesOneDot := by
  intro s _ hs hend hwrap
  have htick := tick_of_not_rendersNow_of_not_wrap hs (fun hr => hend hr.1) hwrap
  refine ⟨fun h => ?_, fun h => ?_⟩
  · rw [htick, dotMoved_of_ne hend h]
    rfl
  · rw [htick, dotMoved_of_activeStart hend h]

/-- Settles O45: a line that is not visible is not rendered. -/
theorem blankLineEndOnlySetsTheFlag : Obligations.BlankLineEndOnlySetsTheFlag := by
  intro s hi hs hend hblank
  have hr : ¬ s.rendersNow := fun ⟨_, hvis⟩ => by simp [hblank] at hvis
  rw [tick_of_not_rendersNow_of_not_wrap hs hr (hi.lineEnd_ne_wrap hend), dotMoved_of_lineEnd hend]

/-! ## The line wrap -/

/-- A tick that wraps the line moves the dot with no change of the horizontal flag, then wraps. -/
theorem tick_of_wrap {s : State} (hi : s.TickInv) (hs : s.fault = none)
    (h : s.timing.hCounter + 1 = s.cfg.desc.hTotal) : tick s = irqCheck (lineWrap (countDot s)) := by
  have hd := hi.desc
  have hend : s.timing.hCounter + 1 ≠ s.cfg.desc.fad + s.cfg.desc.aw := by omega
  rw [tick_of_not_rendersNow hs (fun hr => hend hr.1), dotMoved_of_ne hend (by omega)]

/-- Settles O41: the wrap into the frame-ready line, the guard being down there. -/
theorem frameReadyTickSwaps : Obligations.FrameReadyTickSwaps := by
  intro s hi hs h hready
  obtain ⟨-, hwrap, -, -⟩ := lineWrap_spec s hi (countDot s) rfl rfl rfl h
  rw [tick_of_wrap hi hs h, hwrap hready]
  rfl

/-- Settles O42: the wraps into the other lines. -/
theorem lineWrapTick : Obligations.LineWrapTick := by
  intro s hi hs h
  obtain ⟨hfirst, -, hlast, hother⟩ := lineWrap_spec s hi (countDot s) rfl rfl rfl h
  rw [tick_of_wrap hi hs h]
  refine ⟨fun hv => ?_, fun hv => ?_, fun hv hready hv' => ?_⟩
  · rw [hfirst hv]
    rfl
  · rw [hlast hv]
    rfl
  · rw [hother hv hready hv']
    rfl

/-! ## The end of a visible line -/

/-- The hook is its event and the next draw's pairs, the empty draw's when none is to come (log 7). -/
theorem dmaHook_eq_performDraw {s : State} {d : List (BusAddr × Byte)} {ds : List (List (BusAddr × Byte))}
    (h : s.draws = d :: ds ∨ (s.draws = [] ∧ d = [] ∧ ds = [])) (line : Nat) :
    dmaHook line s = performDraw d { s with history := s.history ++ [.dmaHook line], draws := ds } := by
  unfold dmaHook
  rcases h with h | ⟨h, rfl, rfl⟩
  · simp only [h]
    rfl
  · cases s
    cases h
    rfl

/-- The line's row drawn with no raise, and the line logged. -/
theorem renderLine_of_running {line : Nat} {s : State} (h : (compose line s).fault = none) :
    renderLine line s = (compose line s).emit (.lineRendered line) := State.live_of_running h _

/-- A tick that renders a line and raises nothing: the hook leaves `t`, then the row is drawn and logged. -/
theorem tick_of_rendersNow {s t : State} (hr : s.rendersNow) (hhook : dmaHook s.timing.vCounter (dotMoved s) = t)
    (ht : t.fault = none) (hcompose : (compose s.timing.vCounter t).fault = none) :
    tick s = irqCheck (lineWrap ((compose s.timing.vCounter t).emit (.lineRendered s.timing.vCounter))) := by
  unfold tick
  rw [(lineEnd_spec s).1 hr, hhook, State.live_of_running ht, renderLine_of_running hcompose,
    State.live_of_running ((State.emit_fault ..).trans hcompose)]

/-- Settles O43: the hook is the draw's transactions, and neither it nor the compositor moves the dot. -/
theorem lineEndTickHooksThenComposes : Obligations.LineEndTickHooksThenComposes := by
  intro s t d ds hi hs hend hvis hdraw hrun ht hcompose
  rw [execAll_drawInstrs, Host.Outcome.next.injEq] at hrun
  have hhook : dmaHook s.timing.vCounter (dotMoved s) = t := by
    rw [dmaHook_eq_performDraw (s := dotMoved s) hdraw, ← hrun, dotMoved_of_lineEnd hend]
  have hkeep : LineKeeps (fun _ => True) (dotMoved s) t :=
    hhook ▸ lineKeeps_dmaHook s.timing.vCounter (dotMoved s) (fun _ => trivial) trivial
  have hpic := (samePicture_compose s.timing.vCounter t).eq
  have htiming : (compose s.timing.vCounter t).timing = (dotMoved s).timing := by rw [hpic, ← hkeep.timing]
  have hcfg : (compose s.timing.vCounter t).cfg = s.cfg := by rw [hpic]; exact hkeep.cfg
  have hhist : (compose s.timing.vCounter t).history = t.history := by rw [hpic]
  have hwrap : (compose s.timing.vCounter t).timing.hCounter ≠ (compose s.timing.vCounter t).cfg.desc.hTotal := by
    rw [htiming, hcfg]
    exact hi.lineEnd_ne_wrap hend
  rw [tick_of_rendersNow ⟨hend, hvis⟩ hhook ht hcompose,
    lineWrap_of_ne ((compose s.timing.vCounter t).emit (.lineRendered s.timing.vCounter)) hwrap, ← hhist]
  rfl

/-! ## The events of a tick -/

/-- `t` comes from `s` with events appended among which no timed request stands. -/
def LogsUntimed (s t : State) : Prop :=
  ∃ ev : List Event, (∀ h v, Event.irqRequest h v ∉ ev) ∧ t.history = s.history ++ ev

theorem LogsUntimed.of_history_eq {s t : State} (h : t.history = s.history) : LogsUntimed s t :=
  ⟨[], by simp, by simpa using h⟩

theorem LogsUntimed.emit (s : State) {e : Event} (h : ∀ x y, e ≠ .irqRequest x y) : LogsUntimed s (s.emit e) :=
  ⟨[e], fun x y => by simpa using (h x y).symm, rfl⟩

theorem LogsUntimed.trans {s t u : State} (h : LogsUntimed s t) (k : LogsUntimed t u) : LogsUntimed s u := by
  obtain ⟨a, ha, hs⟩ := h
  obtain ⟨b, hb, ht⟩ := k
  exact ⟨a ++ b, fun x y => by simp [ha, hb], by rw [ht, hs, List.append_assoc]⟩

theorem LineKeeps.logsUntimed {line : Nat} {s t : State} (h : LineKeeps (LineEvent line) s t) : LogsUntimed s t := by
  obtain ⟨ev, hhist, hev⟩ := h.events
  refine ⟨ev, fun x y hmem => ?_, hhist⟩
  rcases hev _ hmem with h | h | ⟨a, h⟩ <;> cases h

theorem logsUntimed_visibleStart (s : State) : LogsUntimed s (visibleStart s) := by
  unfold visibleStart
  split <;> exact .of_history_eq rfl

theorem logsUntimed_raiseFrameReady (s : State) : LogsUntimed s (raiseFrameReady s) := by
  unfold raiseFrameReady
  split
  · exact .of_history_eq rfl
  · exact LogsUntimed.trans (.emit s (e := .frameReady) nofun) (.emit _ (e := .swapped _) nofun)

theorem logsUntimed_requestNmi (s : State) : LogsUntimed s (requestNmi s) := by
  unfold requestNmi
  split
  · exact .emit s nofun
  · exact .of_history_eq rfl

theorem logsUntimed_visibleEnd (s : State) : LogsUntimed s (visibleEnd s) := by
  unfold visibleEnd
  split
  · exact (logsUntimed_raiseFrameReady { s with timing := s.timing.withVBlank true }).trans (logsUntimed_requestNmi _)
  · exact .of_history_eq rfl

theorem logsUntimed_frameWrap (s : State) : LogsUntimed s (frameWrap s) := by
  unfold frameWrap
  split <;> exact .of_history_eq rfl

theorem logsUntimed_lineWrap (s : State) : LogsUntimed s (lineWrap s) := by
  unfold lineWrap
  split
  · have hcount : LogsUntimed s
        { s with timing := { s.timing with hCounter := 0, vCounter := s.timing.vCounter + 1 } } := .of_history_eq rfl
    exact ((hcount.trans (logsUntimed_visibleStart _)).trans (logsUntimed_visibleEnd _)).trans (logsUntimed_frameWrap _)
  · exact .of_history_eq rfl

/-- A tick that raises nothing is the interrupt check of a state with the inputs of the first, reached with no timed
request. -/
theorem tick_eq_irqCheck {s : State} (hi : s.TickInv) (hf : (tick s).fault = none) :
    ∃ w, w.irq = s.irq ∧ LogsUntimed s w ∧ tick s = irqCheck w := by
  obtain ⟨u, hkeep, -, ⟨f, hfault, htick⟩ | ⟨-, htick⟩⟩ := tick_spec s hi
  · rw [htick, hfault] at hf
    cases hf
  · have hdot : LogsUntimed s (dotMoved s) := .of_history_eq rfl
    exact ⟨lineWrap u, (lineWrap_keeps u).irq.trans hkeep.irq,
      (hdot.trans hkeep.logsUntimed).trans (logsUntimed_lineWrap u), htick⟩

/-- Settles O39: the check comes last, and no part before it makes a timed request. -/
theorem tickRequestsLastAndOnlyOnMatch : Obligations.TickRequestsLastAndOnlyOnMatch := by
  intro s hi _ hf
  obtain ⟨w, hirq, ⟨ev, huntimed, hhist⟩, htick⟩ := tick_eq_irqCheck hi hf
  have htiming : (tick s).timing = w.timing := by rw [htick, irqCheck_eq]
  refine ⟨ev, huntimed, ?_⟩
  rw [htiming, ← State.irqAt_congr hirq, htick]
  refine ⟨fun h => ?_, fun h => ?_⟩
  · rw [irqCheck_of_irqAt h, State.emit_history, hhist]
  · rw [irqCheck_of_not_irqAt h, hhist]

end Sys2Proof.Machine
end

section
/-! ADV (40_timing.md R122, R131, R137 to R139): one round and the rest of the loop, where the loop takes the position
and the swap count, and how ADVs add up. -/

namespace Sys2Proof.Machine

/-! ## One round and the rest -/

/-- The consumer's turn, and a dot's cycles taken from an accumulator of `a`. -/
theorem roundStart_withAcc (s : State) (a : Nat) :
    roundStart (s.withAcc a) = { s with
      timing := { s.timing with acc := a - s.cfg.desc.tpd }
      consumer := s.consumer.drop 1
      replies := s.replies ++ (s.consumer.headD []).map (fun r =>
        .pixel (s.display.read r.y.val r.x.val) s.swapCount) } := by
  unfold roundStart
  rw [consumerTurn_reads]
  rfl

/-- The rest of a loop: what an ADV of no cycles does, on a running block and on a halted one. -/
theorem exec_adv_zero (s : State) : exec (.adv 0#28) s = .next (advanceLoop (s.ticksOf 0) s) := by
  cases hf : s.fault with
  | none => exact exec_adv hf 0#28
  | some f =>
    rw [advanceLoop_halted _ hf]
    exact State.perform_of_halted hf _

/-- ADV below a dot. -/
theorem exec_adv_of_short {s : State} (hs : s.fault = none) {n : BitVec 28}
    (h : s.timing.acc + n.toNat < s.cfg.desc.tpd) : exec (.adv n) s = .next (s.withAcc (s.timing.acc + n.toNat)) := by
  rw [exec_adv hs, State.ticksOf, Nat.div_eq_of_lt h]
  rfl

/-- ADV from a dot on: a round, and what its tick leaves in the accumulator is an ADV of no cycles. -/
theorem exec_adv_of_round {s : State} (hs : s.fault = none) {n : BitVec 28} (htpd : 1 ≤ s.cfg.desc.tpd)
    (h : s.cfg.desc.tpd ≤ s.timing.acc + n.toNat) :
    exec (.adv n) s = exec (.adv 0#28) (tick (roundStart (s.withAcc (s.timing.acc + n.toNat)))) := by
  have hkeep := keepsInputs_tick (roundStart (s.withAcc (s.timing.acc + n.toNat)))
  have hrest : (tick (roundStart (s.withAcc (s.timing.acc + n.toNat)))).ticksOf 0 =
      (s.timing.acc + n.toNat - s.cfg.desc.tpd) / s.cfg.desc.tpd := by
    rw [State.ticksOf, hkeep.cfg, hkeep.acc, roundStart_withAcc]
    rfl
  have hticks : s.ticksOf n.toNat = (s.timing.acc + n.toNat - s.cfg.desc.tpd) / s.cfg.desc.tpd + 1 :=
    Nat.div_eq_sub_div htpd h
  rw [exec_adv hs, exec_adv_zero, hrest, hticks, advanceLoop]
  exact congrArg (fun u => Host.Outcome.next (advanceLoop _ u))
    (advanceRound_of_running (s := s.withAcc (s.timing.acc + n.toNat)) hs h)

/-- Settles O33: the loop's first round is the turn and the tick, and its other rounds are those of ADV 0. -/
theorem advanceRunsTheTickLoop : Obligations.AdvanceRunsTheTickLoop := by
  intro s n hs
  refine ⟨exec_adv_of_short hs, fun htpd h => ?_⟩
  have hround := exec_adv_of_round hs htpd h
  have hkeep := keepsInputs_tick (roundStart (s.withAcc (s.timing.acc + n.toNat)))
  rw [roundStart_withAcc] at hround hkeep
  refine ⟨hkeep.cfg, hkeep.acc, fun hi => ?_, hround, fun hf => ?_⟩
  · exact State.TickInv.tick { hi with } hs
  · obtain ⟨f, hf⟩ := Option.ne_none_iff_exists'.1 hf
    rw [hround]
    exact State.perform_of_halted hf _

/-! ## Where an ADV takes the block -/

theorem exec_adv_eq_advance {s : State} (hs : s.fault = none) (n : BitVec 28) :
    exec (.adv n) s = .next (advance n.toNat s) := State.perform_of_running hs _

/-- What an ADV that raises nothing leaves in the accumulator, the position and the swap count. -/
theorem advance_spec {s : State} (h : s.Inv) (hs : s.fault = none) (n : Nat) :
    (advance n s).cfg = s.cfg ∧
    ((advance n s).fault = none →
      (advance n s).timing.acc = (s.timing.acc + n) % s.cfg.desc.tpd ∧
      (advance n s).position = (s.position + s.ticksOf n) % s.frameDots ∧
      (advance n s).swapCount + (s.position + s.afterReady) / s.frameDots =
        s.swapCount + (s.position + s.ticksOf n + s.afterReady) / s.frameDots) := by
  obtain ⟨hi, -⟩ := (State.inv_iff s).1 h
  have hloop := advanceLoop_spec (s.ticksOf n) (s.withAcc (s.timing.acc + n)) (hi.withAcc _) hs
    (Nat.div_mul_le_self _ _)
  rw [Nat.mod_eq_sub_div_mul]
  exact hloop

/-- Settles O34, from the loop's law. -/
theorem advanceMovesThePosition : Obligations.AdvanceMovesThePosition := by
  intro s n h hs
  obtain ⟨hcfg, hrun⟩ := advance_spec h hs n.toNat
  refine ⟨_, exec_adv_eq_advance hs n, hcfg, fun hf => ?_⟩
  obtain ⟨hacc, hpos, -⟩ := hrun hf
  exact ⟨hacc, hpos⟩

/-- Settles O37, from the loop's law. -/
theorem swapsAreTheFrameReadyPositionsPassed : Obligations.SwapsAreTheFrameReadyPositionsPassed := by
  intro s t n h hs hx hf
  rw [exec_adv_eq_advance hs, Host.Outcome.next.injEq] at hx
  subst hx
  obtain ⟨-, -, hswap⟩ := (advance_spec h hs n.toNat).2 hf
  exact hswap

/-! ## ADVs one after another -/

/-- With the cycles of two ADVs in the accumulator, the loop first goes where the first ADV goes, and what is left over
and the second's cycles make the rest of the rounds. -/
theorem advance_add_eq_advanceLoop {s : State} (h : s.Inv) (hs : s.fault = none) (a b : Nat) :
    advance (a + b) s = advanceLoop (((s.timing.acc + a) % s.cfg.desc.tpd + b) / s.cfg.desc.tpd)
      ((advance a s).withAcc ((advance a s).timing.acc + b)) := by
  obtain ⟨hi, -⟩ := (State.inv_iff s).1 h
  have htpd : 0 < s.cfg.desc.tpd := hi.desc.1
  have hrounds : (s.timing.acc + (a + b)) / s.cfg.desc.tpd =
      s.ticksOf a + ((s.timing.acc + a) % s.cfg.desc.tpd + b) / s.cfg.desc.tpd := by
    have hdiv := Nat.mod_add_div (s.timing.acc + a) s.cfg.desc.tpd
    have hsum : s.timing.acc + (a + b) = (s.timing.acc + a) % s.cfg.desc.tpd + b +
        s.cfg.desc.tpd * ((s.timing.acc + a) / s.cfg.desc.tpd) := by omega
    rw [hsum, Nat.add_mul_div_left _ _ htpd, State.ticksOf, Nat.add_comm]
  have hfirst := advanceLoop_withAcc (s.ticksOf a) (s.withAcc (s.timing.acc + a)) b (hi.withAcc _) hs
    (Nat.div_mul_le_self _ _)
  show advanceLoop ((s.timing.acc + (a + b)) / s.cfg.desc.tpd) (s.withAcc (s.timing.acc + (a + b))) = _
  rw [hrounds, advanceLoop_add, ← Nat.add_assoc]
  exact congrArg _ hfirst

/-- An ADV of a sum that raises nothing raises nothing in its first part, and is the second after the first. -/
theorem advance_add {s : State} (h : s.Inv) (hs : s.fault = none) {a b : Nat} (hf : (advance (a + b) s).fault = none) :
    (advance a s).fault = none ∧ advance (a + b) s = advance b (advance a s) := by
  have hloop := advance_add_eq_advanceLoop h hs a b
  obtain ⟨hcfg, hrun⟩ := advance_spec h hs a
  cases ha : (advance a s).fault with
  | some f =>
    rw [hloop, advanceLoop_halted _ ((State.withAcc_fault ..).trans ha), State.withAcc_fault, ha] at hf
    cases hf
  | none =>
    obtain ⟨hacc, -, -⟩ := hrun ha
    refine ⟨rfl, ?_⟩
    rw [hloop, ← hacc, ← hcfg]
    rfl

theorem advance_zero {s : State} (h : s.Inv) (hs : s.fault = none) : advance 0 s = s := by
  have hnone : s.ticksOf 0 = 0 := Nat.div_eq_of_lt (h.accRange hs)
  show advanceLoop (s.ticksOf 0) s = s
  rw [hnone, advanceLoop]

/-- The list of ADVs goes where one of their sum goes, if that raises nothing. -/
theorem execAll_adv_eq_advance_sum (ns : List (BitVec 28)) : ∀ s : State, s.Inv → s.fault = none →
    (advance (ns.map BitVec.toNat).sum s).fault = none →
    execAll (ns.map Instr.adv) s = .next (advance (ns.map BitVec.toNat).sum s) := by
  induction ns with
  | nil =>
    intro s h hs _
    exact congrArg _ (advance_zero h hs).symm
  | cons n ns ih =>
    intro s h hs hf
    simp only [List.map_cons, List.sum_cons] at hf ⊢
    obtain ⟨hfirst, hsum⟩ := advance_add h hs hf
    rw [hsum] at hf ⊢
    rw [execAll_cons_next (exec_adv_eq_advance hs n)]
    exact ih _ (h.advance hs n.toNat) hfirst hf

/-- Settles O36, by induction on the list. -/
theorem advancesAreOneAdvanceOfTheSum : Obligations.AdvancesAreOneAdvanceOfTheSum := by
  intro s t n ns h hs hsum hx hf
  rw [exec_adv_eq_advance hs, Host.Outcome.next.injEq] at hx
  subst hx
  obtain ⟨hacc, hpos, -⟩ := (advance_spec h hs n.toNat).2 hf
  refine ⟨?_, hacc, hpos⟩
  rw [hsum] at hf ⊢
  exact execAll_adv_eq_advance_sum ns s h hs hf

end Sys2Proof.Machine
end

section
/-! The remap of 41_video_memory.md R160 and R162 by the address's three fields: the low `n` bits, the three bits above
them, and the rest. Mode A, B and C have `n` 5, 6 and 7. -/

namespace Sys2Proof.Machine

/-! ## Masks and fields on numbers -/

/-- A mask of `n` bits from bit `k` on takes one field. -/
theorem and_field_mask (a k n : Nat) : a &&& ((2 ^ n - 1) <<< k) = a / 2 ^ k % 2 ^ n * 2 ^ k := by
  rw [← Nat.shiftLeft_eq, ← Nat.shiftRight_eq_div_pow, ← Nat.and_two_pow_sub_one_eq_mod]
  apply Nat.eq_of_testBit_eq
  intro i
  by_cases h : k ≤ i
  · simp [h, Bool.and_comm]
  · simp [h]

/-- A field from bit `k` on and a number below that bit share no bit. -/
theorem mul_two_pow_or_of_lt (x : Nat) {y k : Nat} (h : y < 2 ^ k) : x * 2 ^ k ||| y = x * 2 ^ k + y := by
  rw [← Nat.shiftLeft_eq, Nat.shiftLeft_add_eq_or_of_lt h]

/-- A number is its part from bit `k` on and its part below. -/
theorem div_mul_or_mod (r k : Nat) : r / 2 ^ k * 2 ^ k ||| r % 2 ^ k = r := by
  rw [mul_two_pow_or_of_lt _ (Nat.mod_lt _ (Nat.two_pow_pos k)), Nat.div_add_mod']

/-- 16-bit multiples of 8 are closed under the bitwise or. -/
theorem or_lt_and_or_mod_eight {x y : Nat} (hx : x < 2 ^ 16 ∧ x % 2 ^ 3 = 0) (hy : y < 2 ^ 16 ∧ y % 2 ^ 3 = 0) :
    (x ||| y) < 2 ^ 16 ∧ (x ||| y) % 2 ^ 3 = 0 := by
  obtain ⟨hx, hx8⟩ := hx
  obtain ⟨hy, hy8⟩ := hy
  refine ⟨Nat.or_lt_two_pow hx hy, ?_⟩
  rw [Nat.or_mod_two_pow, hx8, hy8, Nat.or_zero]

/-! ## The masks of a mode -/

/-- R160's formula for a mode: the rest stays, the low field moves up by 3, and the middle field is moved by `place`. -/
def maskedFields (n a : Nat) (place : Nat → Nat) : Nat :=
  (a &&& ((2 ^ (13 - n) - 1) <<< (n + 3))) ||| ((a &&& (2 ^ n - 1)) <<< 3) ||| place (a &&& ((2 ^ 3 - 1) <<< n))

section
variable {a : Nat} (ha : a < 0x10000)
include ha

theorem and_high_mask {n : Nat} (hn : n ≤ 13) :
    a &&& ((2 ^ (13 - n) - 1) <<< (n + 3)) = a / 2 ^ (n + 3) * 2 ^ (n + 3) := by
  have hhigh : a / 2 ^ (n + 3) < 2 ^ (13 - n) := by
    rw [Nat.div_lt_iff_lt_mul (Nat.two_pow_pos _), ← pow_add, show 13 - n + (n + 3) = 16 by omega]
    exact ha
  rw [and_field_mask, Nat.mod_eq_of_lt hhigh]

theorem maskedFields_asWritten {n : Nat} (hn : n ≤ 13) :
    maskedFields n a (· <<< n) = a / 2 ^ (n + 3) * 2 ^ (n + 3) ||| a % 2 ^ n * 8 ||| a / 2 ^ n % 8 * 2 ^ (n + n) := by
  rw [maskedFields, and_high_mask ha hn, Nat.and_two_pow_sub_one_eq_mod, and_field_mask]
  simp only [Nat.shiftLeft_eq, Nat.mul_assoc, ← pow_add, Nat.reducePow]

theorem maskedFields_rotate {n : Nat} (hn : n ≤ 13) :
    maskedFields n a (· >>> n) = a / 2 ^ (n + 3) * 2 ^ (n + 3) + (a % 2 ^ n * 8 + a / 2 ^ n % 8) := by
  have hmid : a / 2 ^ n % 2 ^ 3 < 2 ^ 3 := Nat.mod_lt _ (by decide)
  have hlow : a % 2 ^ n < 2 ^ n := Nat.mod_lt _ (Nat.two_pow_pos n)
  have hrot : a % 2 ^ n * 2 ^ 3 + a / 2 ^ n % 2 ^ 3 < 2 ^ (n + 3) := by rw [pow_add]; omega
  rw [maskedFields, and_high_mask ha hn, Nat.and_two_pow_sub_one_eq_mod, and_field_mask]
  simp only [Nat.shiftLeft_eq, Nat.shiftRight_eq_div_pow, Nat.mul_div_cancel _ (Nat.two_pow_pos n)]
  rw [Nat.lor_assoc, mul_two_pow_or_of_lt _ hmid, mul_two_pow_or_of_lt _ hrot]
  rfl

/-! ## Each mode -/

theorem remap_rotate_one : remap .rotate a 1 = a / 256 * 256 + (a % 32 * 8 + a / 32 % 8) :=
  maskedFields_rotate ha (n := 5) (by decide)

theorem remap_rotate_two : remap .rotate a 2 = a / 512 * 512 + (a % 64 * 8 + a / 64 % 8) :=
  maskedFields_rotate ha (n := 6) (by decide)

theorem remap_rotate_three : remap .rotate a 3 = a / 1024 * 1024 + (a % 128 * 8 + a / 128 % 8) :=
  maskedFields_rotate ha (n := 7) (by decide)

theorem remap_asWritten_one : remap .asWritten a 1 = a / 256 * 256 ||| a % 32 * 8 ||| a / 32 % 8 * 1024 :=
  maskedFields_asWritten ha (n := 5) (by decide)

theorem remap_asWritten_two : remap .asWritten a 2 = a / 512 * 512 ||| a % 64 * 8 ||| a / 64 % 8 * 4096 :=
  maskedFields_asWritten ha (n := 6) (by decide)

theorem remap_asWritten_three : remap .asWritten a 3 = a / 1024 * 1024 ||| a % 128 * 8 ||| a / 128 % 8 * 16384 :=
  maskedFields_asWritten ha (n := 7) (by decide)

end

theorem remap_zero (f : RemapFormula) (a : Nat) : remap f a 0 = a := by
  cases f <;> rfl

/-- The four remap codes (10_state.md R31). -/
theorem remapCode_cases : ∀ m : BitVec 2, m = 0 ∨ m = 1 ∨ m = 2 ∨ m = 3 := by decide

/-! ## `rotate` -/

theorem remap_rotate_lt {a : Nat} (ha : a < 0x10000) (m : BitVec 2) : remap .rotate a m < 0x10000 := by
  rcases remapCode_cases m with rfl | rfl | rfl | rfl
  · rwa [remap_zero]
  · rw [remap_rotate_one ha]; omega
  · rw [remap_rotate_two ha]; omega
  · rw [remap_rotate_three ha]; omega

/-- The three fields can be read off the image. -/
theorem remap_rotate_inj {a b : Nat} (ha : a < 0x10000) (hb : b < 0x10000) {m : BitVec 2}
    (h : remap .rotate a m = remap .rotate b m) : a = b := by
  rcases remapCode_cases m with rfl | rfl | rfl | rfl
  · rwa [remap_zero, remap_zero] at h
  · rw [remap_rotate_one ha, remap_rotate_one hb] at h; omega
  · rw [remap_rotate_two ha, remap_rotate_two hb] at h; omega
  · rw [remap_rotate_three ha, remap_rotate_three hb] at h; omega

/-- Settles O10, from each mode's fields. -/
theorem rotateRemapRotatesLowBits : Obligations.RotateRemapRotatesLowBits := by
  refine ⟨fun a ha m => remap_rotate_lt ha m, fun a b ha hb m h => remap_rotate_inj ha hb h,
    fun a ha => ⟨remap_zero _ a, ?_, ?_, ?_⟩⟩
  · rw [remap_rotate_one ha]; omega
  · rw [remap_rotate_two ha]; omega
  · rw [remap_rotate_three ha]; omega

/-! ## `as_written` -/

/-- Mode C leaves the 16-bit range exactly when the top bit of its middle field is set. -/
theorem remap_asWritten_three_gt_iff {a : Nat} (ha : a < 0x10000) :
    0xFFFF < remap .asWritten a 3 ↔ a / 512 % 2 = 1 := by
  rw [remap_asWritten_three ha]
  constructor
  · intro h
    by_contra hbit
    have hlt : a / 1024 * 1024 ||| a % 128 * 8 ||| a / 128 % 8 * 16384 < 2 ^ 16 :=
      Nat.or_lt_two_pow (Nat.or_lt_two_pow (by omega) (by omega)) (by omega)
    omega
  · intro h
    calc 0xFFFF < a / 128 % 8 * 16384 := by omega
      _ ≤ _ := Nat.right_le_or

/-- The images of modes A and B: each field lands at bit 3 or above and below bit 16. -/
theorem remap_asWritten_image {m : BitVec 2} (hm : m = 1 ∨ m = 2) {a : Nat} (ha : a < 0x10000) :
    remap .asWritten a m < 0x10000 ∧ remap .asWritten a m % 8 = 0 := by
  rcases hm with rfl | rfl
  · rw [remap_asWritten_one ha]
    exact or_lt_and_or_mod_eight (or_lt_and_or_mod_eight (by omega) (by omega)) (by omega)
  · rw [remap_asWritten_two ha]
    exact or_lt_and_or_mod_eight (or_lt_and_or_mod_eight (by omega) (by omega)) (by omega)

/-- Modes A and B reach every multiple of 8, by an address whose middle field is zero. -/
theorem exists_remap_asWritten_eq {m : BitVec 2} (hm : m = 1 ∨ m = 2) {r : Nat} (hr : r < 0x10000) (h8 : r % 8 = 0) :
    ∃ a, a < 0x10000 ∧ remap .asWritten a m = r := by
  rcases hm with rfl | rfl
  · obtain ⟨a, ha, hhigh, hlow, hmid⟩ :
        ∃ a, a < 0x10000 ∧ a / 256 = r / 256 ∧ a % 32 * 8 = r % 256 ∧ a / 32 % 8 = 0 :=
      ⟨r / 256 * 256 + r % 256 / 8, by omega⟩
    refine ⟨a, ha, ?_⟩
    rw [remap_asWritten_one ha, hhigh, hlow, hmid, Nat.zero_mul, Nat.or_zero]
    exact div_mul_or_mod r 8
  · obtain ⟨a, ha, hhigh, hlow, hmid⟩ :
        ∃ a, a < 0x10000 ∧ a / 512 = r / 512 ∧ a % 64 * 8 = r % 512 ∧ a / 64 % 8 = 0 :=
      ⟨r / 512 * 512 + r % 512 / 8, by omega⟩
    refine ⟨a, ha, ?_⟩
    rw [remap_asWritten_two ha, hhigh, hlow, hmid, Nat.zero_mul, Nat.or_zero]
    exact div_mul_or_mod r 9

/-- Settles O11, from each mode's fields. -/
theorem asWrittenRemapFormulas : Obligations.AsWrittenRemapFormulas :=
  ⟨fun a ha => ⟨remap_zero _ a, remap_asWritten_one ha, remap_asWritten_two ha, remap_asWritten_three ha,
      remap_asWritten_three_gt_iff ha⟩,
    fun _ hm => ⟨fun _ ha => remap_asWritten_image hm ha, fun _ hr h8 => exists_remap_asWritten_eq hm hr h8⟩,
    rfl, rfl, rfl⟩

end Sys2Proof.Machine
end

section
/-! The video-memory ports (41_video_memory.md R163 to R172): the cursor's control writes, a data access of either half,
and a word written and read back. -/

namespace Sys2Proof.Machine

/-! ## The words of the ports -/

theorem spells_writePort (p : WPort) (d : Byte) : spells (0x10000000 + p.addr.toNat * 256 + d.toNat) (p.instr d) := by
  rw [spells, decode_busw_word, decodeWrite_addr]

theorem spells_readPort (p : RPort) : spells (0x20000000 + p.addr.toNat * 256) p.instr := by
  rw [spells, decode_busr_word, decodeRead_addr]

/-! ## The cursor's control writes -/

theorem toNat_withLowByte (a : BitVec 16) (d : Byte) : (withLowByte a d).toNat = a.toNat / 256 * 256 + d.toNat := by
  have ha := a.isLt
  rw [withLowByte, toNat_append_eq, toNat_extract_eq]
  omega

theorem toNat_withHighByte (a : BitVec 16) (d : Byte) : (withHighByte a d).toNat = d.toNat * 256 + a.toNat % 256 := by
  rw [withHighByte, toNat_append_eq, toNat_extract_eq]
  omega

/-- The two control writes of `vaddr V` replace the address, whatever it was. -/
theorem withHighByte_withLowByte (a v : BitVec 16) : withHighByte (withLowByte a (lowByte v)) (highByte v) = v := by
  have hv := v.isLt
  apply BitVec.eq_of_toNat_eq
  rw [toNat_withHighByte, toNat_withLowByte, lowByte, highByte, toNat_extract_eq, toNat_extract_eq]
  omega

theorem extract_eq_ofNat {m : Nat} (x : BitVec m) (lo n : Nat) :
    x.extractLsb' lo n = BitVec.ofNat n (x.toNat / 2 ^ lo) := by
  apply BitVec.eq_of_toNat_eq
  rw [toNat_extract_eq, BitVec.toNat_ofNat]

theorem getLsbD_seven_eq (d : Byte) : d.getLsbD 7 = decide (128 ≤ d.toNat) := by
  have hd := d.isLt
  rw [getLsbD_eq, decide_eq_decide]
  omega

theorem writeVmain_eq (d : Byte) (s : State) :
    writeVmain d s = { s with vm := { s.vm with
      incCode := BitVec.ofNat 2 d.toNat
      remap := BitVec.ofNat 2 (d.toNat / 4)
      triggerHigh := decide (128 ≤ d.toNat) } } := by
  rw [writeVmain, extract_eq_ofNat, extract_eq_ofNat, getLsbD_seven_eq, pow_zero, Nat.div_one]
  rfl

theorem writeVmaddl_eq (d : Byte) (s : State) :
    writeVmaddl d s = { s with vm := { s.vm with
      addr := BitVec.ofNat 16 (s.vm.addr.toNat / 256 * 256 + d.toNat) } } := by
  rw [← toNat_withLowByte, BitVec.ofNat_toNat, BitVec.setWidth_eq]
  rfl

theorem writeVmaddh_eq (d : Byte) (s : State) :
    writeVmaddh d s = { s with vm := { s.vm with
      addr := BitVec.ofNat 16 (d.toNat * 256 + s.vm.addr.toNat % 256) } } := by
  rw [← toNat_withHighByte, BitVec.ofNat_toNat, BitVec.setWidth_eq]
  rfl

section
variable {s : State} (hs : s.fault = none) (d : Byte)
include hs

theorem exec_wVmain : exec (.wVmain d) s = .next (writeVmain d s) := State.perform_of_running hs _

theorem exec_wVmaddl : exec (.wVmaddl d) s = .next (writeVmaddl d s) := State.perform_of_running hs _

theorem exec_wVmaddh : exec (.wVmaddh d) s = .next (writeVmaddh d s) := State.perform_of_running hs _

end

/-- Settles O13: each word is a port's, and the fields are arithmetic on the data byte. -/
theorem cursorControlWrites : Obligations.CursorControlWrites := by
  intro s d hs
  refine ⟨spells_writePort .vmain d, spells_writePort .vmaddl d, spells_writePort .vmaddh d, ?_, ?_, ?_⟩
  · rw [exec_wVmain hs, writeVmain_eq]
  · rw [exec_wVmaddl hs, writeVmaddl_eq]
  · rw [exec_wVmaddh hs, writeVmaddh_eq]

/-! ## The advance -/

/-- The cursor after an access of half `h` (41_video_memory.md R164). -/
def VramCursor.after (c : VramCursor) (h : Half) : VramCursor :=
  { c with addr := if h = triggerHalf c.triggerHigh then c.addr + incOf c.incCode else c.addr }

theorem State.advanceAfter_eq_after (s : State) (h : Half) : s.advanceAfter h = { s with vm := s.vm.after h } :=
  s.advanceAfter_eq h

theorem toNat_incOf : ∀ c : BitVec 2, (incOf c).toNat = [1, 32, 128, 128].getD c.toNat 0 := by decide

theorem VramCursor.toNat_after (c : VramCursor) (h : Half) :
    (c.after h).addr.toNat = (c.addr.toNat +
      if h = triggerHalf c.triggerHigh then [1, 32, 128, 128].getD c.incCode.toNat 0 else 0) % 0x10000 := by
  rw [← toNat_incOf, VramCursor.after]
  split
  · exact BitVec.toNat_add ..
  · exact (Nat.mod_eq_of_lt c.addr.isLt).symm

theorem VramCursor.toNat_after_low (c : VramCursor) :
    (c.after .low).addr.toNat = (c.addr.toNat +
      if c.triggerHigh then 0 else [1, 32, 128, 128].getD c.incCode.toNat 0) % 0x10000 := by
  rw [VramCursor.toNat_after]
  cases c.triggerHigh <;> rfl

theorem VramCursor.toNat_after_high (c : VramCursor) :
    (c.after .high).addr.toNat = (c.addr.toNat +
      if c.triggerHigh then [1, 32, 128, 128].getD c.incCode.toNat 0 else 0) % 0x10000 := by
  rw [VramCursor.toNat_after]
  cases c.triggerHigh <;> rfl

theorem VramCursor.after_low_of_triggerHigh {c : VramCursor} (h : c.triggerHigh = true) : c.after .low = c := by
  cases c
  cases h
  rfl

/-! ## A data access -/

section
variable {s : State}

theorem writeVmdata_of_wordIndex {w : Nat} (hw : wordIndex s.cfg.vramA15 s.cursorWord = some w) (h : Half) (d : Byte) :
    writeVmdata h d s = { s with vram := s.vram.write (h.byteIndex w) d, vm := s.vm.after h } := by
  rw [writeVmdata, hw]
  exact State.advanceAfter_eq_after _ h

theorem readVmdata_of_wordIndex {w : Nat} (hw : wordIndex s.cfg.vramA15 s.cursorWord = some w) (h : Half) :
    readVmdata h s =
      { s with replies := s.replies ++ [.byte (s.vram.read (h.byteIndex w))], vm := s.vm.after h } := by
  rw [readVmdata, hw]
  exact State.advanceAfter_eq_after _ h

theorem writeVmdata_of_outOfRange (ho : outOfRange s.cfg.vramA15 s.cursorWord) (h : Half) (d : Byte) :
    writeVmdata h d s = s.raise s.cursorWord := by
  rw [writeVmdata, wordIndex_none.2 ho]

theorem readVmdata_of_outOfRange (ho : outOfRange s.cfg.vramA15 s.cursorWord) (h : Half) :
    readVmdata h s = s.raise s.cursorWord := by
  rw [readVmdata, wordIndex_none.2 ho]

variable (hs : s.fault = none)
include hs

theorem exec_wVmdatal (d : Byte) : exec (.wVmdatal d) s = .next (writeVmdata .low d s) := State.perform_of_running hs _

theorem exec_wVmdatah (d : Byte) : exec (.wVmdatah d) s = .next (writeVmdata .high d s) := State.perform_of_running hs _

theorem exec_rRdvraml : exec .rRdvraml s = .next (readVmdata .low s) := State.perform_of_running hs _

theorem exec_rRdvramh : exec .rRdvramh s = .next (readVmdata .high s) := State.perform_of_running hs _

section
variable {w : Nat} (hw : wordIndex s.cfg.vramA15 s.cursorWord = some w)
include hw

theorem exec_wVmdatal_of_wordIndex (d : Byte) :
    exec (.wVmdatal d) s = .next { s with vram := s.vram.write (2 * w) d, vm := s.vm.after .low } := by
  rw [exec_wVmdatal hs, writeVmdata_of_wordIndex hw]
  rfl

theorem exec_wVmdatah_of_wordIndex (d : Byte) :
    exec (.wVmdatah d) s = .next { s with vram := s.vram.write (2 * w + 1) d, vm := s.vm.after .high } := by
  rw [exec_wVmdatah hs, writeVmdata_of_wordIndex hw]
  rfl

theorem exec_rRdvraml_of_wordIndex :
    exec .rRdvraml s = .next { s with
      replies := s.replies ++ [.byte (s.vram.read (2 * w))], vm := s.vm.after .low } := by
  rw [exec_rRdvraml hs, readVmdata_of_wordIndex hw]
  rfl

theorem exec_rRdvramh_of_wordIndex :
    exec .rRdvramh s = .next { s with
      replies := s.replies ++ [.byte (s.vram.read (2 * w + 1))], vm := s.vm.after .high } := by
  rw [exec_rRdvramh hs, readVmdata_of_wordIndex hw]
  rfl

end
end

/-- Settles O14: the port of each half writes its byte and advances, or raises. -/
theorem vramDataWrites : Obligations.VramDataWrites := by
  intro s d hs
  refine ⟨spells_writePort .vmdatal d, spells_writePort .vmdatah d, fun hwf w hw => ⟨?_, ?_⟩, fun ho => ⟨?_, ?_⟩⟩
  · exact ⟨_, exec_wVmdatal_of_wordIndex hs hw d, fun i => Memory.read_write hwf _ i d, s.vm.toNat_after_low, rfl⟩
  · exact ⟨_, exec_wVmdatah_of_wordIndex hs hw d, fun i => Memory.read_write hwf _ i d, s.vm.toNat_after_high, rfl⟩
  · exact (exec_wVmdatal hs d).trans (congrArg _ (writeVmdata_of_outOfRange ho .low d))
  · exact (exec_wVmdatah hs d).trans (congrArg _ (writeVmdata_of_outOfRange ho .high d))

/-- Settles O15: the port of each half returns its byte and advances, or raises. -/
theorem vramDataReads : Obligations.VramDataReads := by
  intro s hs
  refine ⟨spells_readPort .rdvraml, spells_readPort .rdvramh, fun w hw => ⟨?_, ?_⟩, fun ho => ⟨?_, ?_⟩⟩
  · exact ⟨_, exec_rRdvraml_of_wordIndex hs hw, rfl, s.vm.toNat_after_low, rfl⟩
  · exact ⟨_, exec_rRdvramh_of_wordIndex hs hw, rfl, s.vm.toNat_after_high, rfl⟩
  · exact (exec_rRdvraml hs).trans (congrArg _ (readVmdata_of_outOfRange ho .low))
  · exact (exec_rRdvramh hs).trans (congrArg _ (readVmdata_of_outOfRange ho .high))

/-! ## A word, low half first -/

theorem execAll_pair {i j : Instr} {s t u : State} (hi : exec i s = .next t) (hj : exec j t = .next u) :
    execAll [i, j] s = .next u :=
  (execAll_cons_next hi).trans (execAll_cons_next hj)

section
variable {s : State} (hs : s.fault = none)
include hs

theorem execAll_pseudoVaddr (v : BitVec 16) :
    execAll (pseudoVaddr v) s = .next { s with vm := { s.vm with addr := v } } := by
  have hhigh := exec_wVmaddh (s := writeVmaddl (lowByte v) s) hs (highByte v)
  rw [pseudoVaddr, execAll_pair (exec_wVmaddl hs _) hhigh]
  exact congrArg (fun a => Host.Outcome.next { s with vm := { s.vm with addr := a } })
    (withHighByte_withLowByte s.vm.addr v)

variable (ht : s.vm.triggerHigh = true) {w : Nat} (hw : wordIndex s.cfg.vramA15 s.cursorWord = some w)
include ht hw

/-- The first write leaves the cursor for the second. -/
theorem execAll_writeWord (lo hi : Byte) :
    execAll [.wVmdatal lo, .wVmdatah hi] s = .next { s with
      vram := (s.vram.write (2 * w) lo).write (2 * w + 1) hi, vm := s.vm.after .high } := by
  have hlow := exec_wVmdatal_of_wordIndex hs hw lo
  rw [VramCursor.after_low_of_triggerHigh ht] at hlow
  exact execAll_pair hlow
    (exec_wVmdatah_of_wordIndex (s := { s with vram := s.vram.write (2 * w) lo }) hs hw hi)

/-- With the address set again, the memory alone has changed. -/
theorem execAll_writeWord_pseudoVaddr (lo hi : Byte) :
    execAll ([.wVmdatal lo, .wVmdatah hi] ++ pseudoVaddr s.vm.addr) s = .next { s with
      vram := (s.vram.write (2 * w) lo).write (2 * w + 1) hi } := by
  rw [execAll_append, execAll_writeWord hs ht hw]
  exact execAll_pseudoVaddr (s := { s with
    vram := (s.vram.write (2 * w) lo).write (2 * w + 1) hi, vm := s.vm.after .high }) hs s.vm.addr

/-- The first read leaves the cursor for the second. -/
theorem execAll_readWord :
    execAll [.rRdvraml, .rRdvramh] s = .next { s with
      replies := s.replies ++ [.byte (s.vram.read (2 * w)), .byte (s.vram.read (2 * w + 1))]
      vm := s.vm.after .high } := by
  have hlow := exec_rRdvraml_of_wordIndex hs hw
  rw [VramCursor.after_low_of_triggerHigh ht] at hlow
  have hhigh := exec_rRdvramh_of_wordIndex
    (s := { s with replies := s.replies ++ [.byte (s.vram.read (2 * w))] }) hs hw
  rw [execAll_pair hlow hhigh, List.append_assoc]
  rfl

end

/-- Both bytes of a word stand after they are written. -/
theorem Memory.read_write_word {m : Memory} (hm : m.wf = true) {w : Nat} (hw : w < 0x8000) (lo hi : Byte) :
    ((m.write (2 * w) lo).write (2 * w + 1) hi).read (2 * w) = lo ∧
    ((m.write (2 * w) lo).write (2 * w + 1) hi).read (2 * w + 1) = hi := by
  have hlow : (m.write (2 * w) lo).wf = true := Memory.wf_write hm _ lo (by omega)
  simp [Memory.read_write hlow, Memory.read_write hm]

/-- Settles O16: the words written and read have one index, since the cursor and its address are the same. -/
theorem vramWordWrittenIsReadBack : Obligations.VramWordWrittenIsReadBack := by
  intro s lo hi hs hwf ht ho
  have hw := wordIndex_of_not_outOfRange ho
  have hwlt : s.cursorWord % 0x8000 < 0x8000 := Nat.mod_lt _ (by decide)
  obtain ⟨hlo, hhi⟩ := Memory.read_write_word hwf hwlt lo hi
  have hread := execAll_readWord
    (s := { s with vram := (s.vram.write (2 * (s.cursorWord % 0x8000)) lo).write (2 * (s.cursorWord % 0x8000) + 1) hi })
    hs ht hw
  rw [hlo, hhi] at hread
  rw [execAll_append, execAll_writeWord_pseudoVaddr hs ht hw]
  exact ⟨_, hread, rfl⟩

end Sys2Proof.Machine
end

section
/-! The colour table (42_color_table.md R190 to R195): a channel's expansion, each port's access in either phase, and a
pair written and read back. -/

namespace Sys2Proof.Machine

/-! ## The expansion -/

theorem toNat_expandChannel : ∀ v : BitVec 5, (expandChannel v).toNat = channelNat v.toNat := by decide

/-- Settles O21: each channel is a field of the entry, expanded, and the pixel is the four bytes in order. -/
theorem expandChannels : Obligations.ExpandChannels := by
  refine ⟨fun c => ?_, rfl, rfl⟩
  have hblue : c.toNat / 1024 % 32 = c.toNat / 1024 := Nat.mod_eq_of_lt (by omega)
  simp only [expand, toNat_append_eq, toNat_expandChannel, toNat_extract_eq, Nat.reducePow, Nat.div_one, hblue,
    BitVec.toNat_ofNat, Nat.reduceMod]
  omega

/-! ## An entry's bytes -/

theorem toNat_colourOf (d latch : Byte) : (colourOf d latch).toNat = d.toNat % 128 * 256 + latch.toNat := by
  simp only [colourOf, toNat_append_eq, toNat_extract_eq, Nat.reducePow, Nat.div_one]

theorem toNat_colourLow (c : Colour) : (colourLow c).toNat = c.toNat % 256 := by
  simp only [colourLow, toNat_extract_eq, Nat.reducePow, Nat.div_one]

theorem toNat_colourHigh (c : Colour) : (colourHigh c).toNat = c.toNat / 256 := by
  have hc := c.isLt
  rw [colourHigh, toNat_append_eq, toNat_extract_eq, BitVec.toNat_ofNat]
  omega

theorem colourLow_colourOf (d latch : Byte) : colourLow (colourOf d latch) = latch := by
  apply BitVec.eq_of_toNat_eq
  rw [toNat_colourLow, toNat_colourOf]
  omega

/-- The entry has no place for the second byte's top bit. -/
theorem colourHigh_colourOf (d latch : Byte) : colourHigh (colourOf d latch) = d &&& 0x7F#8 := by
  have hmask : d.toNat &&& 127 = d.toNat % 128 := Nat.and_two_pow_sub_one_eq_mod _ 7
  apply BitVec.eq_of_toNat_eq
  calc (colourHigh (colourOf d latch)).toNat = d.toNat % 128 := by
        rw [toNat_colourHigh, toNat_colourOf]
        omega
    _ = (d &&& 0x7F#8).toNat := hmask.symm

theorem PaletteCursor.secondAccess_eq (c : PaletteCursor) :
    c.secondAccess = { addr := BitVec.ofNat 8 (c.addr.toNat + 1), phase := false, latch := c.latch } := by
  rw [secondAccess, BitVec.ofNat_add, BitVec.ofNat_toNat, BitVec.setWidth_eq]
  rfl

/-! ## The ports on a running block -/

section
variable {s : State} (hs : s.fault = none)
include hs

theorem exec_wCgadd (d : Byte) :
    exec (.wCgadd d) s = .next { s with cgc := { addr := d, phase := false, latch := s.cgc.latch } } :=
  State.perform_of_running hs _

theorem exec_wCgdata (d : Byte) : exec (.wCgdata d) s = .next (writeCgdata d s) := State.perform_of_running hs _

theorem exec_rRdcgram : exec .rRdcgram s = .next (readRdcgram s) := State.perform_of_running hs _

theorem exec_wCgdata_first (hp : s.cgc.phase = false) (d : Byte) :
    exec (.wCgdata d) s = .next { s with cgc := { addr := s.cgc.addr, phase := true, latch := d } } := by
  rw [exec_wCgdata hs, writeCgdata, hp]
  rfl

theorem exec_wCgdata_second (hp : s.cgc.phase = true) (d : Byte) :
    exec (.wCgdata d) s = .next { s with
      cg := s.cg.write s.cgc.addr.toNat (colourOf d s.cgc.latch), cgc := s.cgc.secondAccess } := by
  rw [exec_wCgdata hs, writeCgdata, hp]
  rfl

theorem exec_rRdcgram_first (hp : s.cgc.phase = false) :
    exec .rRdcgram s = .next { s with
      replies := s.replies ++ [.byte (colourLow (s.cg.read s.cgc.addr.toNat))]
      cgc := { s.cgc with phase := true } } := by
  rw [exec_rRdcgram hs, readRdcgram, hp]
  rfl

theorem exec_rRdcgram_second (hp : s.cgc.phase = true) :
    exec .rRdcgram s = .next { s with
      replies := s.replies ++ [.byte (colourHigh (s.cg.read s.cgc.addr.toNat))]
      cgc := s.cgc.secondAccess } := by
  rw [exec_rRdcgram hs, readRdcgram, hp]
  rfl

end

/-- Settles O17, from what CGADD does on a running block. -/
theorem paletteAddressWrite : Obligations.PaletteAddressWrite :=
  fun _ d hs => ⟨spells_writePort .cgadd d, exec_wCgadd hs d⟩

/-- Settles O18: the phase says which access of the pair it is. -/
theorem paletteDataWrite : Obligations.PaletteDataWrite := by
  intro s d hs hwf
  refine ⟨spells_writePort .cgdata d, fun hp => exec_wCgdata_first hs hp d,
    fun hp => ⟨_, exec_wCgdata_second hs hp d, fun i => ?_, s.cgc.secondAccess_eq, rfl⟩⟩
  rw [← toNat_colourOf, BitVec.ofNat_toNat, BitVec.setWidth_eq]
  exact Palette.read_write hwf _ i _

/-- Settles O19: the phase says which access of the pair it is. -/
theorem paletteDataRead : Obligations.PaletteDataRead := by
  intro s hs
  refine ⟨spells_readPort .rdcgram, ?_⟩
  split
  · next hp =>
    rw [exec_rRdcgram_second hs hp, ← toNat_colourHigh, BitVec.ofNat_toNat, BitVec.setWidth_eq,
      PaletteCursor.secondAccess_eq]
  · next hp =>
    rw [exec_rRdcgram_first hs (Bool.eq_false_of_not_eq_true hp), ← toNat_colourLow, BitVec.ofNat_toNat,
      BitVec.setWidth_eq]

/-! ## A pair -/

section
variable {s : State} (hs : s.fault = none)
include hs

theorem execAll_writePair (hp : s.cgc.phase = false) (b1 b2 : Byte) :
    execAll [.wCgdata b1, .wCgdata b2] s = .next { s with
      cg := s.cg.write s.cgc.addr.toNat (colourOf b2 b1)
      cgc := { addr := s.cgc.addr + 1, phase := false, latch := b1 } } :=
  execAll_pair (exec_wCgdata_first hs hp b1)
    (exec_wCgdata_second (s := { s with cgc := { addr := s.cgc.addr, phase := true, latch := b1 } }) hs rfl b2)

theorem execAll_readPair (hp : s.cgc.phase = false) :
    execAll [.rRdcgram, .rRdcgram] s = .next { s with
      replies := s.replies ++
        [.byte (colourLow (s.cg.read s.cgc.addr.toNat)), .byte (colourHigh (s.cg.read s.cgc.addr.toNat))]
      cgc := s.cgc.secondAccess } := by
  have hhigh := exec_rRdcgram_second (s := { s with
    replies := s.replies ++ [.byte (colourLow (s.cg.read s.cgc.addr.toNat))]
    cgc := { s.cgc with phase := true } }) hs rfl
  rw [execAll_pair (exec_rRdcgram_first hs hp) hhigh, List.append_assoc]
  rfl

/-- CGADD resets the phase, so the two reads after it are a pair. -/
theorem execAll_addressed_readPair (i : Byte) :
    execAll [.wCgadd i, .rRdcgram, .rRdcgram] s = .next { s with
      replies := s.replies ++
        [.byte (colourLow (s.cg.read i.toNat)), .byte (colourHigh (s.cg.read i.toNat))]
      cgc := { addr := i + 1, phase := false, latch := s.cgc.latch } } :=
  (execAll_cons_next (exec_wCgadd hs i)).trans
    (execAll_readPair (s := { s with cgc := { addr := i, phase := false, latch := s.cgc.latch } }) hs rfl)

end

/-- Settles O20: the entry read is the one written, and its two bytes are those of the pair. -/
theorem palettePairRoundTrip : Obligations.PalettePairRoundTrip := by
  intro s b1 b2 hs hwf hp
  have hentry : (s.cg.write s.cgc.addr.toNat (colourOf b2 b1)).read s.cgc.addr.toNat = colourOf b2 b1 := by
    rw [Palette.read_write hwf, if_pos rfl]
  have hread := execAll_addressed_readPair (s := { s with
    cg := s.cg.write s.cgc.addr.toNat (colourOf b2 b1)
    cgc := { addr := s.cgc.addr + 1, phase := false, latch := b1 } }) hs s.cgc.addr
  rw [hentry, colourLow_colourOf, colourHigh_colourOf] at hread
  exact ⟨_, _, execAll_writePair hs hp b1 b2, rfl, hread, rfl, rfl⟩

end Sys2Proof.Machine
end

section
/-! Register decode (43_register_decode.md R211 to R236): each port's word and what its access does to a running block,
the two writes of a scroll pair, the counter latch, the status bytes and the unmapped accesses. -/

namespace Sys2Proof.Machine

/-! ## Accesses of a running block -/

theorem spells_encode {i : Instr} (hw : i.wf = true) : spells (encode i).toNat i := by
  rw [spells, BitVec.ofNat_toNat, BitVec.setWidth_eq]
  exact decode_encode hw

theorem exec_writePort_of_running {s : State} (hs : s.fault = none) (p : WPort) (d : Byte) :
    exec (p.instr d) s = .next (WPort.run p d s) :=
  (exec_writePort p d s).trans (State.perform_of_running hs _)

theorem exec_readPort_of_running {s : State} (hs : s.fault = none) (p : RPort) :
    exec p.instr s = .next (RPort.run p s) :=
  (exec_readPort p s).trans (State.perform_of_running hs _)

/-! ## The operands as numbers -/

theorem ofNat_of_toNat_eq {n k : Nat} {x : BitVec n} (h : x.toNat = k) : BitVec.ofNat n k = x := by
  rw [← h, BitVec.ofNat_toNat, BitVec.setWidth_eq]

theorem extract_zero_eq_ofNat {m : Nat} (x : BitVec m) (n : Nat) : x.extractLsb' 0 n = BitVec.ofNat n x.toNat := by
  rw [extract_eq_ofNat, pow_zero, Nat.div_one]

theorem toNat_tilemapBaseOf (d : Byte) : (tilemapBaseOf d).toNat = d.toNat / 4 * 0x400 := by
  have hd := d.isLt
  rw [tilemapBaseOf, toNat_append_eq, toNat_extract_eq, BitVec.toNat_ofNat]
  omega

theorem toNat_charBaseOf (nibble : BitVec 4) : (charBaseOf nibble).toNat = nibble.toNat * 0x1000 := by
  rw [charBaseOf, toNat_append_eq, BitVec.toNat_ofNat]
  omega

theorem toNat_lowNibble (d : Byte) : (lowNibble d).toNat = d.toNat % 16 := by
  rw [lowNibble, toNat_extract_eq, pow_zero, Nat.div_one]
  rfl

theorem toNat_highNibble (d : Byte) : (highNibble d).toNat = d.toNat / 16 := by
  have hd := d.isLt
  rw [highNibble, toNat_extract_eq]
  omega

theorem scrollOf_eq (d shadow : Byte) : scrollOf d shadow = BitVec.ofNat 13 (d.toNat * 256 + shadow.toNat) := by
  rw [scrollOf, extract_zero_eq_ofNat, toNat_append_eq]
  rfl

theorem toNat_highByte_scroll (v : BitVec 13) : (highByte (v.setWidth 16)).toNat = v.toNat / 256 := by
  have hv := v.isLt
  rw [highByte, toNat_extract_eq, BitVec.toNat_setWidth]
  omega

theorem toNat_lowByte_scroll (v : BitVec 13) : (lowByte (v.setWidth 16)).toNat = v.toNat % 256 := by
  have hv := v.isLt
  rw [lowByte, toNat_extract_eq, BitVec.toNat_setWidth]
  omega

/-- The bytes of a scroll value, put together again. -/
theorem scrollOf_highByte_lowByte (v : BitVec 13) :
    scrollOf (highByte (v.setWidth 16)) (lowByte (v.setWidth 16)) = v := by
  rw [scrollOf_eq, toNat_highByte_scroll, toNat_lowByte_scroll]
  exact ofNat_of_toNat_eq (by omega)

theorem counterByte_eq (c : BitVec 9) (phase : Bool) :
    counterByte c phase = BitVec.ofNat 8 (if phase then c.toNat / 256 else c.toNat) := by
  cases phase with
  | false => exact extract_zero_eq_ofNat c 8
  | true =>
    have hc := c.isLt
    refine (ofNat_of_toNat_eq ?_).symm
    show ((c.extractLsb' 8 1).setWidth 8).toNat = c.toNat / 256
    rw [BitVec.toNat_setWidth, toNat_extract_eq]
    omega

theorem toNat_stat77Byte (o : ObjInputs) (version : BitVec 4) :
    (stat77Byte o version).toNat = 128 * o.timeOver.toNat + 64 * o.rangeOver.toNat + version.toNat := by
  simp only [stat77Byte, toNat_append_eq, toNat_ofBool_eq, BitVec.toNat_ofNat]
  omega

theorem toNat_stat78Byte (latchFlag region : Bool) (version : BitVec 4) :
    (stat78Byte latchFlag region version).toNat = 64 * latchFlag.toNat + 16 * region.toNat + version.toNat := by
  simp only [stat78Byte, toNat_append_eq, toNat_ofBool_eq, BitVec.toNat_ofNat]
  omega

/-! ## The display, mode, base and layer-enable ports -/

theorem writeInidisp_eq (d : Byte) (s : State) :
    writeInidisp d s = { s with disp := { s.disp with
      forceBlank := decide (128 ≤ d.toNat), brightness := BitVec.ofNat 4 d.toNat } } := by
  rw [writeInidisp, getLsbD_seven_eq, lowNibble, extract_zero_eq_ofNat]

theorem writeBgmode_eq (d : Byte) (s : State) :
    writeBgmode d s = { s with disp := { s.disp with
      bgMode := BitVec.ofNat 3 d.toNat, bg3Priority := decide (d.toNat / 8 % 2 = 1) } } := by
  rw [writeBgmode, extract_zero_eq_ofNat, getLsbD_eq]
  rfl

theorem writeTm_eq (d : Byte) (s : State) :
    writeTm d s = { s with
      bg := { bg1 := { s.bg.bg1 with enable := decide (d.toNat % 2 = 1) }
              bg2 := { s.bg.bg2 with enable := decide (d.toNat / 2 % 2 = 1) }
              bg3 := { s.bg.bg3 with enable := decide (d.toNat / 4 % 2 = 1) }
              bg4 := { s.bg.bg4 with enable := decide (d.toNat / 8 % 2 = 1) } }
      disp := { s.disp with objMainEnable := decide (d.toNat / 16 % 2 = 1) } } := by
  simp only [writeTm, getLsbD_eq, Nat.reducePow, Nat.div_one]

/-- Settles O22: each port's fields are bits of the data byte. -/
theorem displayPortWrites : Obligations.DisplayPortWrites := by
  intro s d hs
  rw [← writeInidisp_eq, ← writeBgmode_eq]
  exact ⟨spells_writePort .inidisp d, spells_writePort .bgmode d, exec_writePort_of_running hs .inidisp d,
    exec_writePort_of_running hs .bgmode d⟩

/-- Settles O23: the numbers are those of the bases that the ports' rules assemble. -/
theorem backgroundBaseWrites : Obligations.BackgroundBaseWrites := by
  intro s d hs
  rw [ofNat_of_toNat_eq (toNat_tilemapBaseOf d), ← toNat_lowNibble, ← toNat_highNibble,
    ofNat_of_toNat_eq (toNat_charBaseOf _), ofNat_of_toNat_eq (toNat_charBaseOf _)]
  have hword (p : WPort) := spells_writePort p d
  have hexec (p : WPort) := exec_writePort_of_running hs p d
  exact ⟨hword .bg1sc, hword .bg2sc, hword .bg3sc, hword .bg4sc, hword .bg12nba, hword .bg34nba,
    hexec .bg1sc, hexec .bg2sc, hexec .bg3sc, hexec .bg4sc, hexec .bg12nba, hexec .bg34nba⟩

/-- Settles O26, from the bits of the data byte. -/
theorem layerEnableWrite : Obligations.LayerEnableWrite := by
  intro s d hs
  rw [← writeTm_eq]
  exact ⟨spells_writePort .tm d, exec_writePort_of_running hs .tm d⟩

/-! ## The scroll ports -/

/-- A layer with one axis' scroll and the shadow replaced (43_register_decode.md R219). -/
def Background.withScroll (b : Background) (axis : Axis) (v : BitVec 13) (shadow : Byte) : Background :=
  match axis with
  | .h => { b with hScroll := v, shadow := shadow }
  | .v => { b with vScroll := v, shadow := shadow }

@[simp] theorem Background.withScroll_shadow (b : Background) (axis : Axis) (v : BitVec 13) (shadow : Byte) :
    (b.withScroll axis v shadow).shadow = shadow := by
  cases axis <;> rfl

@[simp] theorem Background.withScroll_withScroll (b : Background) (axis : Axis) (v w : BitVec 13) (x y : Byte) :
    (b.withScroll axis v x).withScroll axis w y = b.withScroll axis w y := by
  cases axis <;> rfl

@[simp] theorem State.setBg_setBg (s : State) (n : BgIdx) (r r' : Background) :
    (s.setBg n r).setBg n r' = s.setBg n r' := by
  cases n <;> rfl

theorem scrollWrite_eq (n : BgIdx) (axis : Axis) (d : Byte) (s : State) :
    scrollWrite n axis d s =
      s.setBg n ((s.bg.get n).withScroll axis (scrollOf d (s.bg.get n).shadow) d) := by
  cases axis <;> rfl

theorem run_scrollPort (n : BgIdx) (axis : Axis) : WPort.run (scrollPort n axis) = scrollWrite n axis := by
  cases n <;> cases axis <;> rfl

theorem exec_scrollPort {s : State} (hs : s.fault = none) (n : BgIdx) (axis : Axis) (d : Byte) :
    exec ((scrollPort n axis).instr d) s =
      .next (s.setBg n ((s.bg.get n).withScroll axis (scrollOf d (s.bg.get n).shadow) d)) := by
  rw [exec_writePort_of_running hs, run_scrollPort, scrollWrite_eq]

/-- The first write leaves the low byte in the shadow, under which the second puts the high byte. -/
theorem execAll_pseudoScroll {s : State} (hs : s.fault = none) (n : BgIdx) (axis : Axis) (v : BitVec 13) :
    execAll (pseudoScroll n axis v) s =
      .next (s.setBg n ((s.bg.get n).withScroll axis v (highByte (v.setWidth 16)))) := by
  have hlow := exec_scrollPort hs n axis (lowByte (v.setWidth 16))
  rw [pseudoScroll, execAll_pair hlow (exec_scrollPort ((s.setBg_fault n _).trans hs) n axis _)]
  simp [scrollOf_highByte_lowByte]

/-- A pair's outcome on either axis, the high byte as a number. -/
theorem exists_execAll_pseudoScroll {s : State} (hs : s.fault = none) (n : BgIdx) (axis : Axis) (v : BitVec 13) :
    ∃ t, execAll (pseudoScroll n axis v) s = .next t ∧
      t.bg.get n = (s.bg.get n).withScroll axis v (BitVec.ofNat 8 (v.toNat / 256)) ∧
      (∀ m, m ≠ n → t.bg.get m = s.bg.get m) ∧ { t with bg := s.bg } = s := by
  rw [ofNat_of_toNat_eq (toNat_highByte_scroll v)]
  refine ⟨_, execAll_pseudoScroll hs n axis v, ?_, fun m hm => ?_, rfl⟩
  · rw [State.setBg_bg, Backgrounds.get_set, if_pos rfl]
  · rw [State.setBg_bg, Backgrounds.get_set, if_neg hm]

/-- Settles O24: the eight ports run one rule, over layer and axis. -/
theorem scrollPortWrites : Obligations.ScrollPortWrites := by
  intro s d hs
  simp only [← scrollOf_eq]
  have hword (p : WPort) := spells_writePort p d
  have hexec (n : BgIdx) (axis : Axis) := exec_scrollPort hs n axis d
  exact ⟨hword .bg1hofs, hword .bg1vofs, hword .bg2hofs, hword .bg2vofs, hword .bg3hofs, hword .bg3vofs,
    hword .bg4hofs, hword .bg4vofs, hexec .bg1 .h, hexec .bg1 .v, hexec .bg2 .h, hexec .bg2 .v,
    hexec .bg3 .h, hexec .bg3 .v, hexec .bg4 .h, hexec .bg4 .v⟩

/-- Settles O25, on both axes by the outcome of a pair. -/
theorem scrollPairSetsTheValue : Obligations.ScrollPairSetsTheValue :=
  fun _ n v hs => ⟨exists_execAll_pseudoScroll hs n .h v, exists_execAll_pseudoScroll hs n .v v⟩

/-! ## The counter latch and the status bytes -/

/-- Settles O27: the latch takes both counters modulo 512. -/
theorem counterLatchRead : Obligations.CounterLatchRead :=
  fun _ hs => ⟨spells_readPort .slhv, _, exec_readPort_of_running hs .slhv, BitVec.toNat_ofNat .., BitVec.toNat_ofNat ..,
    rfl, rfl, rfl, rfl, rfl⟩

/-- Settles O28: each port returns its latch's byte at its own phase. -/
theorem counterByteReads : Obligations.CounterByteReads := by
  intro s hs
  rw [← counterByte_eq, ← counterByte_eq]
  exact ⟨spells_readPort .ophct, spells_readPort .opvct, exec_readPort_of_running hs .ophct,
    exec_readPort_of_running hs .opvct⟩

/-- Settles O29: the sums are the numbers of the two status bytes. -/
theorem statusByteReads : Obligations.StatusByteReads := by
  intro s hs
  rw [ofNat_of_toNat_eq (toNat_stat77Byte ..), ofNat_of_toNat_eq (toNat_stat78Byte ..)]
  exact ⟨spells_readPort .stat77, spells_readPort .stat78, exec_readPort_of_running hs .stat77,
    exec_readPort_of_running hs .stat78⟩

/-- Settles O31: the word is SETOBJ's, and a running block loads the operands. -/
theorem spriteStatusInput : Obligations.SpriteStatusInput := by
  intro s time range hs
  have hword : 0x60000000 + 2 * time.toNat + range.toNat = (encode (.setobj time range)).toNat := by
    rw [encode_setobj_toNat, Nat.mul_comm]
    rfl
  rw [hword]
  exact ⟨spells_encode rfl, State.perform_of_running hs _⟩

/-! ## The unmapped accesses -/

theorem State.logUnmapped_of_off {s : State} (h : s.cfg.logUnmapped = false) (dir : BusDir) (a : BusAddr) :
    s.logUnmapped dir a = s := by
  rw [State.logUnmapped, h]
  rfl

theorem State.logUnmapped_of_on {s : State} (h : s.cfg.logUnmapped = true) (dir : BusDir) (a : BusAddr) :
    s.logUnmapped dir a = s.emit (.unmapped dir a) :=
  if_pos h

/-- Settles O32: the configuration alone decides whether the event is logged. -/
theorem unmappedAccesses : Obligations.UnmappedAccesses := by
  intro s a d hs
  have hwrite : exec (.wNop a d) s = .next (s.logUnmapped .write a) := State.perform_of_running hs _
  have hread : exec (.rOpen a) s = .next ((s.reply (.byte s.cfg.openBus)).logUnmapped .read a) :=
    State.perform_of_running hs _
  exact ⟨fun hoff => ⟨hwrite.trans (congrArg _ (State.logUnmapped_of_off hoff ..)),
      hread.trans (congrArg _ (State.logUnmapped_of_off (s := s.reply _) hoff ..))⟩,
    fun hon => ⟨hwrite.trans (congrArg _ (State.logUnmapped_of_on hon ..)),
      hread.trans (congrArg _ (State.logUnmapped_of_on (s := s.reply _) hon ..))⟩⟩

end Sys2Proof.Machine
end

section
/-! Compose (44_compositor.md R260 to R274): what it leaves unchanged, the row it draws, where it raises, and the fields
it does not look at. -/

namespace Sys2Proof.Machine

/-! ## The row before the layers -/

/-- A frame of the grid is in canonical form within a bound that takes in any row. -/
theorem Frame.exists_wfIn {f : Frame} (h : f.wf = true) (row : Nat) : ∃ b, row < b ∧ f.wfIn b = true :=
  ⟨max 224 (row + 1), by omega, Frame.wfIn_bound (Nat.le_max_left 224 (row + 1)) h⟩

/-- One row filled with one pixel: Compose's first part (44_compositor.md R262, R263). -/
def fillRow (row : Nat) (p : Pixel) (s : State) : State := fillColumns row p (List.range 256) s

theorem fillRow_wfIn {s : State} {b row : Nat} (hr : row < b) (h : s.work.wfIn b = true) (p : Pixel) :
    (fillRow row p s).work.wfIn b = true := fillColumns_wf b row p hr _ (by simp) s h

theorem fillRow_read {s : State} (h : s.work.wf = true) (row : Nat) (p : Pixel) (y x : Nat) :
    (fillRow row p s).work.read y x = if y = row ∧ x < 256 then p else s.work.read y x := by
  obtain ⟨b, hr, hb⟩ := Frame.exists_wfIn h row
  simpa only [fillRow, List.mem_range] using fillColumns_read b row p hr (List.range 256) (by simp) s hb y x

theorem fillRow_fault (row : Nat) (p : Pixel) (s : State) : (fillRow row p s).fault = s.fault := fillColumns_fault ..

theorem samePicture_fillRow (row : Nat) (p : Pixel) (s : State) : SamePicture s (fillRow row p s) :=
  samePicture_fillColumns ..

/-! ## What two such states share -/

theorem SamePicture.cfg {s t : State} (h : SamePicture s t) : t.cfg = s.cfg := by rw [h.eq]

theorem SamePicture.bg {s t : State} (h : SamePicture s t) : t.bg = s.bg := by rw [h.eq]

theorem SamePicture.fetchAddrs {s t : State} (h : SamePicture s t) : t.fetchAddrs = s.fetchAddrs := by rw [h.eq]; rfl

theorem SamePicture.pixelOver {s t : State} (h : SamePicture s t) : t.pixelOver = s.pixelOver := by rw [h.eq]; rfl

/-! ## Compose by its two parts -/

theorem compose_of_forceBlank {s : State} (h : s.disp.forceBlank = true) (line : Nat) :
    compose line s = fillRow (line - s.cfg.desc.fal) opaqueBlack s := if_pos h

theorem compose_of_drawing {s : State} (h : s.disp.forceBlank = false) (line : Nat) :
    compose line s = composeLayers (line - s.cfg.desc.fal) s.cfg.layers
      (fillRow (line - s.cfg.desc.fal) (expand (s.cgRead 0)) s) := if_neg (by simp [h])

/-- With force blank off, the pixels visited are drawn over the backdrop. -/
theorem compose_eq_composePixels {s : State} (h : s.disp.forceBlank = false) (line : Nat) :
    compose line s = composePixels (line - s.cfg.desc.fal) s.visited
      (fillRow (line - s.cfg.desc.fal) (expand (s.cgRead 0)) s) := by
  rw [compose_of_drawing h, composeLayers_eq, (samePicture_fillRow ..).bg]
  rfl

/-- Settles O49: the row is filled and nothing is fetched. -/
theorem forceBlankFillsTheRowBlack : Obligations.ForceBlankFillsTheRowBlack := by
  intro s line hw h
  rw [compose_of_forceBlank h]
  exact ⟨fun x hx => (fillRow_read hw ..).trans (if_pos ⟨rfl, hx⟩), fillColumns_frame ..⟩

/-! ## The frame -/

/-- Cells outside the line's row, and beyond its columns, stay. -/
theorem compose_read_other {s : State} (hw : s.work.wf = true) (line : Nat) {y x : Nat}
    (h : ¬ (y = line - s.cfg.desc.fal ∧ x < 256)) : (compose line s).work.read y x = s.work.read y x := by
  have hfill (p : Pixel) : (fillRow (line - s.cfg.desc.fal) p s).work.read y x = s.work.read y x :=
    (fillRow_read hw ..).trans (if_neg h)
  cases hblank : s.disp.forceBlank with
  | true => rw [compose_of_forceBlank hblank, hfill]
  | false =>
    obtain ⟨b, hr, hb⟩ := Frame.exists_wfIn hw (line - s.cfg.desc.fal)
    rw [compose_of_drawing hblank, composeLayers_read_other _ hr _ _ (fillRow_wfIn hr hb _) y x h, hfill]

/-- Settles O50: Compose keeps all but the work buffer and the fault, and writes the row's columns alone. -/
theorem composeWritesOnlyItsRow : Obligations.ComposeWritesOnlyItsRow := by
  intro s line hw
  exact ⟨samePicture_compose line s, fun y x hy => compose_read_other hw line (fun k => hy k.1),
    fun x hx => compose_read_other hw line (fun k => Nat.not_lt.2 hx k.2)⟩

/-! ## The pixels and the raise -/

/-- Every fetch of every pixel visited is in range exactly when no fetch is the first out of range. -/
theorem firstRaise_eq_none_iff (s : State) (row : Nat) :
    (s.visited.flatMap (s.fetchAddrs row)).find? (fun r => (wordIndex s.cfg.vramA15 r).isNone) = none ↔
      ∀ n ∈ s.drawnLayers, ∀ x, x < 256 → s.fetchesInRange row n x := by
  have hfetch (n : BgIdx) (x : Nat) : s.fetchesInRange row n x ↔
      ∀ r ∈ s.fetchAddrs row (n, x), ¬ (wordIndex s.cfg.vramA15 r).isNone = true := by
    simp [State.fetchAddrs, State.fetchesInRange, wordIndex_none]
  simp only [List.find?_eq_none, State.visited, List.mem_flatMap, List.mem_map, List.mem_range, hfetch]
  constructor
  · intro h n hn x hx r hr
    exact h r ⟨_, ⟨n, hn, x, hx, rfl⟩, hr⟩
  · rintro h r ⟨_, ⟨n, hn, x, hx, rfl⟩, hr⟩
    exact h n hn x hx r hr

theorem State.visited_lt (s : State) : ∀ p ∈ s.visited, p.2 < 256 := by
  simp only [State.visited, List.mem_flatMap, List.mem_map, List.mem_range]
  rintro _ ⟨n, -, x, hx, rfl⟩
  exact hx

/-- The fault of a drawn line is that of the first fetch out of range. -/
theorem compose_fault {s : State} (hs : s.fault = none) (h : s.disp.forceBlank = false) (line : Nat) :
    (compose line s).fault = ((s.visited.flatMap (s.fetchAddrs (line - s.cfg.desc.fal))).find?
      (fun r => (wordIndex s.cfg.vramA15 r).isNone)).map vramWordFault := by
  have same := samePicture_fillRow (line - s.cfg.desc.fal) (expand (s.cgRead 0)) s
  obtain ⟨hfault, -⟩ := composePixels_spec _ (Nat.lt_succ_self (line - s.cfg.desc.fal)) s.visited s.visited_lt _
    ((fillRow_fault ..).trans hs)
  rw [compose_eq_composePixels h, hfault, same.fetchAddrs, same.cfg]

/-- A drawn line raises nothing exactly when all fetches of the drawn layers are in range. -/
theorem compose_fault_eq_none_iff {s : State} (hs : s.fault = none) (h : s.disp.forceBlank = false) (line : Nat) :
    (compose line s).fault = none ↔
      ∀ n ∈ s.drawnLayers, ∀ x, x < 256 → s.fetchesInRange (line - s.cfg.desc.fal) n x := by
  rw [compose_fault hs h, Option.map_eq_none_iff, firstRaise_eq_none_iff]

/-- A pixel of a drawn line is the backdrop with what the visits of its column before a raise drew. -/
theorem compose_read {s : State} (hs : s.fault = none) (hw : s.work.wf = true) (h : s.disp.forceBlank = false)
    (line : Nat) {x : Nat} (hx : x < 256) :
    (compose line s).work.read (line - s.cfg.desc.fal) x =
      ((s.visitedBeforeRaise (line - s.cfg.desc.fal)).filter (fun p => p.2 == x)).foldl
        (fun below p => s.pixelOver (line - s.cfg.desc.fal) x below p.1) (expand (s.cgRead 0)) := by
  have same := samePicture_fillRow (line - s.cfg.desc.fal) (expand (s.cgRead 0)) s
  obtain ⟨b, hr, hb⟩ := Frame.exists_wfIn hw (line - s.cfg.desc.fal)
  obtain ⟨-, hread⟩ := composePixels_spec _ hr s.visited s.visited_lt _ ((fillRow_fault ..).trans hs)
  rw [compose_eq_composePixels h, hread (fillRow_wfIn hr hb _), same.fetchAddrs, same.cfg, same.pixelOver,
    fillRow_read hw, if_pos ⟨rfl, hx⟩]
  rfl

/-- Force blank fetches nothing, so nothing is raised. -/
theorem compose_fault_of_forceBlank {s : State} (hs : s.fault = none) (h : s.disp.forceBlank = true) (line : Nat) :
    (compose line s).fault = none := by
  rw [compose_of_forceBlank h, fillRow_fault, hs]

/-- Settles O52: force blank fetches nothing, and a drawn line goes as far as its visits. -/
theorem composeRaisesExactlyOnAFetchOutOfRange : Obligations.ComposeRaisesExactlyOnAFetchOutOfRange := by
  intro s line hs
  refine ⟨?_, fun h => ⟨compose_fault hs h line, fun hw _ hx => compose_read hs hw h line hx⟩⟩
  cases h : s.disp.forceBlank with
  | true => simp [compose_fault_of_forceBlank hs h line]
  | false => simpa using compose_fault_eq_none_iff hs h line

/-- Settles O51: with no raise each drawn layer is passed once, and its fetches are in range. -/
theorem composedPixelIsTheLayersOverTheBackdrop : Obligations.ComposedPixelIsTheLayersOverTheBackdrop := by
  intro s line x hs hw h hf hx
  have hrange := (compose_fault_eq_none_iff hs h line).1 hf
  have same := samePicture_fillRow (line - s.cfg.desc.fal) (expand (s.cgRead 0)) s
  obtain ⟨b, hr, hb⟩ := Frame.exists_wfIn hw (line - s.cfg.desc.fal)
  rw [compose_of_drawing h] at hf ⊢
  rw [composeLayers_read _ hr _ _ (fillRow_wfIn hr hb _) ((fillRow_fault ..).trans hs) hf x hx, same.bg,
    fillRow_read hw, if_pos ⟨rfl, hx⟩]
  refine List.foldl_ext _ _ _ fun below n hn => ?_
  rw [same.layerPixel, (layerPixel_spec s n _ x).2.1 (hrange n hn x hx)]

/-! ## The stored display fields -/

/-- Replace display control. -/
def State.withDisp (s : State) (d : DisplayControl) : State := { s with disp := d }

@[simp] theorem State.withDisp_work (s : State) (d : DisplayControl) : (s.withDisp d).work = s.work := rfl
@[simp] theorem State.withDisp_fault (s : State) (d : DisplayControl) : (s.withDisp d).fault = s.fault := rfl

theorem State.live_withDisp {f : State → State} {d : DisplayControl}
    (hf : ∀ s : State, f (s.withDisp d) = (f s).withDisp d) (s : State) :
    (s.withDisp d).live f = (s.live f).withDisp d := by
  cases h : s.fault with
  | none => rw [State.live_of_running h, State.live_of_running ((State.withDisp_fault ..).trans h), hf]
  | some e => rw [State.live_of_halted h, State.live_of_halted ((State.withDisp_fault ..).trans h)]

theorem composePixel_withDisp (n : BgIdx) (row x : Nat) (d : DisplayControl) (s : State) :
    composePixel n row x (s.withDisp d) = (composePixel n row x s).withDisp d := by
  have hpixel : layerPixel (s.withDisp d) n row x = layerPixel s n row x := rfl
  unfold composePixel
  rw [hpixel]
  cases layerPixel s n row x <;> rfl

theorem composePixels_withDisp (row : Nat) (ps : List (BgIdx × Nat)) (d : DisplayControl) (s : State) :
    composePixels row ps (s.withDisp d) = (composePixels row ps s).withDisp d := by
  induction ps generalizing s with
  | nil => rfl
  | cons p ps ih => rw [composePixels, State.live_withDisp (composePixel_withDisp p.1 row p.2 d), ih, composePixels]

theorem fillColumns_withDisp (row : Nat) (p : Pixel) (xs : List Nat) (d : DisplayControl) (s : State) :
    fillColumns row p xs (s.withDisp d) = (fillColumns row p xs s).withDisp d := by
  induction xs generalizing s with
  | nil => rfl
  | cons x xs ih => exact ih (s.fbWrite row x p)

/-- Of display control Compose looks at force blank alone. -/
theorem compose_withDisp {s : State} {d : DisplayControl} (h : d.forceBlank = s.disp.forceBlank) (line : Nat) :
    compose line (s.withDisp d) = (compose line s).withDisp d := by
  cases hs : s.disp.forceBlank with
  | true =>
    rw [compose_of_forceBlank hs, compose_of_forceBlank (s := s.withDisp d) (h.trans hs)]
    exact fillColumns_withDisp ..
  | false =>
    rw [compose_eq_composePixels hs, compose_eq_composePixels (s := s.withDisp d) (h.trans hs),
      ← composePixels_withDisp]
    exact congrArg _ (fillColumns_withDisp ..)

/-- Settles O53: Compose commutes with a change of the other fields of display control. -/
theorem storedFieldsChangeNoPixel : Obligations.StoredFieldsChangeNoPixel := by
  intro s line d h
  have hcompose : compose line { s with disp := d } = (compose line s).withDisp d := compose_withDisp h line
  rw [hcompose]
  exact ⟨State.withDisp_work .., State.withDisp_fault ..⟩

end Sys2Proof.Machine
end

section
/-! ADV with no draw to come and nothing to fetch (44_compositor.md R262, R263): no tick of it raises, and memory,
registers and inputs stay. -/

namespace Sys2Proof.Machine

/-- No fault, no draw to come, and either force blank on or no listed layer enabled. -/
structure State.FetchesNothing (s : State) : Prop where
  running : s.fault = none
  noDraw  : s.draws = []
  noLayer : s.disp.forceBlank = true ∨ s.drawnLayers = []

/-- `t` differs from `s` in the timing, the frame buffers, the swap count, the history and the consumer's side alone. -/
def SameRegisters (s t : State) : Prop :=
  { t with timing := s.timing, work := s.work, display := s.display, swapCount := s.swapCount, history := s.history
           consumer := s.consumer, replies := s.replies } = s

theorem SameRegisters.eq {s t : State} (h : SameRegisters s t) :
    t = { s with timing := t.timing, work := t.work, display := t.display, swapCount := t.swapCount
                 history := t.history, consumer := t.consumer, replies := t.replies } := by
  unfold SameRegisters at h
  rw [← h]

theorem SameRegisters.trans {s t u : State} (h : SameRegisters s t) (k : SameRegisters t u) : SameRegisters s u := by
  unfold SameRegisters at *
  rw [← k] at h
  exact h

theorem SameRegisters.fetchesNothing {s t : State} (h : SameRegisters s t) (hs : s.FetchesNothing) :
    t.FetchesNothing := by
  rw [h.eq]
  exact { hs with }

/-! ## The parts of a tick -/

theorem sameRegisters_dmaHook {s : State} (h : s.draws = []) (line : Nat) : SameRegisters s (dmaHook line s) := by
  simp only [dmaHook, h]
  rfl

theorem SamePicture.sameRegisters {s t : State} (h : SamePicture s t) (hf : t.fault = s.fault) : SameRegisters s t := by
  rw [h.eq, hf]
  rfl

/-- Compose raises nothing where it fetches nothing. -/
theorem compose_fault_of_fetchesNothing {s : State} (h : s.FetchesNothing) (line : Nat) :
    (compose line s).fault = none := by
  obtain ⟨hruns, -⟩ := composeRaisesExactlyOnAFetchOutOfRange s line h.running
  refine hruns.2 (h.noLayer.imp_right fun hn => ?_)
  simp [hn]

theorem sameRegisters_compose {s : State} (h : s.FetchesNothing) (line : Nat) : SameRegisters s (compose line s) :=
  (samePicture_compose line s).sameRegisters ((compose_fault_of_fetchesNothing h line).trans h.running.symm)

theorem sameRegisters_visibleStart (s : State) : SameRegisters s (visibleStart s) := by
  unfold visibleStart
  split <;> rfl

theorem sameRegisters_visibleEnd (s : State) : SameRegisters s (visibleEnd s) := by
  unfold visibleEnd raiseFrameReady requestNmi
  repeat' split
  all_goals rfl

theorem sameRegisters_frameWrap (s : State) : SameRegisters s (frameWrap s) := by
  unfold frameWrap
  split <;> rfl

theorem sameRegisters_lineWrap (s : State) : SameRegisters s (lineWrap s) := by
  unfold lineWrap
  split
  · have hcount : SameRegisters s
        { s with timing := { s.timing with hCounter := 0, vCounter := s.timing.vCounter + 1 } } := rfl
    exact ((hcount.trans (sameRegisters_visibleStart _)).trans (sameRegisters_visibleEnd _)).trans
      (sameRegisters_frameWrap _)
  · rfl

theorem sameRegisters_irqCheck (s : State) : SameRegisters s (irqCheck s) := by
  rw [irqCheck_eq]
  rfl

/-- A tick, whether it renders a line or not. -/
theorem sameRegisters_tick {s : State} (h : s.FetchesNothing) : SameRegisters s (tick s) := by
  have hdot : SameRegisters s (dotMoved s) := rfl
  have htail (u : State) : SameRegisters u (irqCheck (lineWrap u)) :=
    (sameRegisters_lineWrap u).trans (sameRegisters_irqCheck _)
  by_cases hr : s.rendersNow
  · have hhook := hdot.trans (sameRegisters_dmaHook (s := dotMoved s) h.noDraw s.timing.vCounter)
    have hquiet := hhook.fetchesNothing h
    rw [tick_of_rendersNow hr rfl hquiet.running (compose_fault_of_fetchesNothing hquiet _)]
    have hemit (u : State) (e : Event) : SameRegisters u (u.emit e) := rfl
    exact ((hhook.trans (sameRegisters_compose hquiet _)).trans (hemit ..)).trans (htail _)
  · rw [tick_of_not_rendersNow h.running hr]
    exact hdot.trans (htail _)

/-! ## The loop -/

theorem sameRegisters_advance {s : State} (hi : s.Inv) (h : s.FetchesNothing) (n : Nat) :
    SameRegisters s (advance n s) := by
  obtain ⟨ht, -⟩ := (State.inv_iff s).1 hi
  refine (advanceLoop_induction (SameRegisters s) (fun u hu _ _ _ => ?_) _ (s.withAcc (s.timing.acc + n)) rfl
    (ht.withAcc _)).1
  have hround : SameRegisters u (roundStart u) := by rw [roundStart_eq]; rfl
  have hstart := hu.trans hround
  exact hstart.trans (sameRegisters_tick (hstart.fetchesNothing h))

/-- Settles O35: every tick leaves the block such that it fetches nothing, so none raises. -/
theorem advanceWithoutFetchesCompletes : Obligations.AdvanceWithoutFetchesCompletes := by
  intro s n hi hs hd hn
  have hkeep := sameRegisters_advance hi ⟨hs, hd, hn⟩ n.toNat
  have hf : (advance n.toNat s).fault = none := (hkeep.fetchesNothing ⟨hs, hd, hn⟩).running
  obtain ⟨hacc, hpos, -⟩ := (advance_spec hi hs n.toNat).2 hf
  refine ⟨_, exec_adv_eq_advance hs n, hf, hacc, hpos, ?_⟩
  rw [hkeep.eq]
  exact ⟨rfl, rfl, rfl, rfl, rfl, rfl, rfl, rfl, rfl⟩

end Sys2Proof.Machine
end

section
/-! The display buffer (45_frame_exchange.md): what the consumer reads of it, and that it changes by a swap or a reset
alone. Every part of a tick is followed in every state, the invariant or not. -/

namespace Sys2Proof.Machine

/-- From `s` to `t` the swap count does not fall, and with an equal count the display buffer is the same
(45_frame_exchange.md R296). -/
structure DisplayHolds (s t : State) : Prop where
  count   : s.swapCount ≤ t.swapCount
  display : t.swapCount = s.swapCount → t.display = s.display

theorem DisplayHolds.of_eq {s t : State} (hdisplay : t.display = s.display) (hcount : t.swapCount = s.swapCount) :
    DisplayHolds s t := ⟨hcount.ge, fun _ => hdisplay⟩

/-- Where a swap is counted, nothing is claimed of the buffer. -/
theorem DisplayHolds.of_swapCount_lt {s t : State} (h : s.swapCount < t.swapCount) : DisplayHolds s t :=
  ⟨h.le, fun heq => absurd heq h.ne'⟩

theorem DisplayHolds.refl (s : State) : DisplayHolds s s := .of_eq rfl rfl

/-- Counts that do not fall and end as they began are equal all along. -/
theorem DisplayHolds.trans {s t u : State} (h : DisplayHolds s t) (k : DisplayHolds t u) : DisplayHolds s u where
  count := h.count.trans k.count
  display heq := by
    have hst : t.swapCount = s.swapCount := (k.count.trans_eq heq).antisymm h.count
    exact (k.display (heq.trans hst.symm)).trans (h.display hst)

theorem DisplayHolds.live {s : State} {f : State → State} (h : DisplayHolds s (f s)) : DisplayHolds s (s.live f) :=
  State.live_keeps (.refl s) fun _ => h

theorem LineKeeps.displayHolds {P : Event → Prop} {s t : State} (h : LineKeeps P s t) : DisplayHolds s t :=
  .of_eq h.display h.swapCount

theorem SamePicture.displayHolds {s t : State} (h : SamePicture s t) : DisplayHolds s t := by
  rw [h.eq]
  exact .of_eq rfl rfl

/-! ## The parts of a tick -/

theorem displayHolds_activeStart (s : State) : DisplayHolds s (activeStart s) := by
  unfold activeStart
  split <;> exact .of_eq rfl rfl

theorem displayHolds_dmaHook (line : Nat) (s : State) : DisplayHolds s (dmaHook line s) :=
  (lineKeeps_dmaHook (P := fun _ => True) line s (fun _ => trivial) trivial).displayHolds

theorem displayHolds_renderLine (line : Nat) (s : State) : DisplayHolds s (renderLine line s) :=
  (samePicture_compose line s).displayHolds.trans (.live (.of_eq rfl rfl))

theorem displayHolds_lineEnd (s : State) : DisplayHolds s (lineEnd s) := by
  have hflag : DisplayHolds s { s with timing := s.timing.withHBlank true } := .of_eq rfl rfl
  unfold lineEnd
  dsimp only
  split
  · split
    · exact (hflag.trans (displayHolds_dmaHook ..)).trans (.live (displayHolds_renderLine ..))
    · exact hflag
  · exact .refl s

theorem displayHolds_visibleStart (s : State) : DisplayHolds s (visibleStart s) := by
  unfold visibleStart
  split <;> exact .of_eq rfl rfl

theorem swapCount_lt_swap (s : State) : s.swapCount < (swap s).swapCount := Nat.lt_succ_self _

/-- The one part of a tick that writes the display buffer, and it counts. -/
theorem displayHolds_raiseFrameReady (s : State) : DisplayHolds s (raiseFrameReady s) := by
  unfold raiseFrameReady
  split
  · exact .refl s
  · exact .of_swapCount_lt (swapCount_lt_swap _)

theorem displayHolds_requestNmi (s : State) : DisplayHolds s (requestNmi s) := by
  unfold requestNmi
  split <;> exact .of_eq rfl rfl

theorem displayHolds_visibleEnd (s : State) : DisplayHolds s (visibleEnd s) := by
  have hflag : DisplayHolds s { s with timing := s.timing.withVBlank true } := .of_eq rfl rfl
  unfold visibleEnd
  split
  · exact (hflag.trans (displayHolds_raiseFrameReady _)).trans (displayHolds_requestNmi _)
  · exact .refl s

theorem displayHolds_frameWrap (s : State) : DisplayHolds s (frameWrap s) := by
  unfold frameWrap
  split <;> exact .of_eq rfl rfl

theorem displayHolds_lineWrap (s : State) : DisplayHolds s (lineWrap s) := by
  have hcount : DisplayHolds s
      { s with timing := { s.timing with hCounter := 0, vCounter := s.timing.vCounter + 1 } } := .of_eq rfl rfl
  unfold lineWrap
  split
  · exact ((hcount.trans (displayHolds_visibleStart _)).trans (displayHolds_visibleEnd _)).trans
      (displayHolds_frameWrap _)
  · exact .refl s

theorem displayHolds_irqCheck (s : State) : DisplayHolds s (irqCheck s) := by
  rw [irqCheck_eq]
  exact .of_eq rfl rfl

theorem displayHolds_tick (s : State) : DisplayHolds s (tick s) := by
  have hdot : DisplayHolds s (countDot s) := .of_eq rfl rfl
  exact ((hdot.trans (displayHolds_activeStart _)).trans (displayHolds_lineEnd _)).trans
    (.live ((displayHolds_lineWrap _).trans (displayHolds_irqCheck _)))

/-! ## The loop -/

theorem displayHolds_roundStart (s : State) : DisplayHolds s (roundStart s) := by
  rw [roundStart_eq]
  exact .of_eq rfl rfl

theorem displayHolds_advanceRound (s : State) : DisplayHolds s (advanceRound s) := by
  refine .live ?_
  split
  · exact (displayHolds_roundStart s).trans (displayHolds_tick _)
  · exact .refl s

theorem displayHolds_advanceLoop (k : Nat) (s : State) : DisplayHolds s (advanceLoop k s) := by
  induction k generalizing s with
  | zero => exact .refl s
  | succ k ih => exact (displayHolds_advanceRound s).trans (ih _)

theorem displayHolds_advance (n : Nat) (s : State) : DisplayHolds s (advance n s) := by
  have hacc : DisplayHolds s { s with timing := { s.timing with acc := s.timing.acc + n } } := .of_eq rfl rfl
  exact hacc.trans (displayHolds_advanceLoop _ _)

/-! ## Every instruction -/

theorem displayHolds_logUnmapped (s : State) (dir : BusDir) (a : BusAddr) : DisplayHolds s (s.logUnmapped dir a) :=
  .of_eq (State.logUnmapped_display ..) (State.logUnmapped_swapCount ..)

theorem displayHolds_readVmdata (h : Half) (s : State) : DisplayHolds s (readVmdata h s) := by
  rcases readVmdata_cases h s with ⟨-, hraise⟩ | ⟨w, -, -, hread⟩
  · rw [hraise]
    exact .of_eq rfl rfl
  · rw [hread]
    exact .of_eq (State.advanceAfter_display ..) (State.advanceAfter_swapCount ..)

theorem displayHolds_readRdcgram (s : State) : DisplayHolds s (readRdcgram s) := by
  unfold readRdcgram
  dsimp only
  split <;> exact .of_eq rfl rfl

theorem displayHolds_readPort (p : RPort) (s : State) : DisplayHolds s (RPort.run p s) := by
  cases p with
  | rdvraml => exact displayHolds_readVmdata .low s
  | rdvramh => exact displayHolds_readVmdata .high s
  | rdcgram => exact displayHolds_readRdcgram s
  | slhv | ophct | opvct | stat77 | stat78 => exact .of_eq rfl rfl

theorem displayHolds_readUnmapped (a : BusAddr) (s : State) : DisplayHolds s (readUnmapped a s) :=
  .trans (t := s.reply _) (.of_eq rfl rfl) (displayHolds_logUnmapped _ .read a)

/-- An ADV may swap; the other instructions but RST leave the buffer and the count. -/
theorem Effect.displayHolds {i : Instr} {f : State → State} (e : Effect i f) (hr : i ≠ .rst) (s : State) :
    DisplayHolds s (f s) := by
  cases e with
  | write p d => exact (lineKeeps_writePort (P := fun _ => True) p d s).displayHolds
  | writeNone a d => exact displayHolds_logUnmapped s .write a
  | read p => exact displayHolds_readPort p s
  | readNone a => exact displayHolds_readUnmapped a s
  | adv n => exact displayHolds_advance n.toNat s
  | rst => exact absurd rfl hr
  | setirq | setobj | dread => exact .of_eq rfl rfl

theorem exec_displayHolds {i : Instr} {s t : State} (hr : i ≠ .rst) (h : exec i s = .next t) : DisplayHolds s t := by
  obtain ⟨f, e⟩ := exists_effect i
  rw [e.next_eq h]
  exact .live (e.displayHolds hr s)

/-! ## Runs -/

/-- A run with a next state has one after its first instruction. -/
theorem execAll_cons_eq_next {i : Instr} {is : List Instr} {s t : State} (h : execAll (i :: is) s = .next t) :
    ∃ u, exec i s = .next u ∧ execAll is u = .next t := by
  rw [execAll] at h
  split at h
  · next u hu => exact ⟨u, hu, h⟩
  · cases h
  · cases h

theorem execAll_displayHolds {is : List Instr} {s t : State} (hr : .rst ∉ is) (h : execAll is s = .next t) :
    DisplayHolds s t := by
  induction is generalizing s with
  | nil => cases h; exact .refl _
  | cons i is ih =>
    obtain ⟨u, hu, ht⟩ := execAll_cons_eq_next h
    have hfirst := exec_displayHolds (List.ne_of_not_mem_cons hr).symm hu
    exact hfirst.trans (ih (List.not_mem_of_not_mem_cons hr) ht)

/-- Settles O55: every instruction of the run relates its two states, and the relation is transitive. -/
theorem displayHoldsBetweenSwaps : Obligations.DisplayHoldsBetweenSwaps := by
  intro is s t hr hrun
  obtain ⟨hcount, hdisplay⟩ := execAll_displayHolds hr hrun
  exact ⟨hcount, hdisplay⟩

/-! ## DREAD -/

/-- Settles O54: the row decides between the performed read and the refusal. -/
theorem displayReadReturnsPixelAndCount : Obligations.DisplayReadReturnsPixelAndCount := by
  intro s x y hs
  refine ⟨fun hrow => ⟨?_, ?_⟩, fun hrow => ?_⟩
  · have hword : 0x70000000 + y.toNat * 256 + x.toNat = (encode (.dread x y)).toNat := (encode_dread_toNat x y).symm
    rw [hword]
    exact spells_encode (decide_eq_true hrow)
  · rw [exec_dread, if_pos hrow]
    exact State.perform_of_running hs _
  · rw [exec_dread, if_neg hrow.not_gt]

end Sys2Proof.Machine
end

section
/-! Where a block raises (60_exceptions.md R311, R313): the one record a raise makes, the instructions that can raise, and
the tick that a raise stops. -/

namespace Sys2Proof.Machine

/-! ## The record of a raise -/

/-- From `s` to `t` the parameters stay, and a fault that is new is one that `WordIndex` raised. -/
structure RaisesOutOfRange (s t : State) : Prop where
  cfg    : t.cfg = s.cfg
  raised : ∀ f, t.fault = some f → s.fault = some f ∨ ∃ r, f = vramWordFault r ∧ outOfRange s.cfg.vramA15 r

theorem RaisesOutOfRange.refl (s : State) : RaisesOutOfRange s s := ⟨rfl, fun _ => .inl⟩

theorem RaisesOutOfRange.trans {s t u : State} (h : RaisesOutOfRange s t) (k : RaisesOutOfRange t u) :
    RaisesOutOfRange s u where
  cfg := k.cfg.trans h.cfg
  raised f hf := by
    rcases k.raised f hf with ht | hr
    · exact h.raised f ht
    · exact .inr (h.cfg ▸ hr)

theorem RaisesOutOfRange.live {s : State} {f : State → State} (h : RaisesOutOfRange s (f s)) :
    RaisesOutOfRange s (s.live f) := State.live_keeps (.refl s) fun _ => h

theorem LineKeeps.raisesOutOfRange {P : Event → Prop} {s t : State} (h : LineKeeps P s t) : RaisesOutOfRange s t :=
  ⟨h.cfg, h.raised⟩

theorem SameRegisters.fault {s t : State} (h : SameRegisters s t) : t.fault = s.fault := by rw [h.eq]

theorem SameRegisters.raisesOutOfRange {s t : State} (h : SameRegisters s t) : RaisesOutOfRange s t :=
  ⟨by rw [h.eq], fun _ hf => .inl (h.fault ▸ hf)⟩

/-! ## A tick and the loop, in every state -/

theorem raisesOutOfRange_renderLine (line : Nat) (s : State) : RaisesOutOfRange s (renderLine line s) := by
  have hcompose : RaisesOutOfRange s (compose line s) := ⟨(samePicture_compose line s).cfg, compose_raised line s⟩
  have hemit (u : State) (e : Event) : SameRegisters u (u.emit e) := rfl
  exact hcompose.trans (.live (hemit ..).raisesOutOfRange)

/-- What a tick does after its line end (40_timing.md R129 to R136). -/
theorem sameRegisters_wrapAndCheck (s : State) : SameRegisters s (irqCheck (lineWrap s)) :=
  (sameRegisters_lineWrap s).trans (sameRegisters_irqCheck _)

theorem raisesOutOfRange_tick (s : State) : RaisesOutOfRange s (tick s) := by
  have hdot : SameRegisters s (dotMoved s) := rfl
  have hend : RaisesOutOfRange (dotMoved s) (lineEnd (activeStart (countDot s))) := by
    by_cases hr : s.rendersNow
    · rw [(lineEnd_spec s).1 hr]
      have hhook := lineKeeps_dmaHook (P := fun _ => True) s.timing.vCounter (dotMoved s) (fun _ => trivial) trivial
      exact hhook.raisesOutOfRange.trans (.live (raisesOutOfRange_renderLine ..))
    · rw [(lineEnd_spec s).2 hr]
      exact .refl _
  exact (hdot.raisesOutOfRange.trans hend).trans (.live (sameRegisters_wrapAndCheck _).raisesOutOfRange)

theorem sameRegisters_roundStart (s : State) : SameRegisters s (roundStart s) := by
  rw [roundStart_eq]
  rfl

theorem raisesOutOfRange_advanceRound (s : State) : RaisesOutOfRange s (advanceRound s) := by
  refine .live ?_
  split
  · exact (sameRegisters_roundStart s).raisesOutOfRange.trans (raisesOutOfRange_tick _)
  · exact .refl s

theorem raisesOutOfRange_advanceLoop (k : Nat) (s : State) : RaisesOutOfRange s (advanceLoop k s) := by
  induction k generalizing s with
  | zero => exact .refl s
  | succ k ih => exact (raisesOutOfRange_advanceRound s).trans (ih _)

theorem raisesOutOfRange_advance (n : Nat) (s : State) : RaisesOutOfRange s (advance n s) := by
  have hacc : SameRegisters s (s.withAcc (s.timing.acc + n)) := rfl
  exact hacc.raisesOutOfRange.trans (raisesOutOfRange_advanceLoop _ _)

/-! ## The instructions that can raise -/

/-- The four data ports of video memory and ADV (60_exceptions.md R311). -/
def AccessesVram (i : Instr) : Prop :=
  (∃ d, i = .wVmdatal d) ∨ (∃ d, i = .wVmdatah d) ∨ i = .rRdvraml ∨ i = .rRdvramh ∨ ∃ n, i = .adv n

theorem raisesOutOfRange_readVmdata (h : Half) (s : State) : RaisesOutOfRange s (readVmdata h s) := by
  rcases readVmdata_cases h s with ⟨hout, hraise⟩ | ⟨w, -, -, hread⟩
  · rw [hraise]
    exact (lineKeeps_raise (P := fun _ => True) s _ hout).raisesOutOfRange
  · rw [hread]
    have hreply : SameRegisters s (s.reply (.byte (s.vramRead8 (h.byteIndex w)))) := rfl
    exact hreply.raisesOutOfRange.trans (lineKeeps_advanceAfter (P := fun _ => True) _ h).raisesOutOfRange

theorem writeCgdata_fault (d : Byte) (s : State) : (writeCgdata d s).fault = s.fault := by
  unfold writeCgdata
  split <;> rfl

theorem readRdcgram_fault (s : State) : (readRdcgram s).fault = s.fault := by
  unfold readRdcgram
  dsimp only
  split <;> rfl

/-- An effect leaves the fault, or it is that of an access to video memory and raises for a word address out of range. -/
theorem Effect.fault_cases {i : Instr} {f : State → State} (e : Effect i f) (s : State) :
    (f s).fault = s.fault ∨ (AccessesVram i ∧ RaisesOutOfRange s (f s)) := by
  cases e with
  | write p d =>
    have hwrite := (lineKeeps_writePort (P := fun _ => True) p d s).raisesOutOfRange
    cases p with
    | vmdatal => exact .inr ⟨.inl ⟨d, rfl⟩, hwrite⟩
    | vmdatah => exact .inr ⟨.inr (.inl ⟨d, rfl⟩), hwrite⟩
    | cgdata => exact .inl (writeCgdata_fault d s)
    | _ => exact .inl rfl
  | writeNone a d => exact .inl (State.logUnmapped_fault ..)
  | read p =>
    cases p with
    | rdvraml => exact .inr ⟨.inr (.inr (.inl rfl)), raisesOutOfRange_readVmdata .low s⟩
    | rdvramh => exact .inr ⟨.inr (.inr (.inr (.inl rfl))), raisesOutOfRange_readVmdata .high s⟩
    | rdcgram => exact .inl (readRdcgram_fault s)
    | _ => exact .inl rfl
  | readNone a => exact .inl (State.logUnmapped_fault ..)
  | adv n => exact .inr ⟨.inr (.inr (.inr (.inr ⟨n, rfl⟩))), raisesOutOfRange_advance n.toNat s⟩
  | _ => exact .inl rfl

/-- Settles O9, by cases on the instruction's effect; ADV's part is the induction over its rounds. -/
theorem onlyVramAccessesRaise : Obligations.OnlyVramAccessesRaise := by
  intro i s t f hs hx hf
  obtain ⟨g, e⟩ := exists_effect i
  rw [e.next_eq hx, State.live_of_running hs] at hf
  rcases e.fault_cases s with hkeep | ⟨hvram, hraise⟩
  · rw [hkeep, hs] at hf
    cases hf
  · refine ⟨hvram, (hraise.raised f hf).resolve_left ?_⟩
    rw [hs]
    nofun

/-! ## The tick that a raise stops -/

/-- A write of the hook's draw raises: the tick ends there. -/
theorem tick_of_hook_raise {s : State} (hr : s.rendersNow)
    (hhook : (dmaHook s.timing.vCounter (dotMoved s)).fault ≠ none) :
    tick s = dmaHook s.timing.vCounter (dotMoved s) := by
  obtain ⟨f, hf⟩ := Option.ne_none_iff_exists'.1 hhook
  unfold tick
  rw [(lineEnd_spec s).1 hr, State.live_of_halted hf, State.live_of_halted hf]

/-- The compositor raises: the line is not logged. -/
theorem renderLine_of_raise {line : Nat} {s : State} (h : (compose line s).fault ≠ none) :
    renderLine line s = compose line s := by
  obtain ⟨f, hf⟩ := Option.ne_none_iff_exists'.1 h
  exact State.live_of_halted hf _

/-- The hook raises nothing and the compositor raises: the tick is what the compositor leaves. -/
theorem tick_of_compose_raise {s : State} (hr : s.rendersNow)
    (hhook : (dmaHook s.timing.vCounter (dotMoved s)).fault = none)
    (hcompose : (compose s.timing.vCounter (dmaHook s.timing.vCounter (dotMoved s))).fault ≠ none) :
    tick s = compose s.timing.vCounter (dmaHook s.timing.vCounter (dotMoved s)) := by
  obtain ⟨f, hf⟩ := Option.ne_none_iff_exists'.1 hcompose
  unfold tick
  rw [(lineEnd_spec s).1 hr, State.live_of_running hhook, renderLine_of_raise hcompose, State.live_of_halted hf]

theorem rendersNow_of_tick_raise {s : State} (hs : s.fault = none) (hf : (tick s).fault ≠ none) : s.rendersNow := by
  by_contra hr
  rw [tick_of_not_rendersNow hs hr, (sameRegisters_wrapAndCheck _).fault] at hf
  exact hf hs

/-- A tick that raises leaves what the hook left, but for the row drawn and the fault. -/
theorem samePicture_tick_of_raise {s : State} (hr : s.rendersNow) (hf : (tick s).fault ≠ none) :
    SamePicture (dmaHook s.timing.vCounter (dotMoved s)) (tick s) := by
  by_cases hhook : (dmaHook s.timing.vCounter (dotMoved s)).fault = none
  · by_cases hcompose : (compose s.timing.vCounter (dmaHook s.timing.vCounter (dotMoved s))).fault = none
    · rw [tick_of_rendersNow hr rfl hhook hcompose, (sameRegisters_wrapAndCheck _).fault, State.emit_fault] at hf
      exact absurd hcompose hf
    · rw [tick_of_compose_raise hr hhook hcompose]
      exact samePicture_compose ..
  · rw [tick_of_hook_raise hr hhook]
    exact .refl _

/-- At a line's end the hook is the next draw's transactions, run after its event. -/
theorem dmaHook_dotMoved {s t : State} {d : List (BusAddr × Byte)} {ds : List (List (BusAddr × Byte))}
    (hend : s.timing.hCounter + 1 = s.cfg.desc.fad + s.cfg.desc.aw)
    (hdraw : s.draws = d :: ds ∨ (s.draws = [] ∧ d = [] ∧ ds = []))
    (hrun : execAll (drawInstrs d) { s with
      timing := { s.timing with hCounter := s.timing.hCounter + 1, inHBlank := true }
      history := s.history ++ [.dmaHook s.timing.vCounter]
      draws := ds } = .next t) :
    dmaHook s.timing.vCounter (dotMoved s) = t := by
  rw [execAll_drawInstrs, Host.Outcome.next.injEq] at hrun
  rw [dmaHook_eq_performDraw (s := dotMoved s) hdraw, ← hrun, dotMoved_of_lineEnd hend]

/-- Settles O44, from what the hook and the compositor keep and from the two places where the tick can stop. -/
theorem lineEndTickStopsAtARaise : Obligations.LineEndTickStopsAtARaise := by
  refine ⟨fun s _ hs hf => ?_, fun s t d ds _ hs hend hvis hdraw hrun => ?_⟩
  · obtain ⟨hend, hvis⟩ := rendersNow_of_tick_raise hs hf
    have hkeep := lineKeeps_dmaHook (P := fun e => e = .dmaHook s.timing.vCounter ∨ ∃ a, e = .unmapped .write a)
      s.timing.vCounter (dotMoved s) (fun a => .inr ⟨a, rfl⟩) (.inl rfl)
    obtain ⟨ev, hhist, hev⟩ := hkeep.events
    rw [(samePicture_tick_of_raise ⟨hend, hvis⟩ hf).eq]
    refine ⟨hend, hvis, ?_, ?_, hkeep.display, hkeep.swapCount⟩
    · exact hkeep.timing.trans (congrArg State.timing (dotMoved_of_lineEnd hend))
    · have hdrop : (dmaHook s.timing.vCounter (dotMoved s)).history.drop s.history.length = ev := by
        rw [hhist]
        exact List.drop_left
      rw [hdrop]
      exact hev
  · have hhook := dmaHook_dotMoved hend hdraw hrun
    subst hhook
    exact ⟨tick_of_hook_raise ⟨hend, hvis⟩, tick_of_compose_raise ⟨hend, hvis⟩⟩

end Sys2Proof.Machine
end

section
/-! Construction (60_exceptions.md R310, 70_reset_and_hazards.md R340): the conditions in their order, and the error that no
instruction raises. -/

namespace Sys2Proof

/-- The conditions on a descriptor, whether each holds and its name, in the order of 00_scope.md R7's table and then the
totals (log 21). -/
def Descriptor.checks (d : Descriptor) : List (Bool × DescriptorCondition) :=
  [(decide (1 ≤ d.tpd), .tpdAtLeast1), (decide (1 ≤ d.fad), .fadAtLeast1), (decide (d.aw = 256), .awIs256),
   (decide (1 ≤ d.hbw), .hbwAtLeast1), (decide (1 ≤ d.fal), .falAtLeast1), (decide (d.ah = 224), .ahIs224),
   (decide (1 ≤ d.vbh), .vbhAtLeast1), (decide (d.hTotal ≤ 512), .hTotalAtMost512),
   (decide (d.vTotal ≤ 512), .vTotalAtMost512)]

/-- The name of the first condition listed that does not hold. -/
def firstFailing (checks : List (Bool × DescriptorCondition)) : Option DescriptorCondition :=
  (checks.find? (fun p => !p.1)).map (·.2)

theorem firstFailing_cons {P : Prop} [Decidable P] (e : DescriptorCondition)
    (checks : List (Bool × DescriptorCondition)) :
    firstFailing ((decide P, e) :: checks) = if P then firstFailing checks else some e := by
  by_cases h : P <;> simp [firstFailing, h]

theorem firstFailing_eq_none {checks : List (Bool × DescriptorCondition)} (h : checks.all (·.1) = true) :
    firstFailing checks = none := by
  simpa [firstFailing] using h

/-- The chain of tests is the search of the list. -/
theorem Descriptor.firstFailure_eq (d : Descriptor) : d.firstFailure = firstFailing d.checks := by
  simp only [Descriptor.firstFailure, Descriptor.checks, firstFailing_cons, ← Nat.not_le, ite_not, ne_eq]
  rfl

end Sys2Proof

namespace Sys2Proof.Machine

theorem construct_eq_fault_iff (c : Config) (e : DescriptorCondition) :
    State.construct c = .fault (.configurationError e) ↔ c.desc.firstFailure = some e := by
  unfold State.construct
  cases c.desc.firstFailure <;> simp

theorem construct_of_no_failure {c : Config} (h : c.desc.firstFailure = none) :
    State.construct c = .next (State.initial c) := by
  unfold State.construct
  rw [h]

/-- A block just constructed is as a reset leaves it. -/
theorem exec_rst_initial (c : Config) : exec .rst (State.initial c) = .next (State.initial c) := rfl

/-- A transaction is performed or refused (60_exceptions.md R313: a raise is a next state, log 9). -/
theorem exec_ne_fault (i : Instr) (s : State) (f : Fault) : exec i s ≠ .fault f := by
  obtain ⟨g, e⟩ := exists_effect i
  cases e with
  | write p d => rw [exec_writePort]; nofun
  | read p => rw [exec_readPort]; nofun
  | dread x y =>
    rw [exec_dread]
    split <;> nofun
  | _ => nofun

/-- Settles O57, from the search of the conditions. -/
theorem constructionChecksTheDescriptor : Obligations.ConstructionChecksTheDescriptor := by
  refine ⟨fun c => ⟨fun e => ?_, fun hall => ?_⟩, exec_ne_fault⟩
  · rw [construct_eq_fault_iff, Descriptor.firstFailure_eq]
    rfl
  · have hnone : c.desc.firstFailure = none := (Descriptor.firstFailure_eq _).trans (firstFailing_eq_none hall)
    exact ⟨_, construct_of_no_failure hnone, rfl, rfl, rfl, exec_rst_initial c⟩

end Sys2Proof.Machine
end

section
/-! Time and the frame buffers (70_reset_and_hazards.md R353, 45_frame_exchange.md R290): no instruction but ADV and RST
moves the one or changes the others. -/

namespace Sys2Proof.Machine

/-- From `s` to `t` no time passes and neither frame buffer changes. -/
structure TimeStands (s t : State) : Prop where
  timing    : t.timing = s.timing
  swapCount : t.swapCount = s.swapCount
  display   : t.display = s.display
  work      : t.work = s.work

theorem TimeStands.refl (s : State) : TimeStands s s := ⟨rfl, rfl, rfl, rfl⟩

theorem TimeStands.trans {s t u : State} (h : TimeStands s t) (k : TimeStands t u) : TimeStands s u :=
  ⟨k.timing.trans h.timing, k.swapCount.trans h.swapCount, k.display.trans h.display, k.work.trans h.work⟩

theorem TimeStands.live {s : State} {f : State → State} (h : TimeStands s (f s)) : TimeStands s (s.live f) :=
  State.live_keeps (.refl s) fun _ => h

/-- The writes of a line may draw, and leave the rest. -/
theorem LineKeeps.timeStands {P : Event → Prop} {s t : State} (h : LineKeeps P s t) (hwork : t.work = s.work) :
    TimeStands s t := ⟨h.timing, h.swapCount, h.display, hwork⟩

theorem timeStands_reply (s : State) (r : Reply) : TimeStands s (s.reply r) := ⟨rfl, rfl, rfl, rfl⟩

theorem timeStands_advanceAfter (s : State) (h : Half) : TimeStands s (s.advanceAfter h) :=
  (lineKeeps_advanceAfter (P := fun _ => True) s h).timeStands (State.advanceAfter_work ..)

theorem timeStands_logUnmapped (s : State) (dir : BusDir) (a : BusAddr) : TimeStands s (s.logUnmapped dir a) :=
  (lineKeeps_logUnmapped (P := fun _ => True) dir a trivial s).timeStands (State.logUnmapped_work ..)

/-! ## The ports -/

theorem writeVmdata_work (h : Half) (d : Byte) (s : State) : (writeVmdata h d s).work = s.work := by
  rcases writeVmdata_cases h d s with ⟨-, hraise⟩ | ⟨w, -, -, hwrite⟩
  · rw [hraise, State.raise_work]
  · rw [hwrite, State.advanceAfter_work, State.vramWrite8_work]

theorem writeCgdata_work (d : Byte) (s : State) : (writeCgdata d s).work = s.work := by
  unfold writeCgdata
  split <;> rfl

/-- No port draws: a tick alone writes the work buffer (45_frame_exchange.md R290). -/
theorem writePort_work (p : WPort) (d : Byte) (s : State) : (WPort.run p d s).work = s.work := by
  cases p with
  | vmdatal => exact writeVmdata_work .low d s
  | vmdatah => exact writeVmdata_work .high d s
  | cgdata => exact writeCgdata_work d s
  | _ => rfl

theorem timeStands_writePort (p : WPort) (d : Byte) (s : State) : TimeStands s (WPort.run p d s) :=
  (lineKeeps_writePort (P := fun _ => True) p d s).timeStands (writePort_work p d s)

theorem timeStands_readVmdata (h : Half) (s : State) : TimeStands s (readVmdata h s) := by
  rcases readVmdata_cases h s with ⟨-, hraise⟩ | ⟨w, -, -, hread⟩
  · rw [hraise]
    exact ⟨rfl, rfl, rfl, rfl⟩
  · rw [hread]
    exact (timeStands_reply s _).trans (timeStands_advanceAfter _ h)

theorem timeStands_readRdcgram (s : State) : TimeStands s (readRdcgram s) := by
  unfold readRdcgram
  dsimp only
  split <;> exact ⟨rfl, rfl, rfl, rfl⟩

theorem timeStands_readPort (p : RPort) (s : State) : TimeStands s (RPort.run p s) := by
  cases p with
  | rdvraml => exact timeStands_readVmdata .low s
  | rdvramh => exact timeStands_readVmdata .high s
  | rdcgram => exact timeStands_readRdcgram s
  | slhv | ophct | opvct | stat77 | stat78 => exact ⟨rfl, rfl, rfl, rfl⟩

/-! ## Every instruction -/

theorem Effect.timeStands {i : Instr} {f : State → State} (e : Effect i f) (hadv : ∀ n, i ≠ .adv n) (hrst : i ≠ .rst)
    (s : State) : TimeStands s (f s) := by
  cases e with
  | write p d => exact timeStands_writePort p d s
  | writeNone a d => exact timeStands_logUnmapped s .write a
  | read p => exact timeStands_readPort p s
  | readNone a => exact (timeStands_reply s _).trans (timeStands_logUnmapped _ .read a)
  | adv n => exact absurd rfl (hadv n)
  | rst => exact absurd rfl hrst
  | setirq | setobj => exact ⟨rfl, rfl, rfl, rfl⟩
  | dread x y => exact timeStands_reply s _

/-- Settles O47, by cases on the instruction's effect. -/
theorem onlyAdvanceMovesTime : Obligations.OnlyAdvanceMovesTime := by
  intro i s t hadv hrst hx
  obtain ⟨f, e⟩ := exists_effect i
  rw [e.next_eq hx]
  obtain ⟨htiming, hcount, hdisplay, hwork⟩ := (e.timeStands hadv hrst s).live
  exact ⟨htiming, hcount, hdisplay, hwork⟩

end Sys2Proof.Machine
end

section
/-! Reset (70_reset_and_hazards.md R341), and the reads that give back both latched counters (R350). -/

namespace Sys2Proof.Machine

/-- Settles O56: on a running block RST is the logical reset, whose fields are those of a block just constructed. -/
theorem resetClearsEveryField : Obligations.ResetClearsEveryField :=
  ⟨spells_encode (i := .rst) rfl, fun _ hs => State.perform_of_running hs logicalReset⟩

/-! ## The bytes as numbers -/

theorem counterByte_pair (c : BitVec 9) : (counterByte c true).toNat * 256 + (counterByte c false).toNat = c.toNat := by
  have hc := c.isLt
  rw [counterByte_eq, counterByte_eq, BitVec.toNat_ofNat, BitVec.toNat_ofNat]
  simp only [if_true, Bool.false_eq_true, if_false]
  omega

theorem stat78Byte_flag (region : Bool) (version : BitVec 4) :
    (stat78Byte true region version).toNat / 64 % 2 = 1 := by
  have hv := version.isLt
  have hr := region.toNat_lt
  rw [toNat_stat78Byte, Bool.toNat_true]
  omega

theorem State.Inv.counters_lt {s : State} (h : s.Inv) : s.timing.hCounter < 512 ∧ s.timing.vCounter < 512 := by
  obtain ⟨hd, -⟩ := (State.inv_iff s).1 h
  obtain ⟨-, -, -, -, -, -, -, -, -, hh, hv⟩ := hd.desc
  exact ⟨h.hRange.trans_le hh, h.vRange.trans_le hv⟩

/-! ## Pairs of reads -/

theorem execAll_readPort_pair {s : State} {p q : RPort} (hs : s.fault = none) (hp : (RPort.run p s).fault = none) :
    execAll [p.instr, q.instr] s = .next (RPort.run q (RPort.run p s)) :=
  execAll_pair (exec_readPort_of_running hs p) (exec_readPort_of_running hp q)

section
variable {s : State} (hs : s.fault = none)
include hs

/-- The counters are latched and acknowledged, which puts both read-back phases at the low byte. -/
theorem execAll_rSlhv_rStat78 :
    execAll [.rSlhv, .rStat78] s = .next { s with
      latch := (s.latch.take s.timing.hCounter s.timing.vCounter).acknowledge
      replies := s.replies ++
        [.byte s.cfg.openBus, .byte (stat78Byte true s.cfg.desc.region s.cfg.ppu2Version)] } := by
  refine (execAll_readPort_pair (p := .slhv) (q := .stat78) hs hs).trans ?_
  simp [RPort.run, readStat78, readSlhv, State.reply, Latch.take]

/-- The byte at the phase and the other byte, after which the phase is as before. -/
theorem execAll_rOphct_rOphct :
    execAll [.rOphct, .rOphct] s = .next { s with
      replies := s.replies ++ [.byte (counterByte s.latch.latchedH s.latch.ophctPhase),
        .byte (counterByte s.latch.latchedH (!s.latch.ophctPhase))] } := by
  refine (execAll_readPort_pair (p := .ophct) (q := .ophct) hs hs).trans ?_
  simp [RPort.run, readOphct, State.reply, Latch.toggleH]

/-- The byte at the phase and the other byte, after which the phase is as before. -/
theorem execAll_rOpvct_rOpvct :
    execAll [.rOpvct, .rOpvct] s = .next { s with
      replies := s.replies ++ [.byte (counterByte s.latch.latchedV s.latch.opvctPhase),
        .byte (counterByte s.latch.latchedV (!s.latch.opvctPhase))] } := by
  refine (execAll_readPort_pair (p := .opvct) (q := .opvct) hs hs).trans ?_
  simp [RPort.run, readOpvct, State.reply, Latch.toggleV]

end

/-! ## The sequence of six reads -/

theorem execAll_append_of_next {a b : List Instr} {s t : State} (h : execAll a s = .next t) :
    execAll (a ++ b) s = execAll b t := by
  rw [execAll_append, h]

/-- The reads in pairs: the acknowledged latch stands through both read-backs. -/
theorem execAll_latchAndReadBack {s : State} (hs : s.fault = none) :
    execAll [.rSlhv, .rStat78, .rOphct, .rOphct, .rOpvct, .rOpvct] s = .next { s with
      latch := (s.latch.take s.timing.hCounter s.timing.vCounter).acknowledge
      replies := s.replies ++
        [.byte s.cfg.openBus, .byte (stat78Byte true s.cfg.desc.region s.cfg.ppu2Version),
         .byte (counterByte (BitVec.ofNat 9 s.timing.hCounter) false),
         .byte (counterByte (BitVec.ofNat 9 s.timing.hCounter) true),
         .byte (counterByte (BitVec.ofNat 9 s.timing.vCounter) false),
         .byte (counterByte (BitVec.ofNat 9 s.timing.vCounter) true)] } := by
  refine (execAll_append_of_next (execAll_rSlhv_rStat78 hs)).trans ?_
  refine (execAll_append_of_next (execAll_rOphct_rOphct ?_)).trans ?_
  · exact hs
  refine (execAll_rOpvct_rOpvct ?_).trans ?_
  · exact hs
  simp [Latch.take, Latch.acknowledge]

/-- Settles O30: below 512 a latched counter is the counter, and its two bytes put it together again. -/
theorem latchedCountersReadBack : Obligations.LatchedCountersReadBack := by
  intro s hs hi
  obtain ⟨hh, hv⟩ := hi.counters_lt
  refine ⟨_, _, _, _, _, _, execAll_latchAndReadBack hs, rfl, ?_, ?_, stat78Byte_flag .., rfl⟩
  · rw [counterByte_pair, BitVec.toNat_ofNat, Nat.mod_eq_of_lt hh]
  · rw [counterByte_pair, BitVec.toNat_ofNat, Nat.mod_eq_of_lt hv]

end Sys2Proof.Machine
end

section
/-! The words of the spec's vectors (95_test_vectors.md §2.1): nine encode a well-formed instruction, one is refused. -/

namespace Sys2Proof

theorem decode_of_encode_eq {i : Instr} {w : Word} (hw : i.wf = true) (h : encode i = w) : decode w = .ok i :=
  h ▸ decode_encode hw

/-- Settles O6: nine words are the encodings of their instructions, and the tenth is DREAD's with row 224. -/
theorem specWordsDecode : Obligations.SpecWordsDecode := by
  have hrow : decode 0x7000E000#32 = .error .dreadRow :=
    (decode_eq_error_iff _ _).2 (.inr (.inr ⟨rfl, by decide⟩))
  refine ⟨?_, ?_, ?_, ?_, ?_, ?_, ?_, ?_, ?_, hrow⟩ <;> exact decode_of_encode_eq (by decide) (by decide)

end Sys2Proof
end
